-- ==== Sys2Proof/Word.lean ====
section
/-! DEFINITION. The word types of the block (00_scope.md R7): a byte is 8 bits, the CRC and the short fields are
16 bits, the long fields are 32 bits. -/

namespace Sys2Proof

/-- A byte: every buffer and the transport are sequences of bytes (R7). -/
abbrev Byte := BitVec 8

/-- A 16-bit value: the CRC accumulator and the F-SI16 field (R7, R25, R67). -/
abbrev Half := BitVec 16

/-- A 32-bit value: the F-SI32 and F-I32 fields (R7, R68, R69). -/
abbrev Word := BitVec 32

end Sys2Proof
end

