-- ==== Sys2Proof/Config.lean ====
section
/-! DEFINITION. The parameters of the block (00_scope.md R6): the fixed and decided ones as constants, the open ones as
plain data that each client instance carries, and the environment's free input. -/

namespace Sys2Proof

/-- `RX_CAP` (R6): capacity of the receive accumulation buffer, in bytes. -/
abbrev Config.rxCap : Nat := 256

/-- `PAY_CAP` (R6, decided D15): capacity of the payload output buffer, in bytes. -/
abbrev Config.payCap : Nat := 256

/-- `MARKER_SHORT` (R6). -/
abbrev Config.markerShort : Byte := 0x02

/-- `MARKER_LONG` (R6). -/
abbrev Config.markerLong : Byte := 0x03

/-- `TERMINATOR` (R6). -/
abbrev Config.terminator : Byte := 0x03

/-- `SHORT_OVERHEAD` (R6): frame bytes beyond the payload, short form. -/
abbrev Config.shortOverhead : Nat := 5

/-- `SHORT_MAX` (R6, 90_conflicts.md C1): the largest length for which the builder picks the short form. -/
abbrev Config.shortMax : Nat := 256

/-- The largest framed length the two-byte length field holds (R135). -/
abbrev Config.longMax : Nat := 65535

/-- `CRC_INIT` (R6). -/
abbrev Config.crcInit : Half := 0x0000

/-- `CRC_POLY` (R6, decided D3): the generator polynomial without the x^16 term. -/
abbrev Config.crcPoly : Half := 0x1021

/-- `CMD_TELEMETRY` (R6, R74): the one command identifier the source fixes. -/
abbrev Config.cmdTelemetry : Byte := 0x04

/-- Bytes of the firmware-version layout L-FWVER (R188). -/
abbrev Config.fwverSize : Nat := 2

/-- Bytes of the telemetry layout L-TELEM (R189). -/
abbrev Config.telemSize : Nat := 58

/-- One of the four encoding forms with its scale: the open parameters `ENC_W` of the wrappers (R200, R202, D27). -/
inductive Enc where
  | si16 (scale : Nat)
  | si32 (scale : Nat)
  | i32
  | bool
deriving DecidableEq, Repr

/-- The open parameters of the block (R6): the eight command identifiers that are an external contract (D23), the six
telemetry scales (D21) and the four wrapper encodings (D27). They are fixed for a client instance, so each state carries
them (assumption log 5). -/
structure Params where
  cmdFwVersion : Byte
  cmdSetCurrent : Byte
  cmdSetBrake : Byte
  cmdSetRpm : Byte
  cmdSetDuty : Byte
  cmdSetRc : Byte
  cmdKeepalive : Byte
  cmdForward : Byte
  scTemp : Nat
  scCurrent : Nat
  scDuty : Nat
  scVin : Nat
  scEnergy : Nat
  scPos : Nat
  encSetCurrent : Enc
  encSetBrake : Enc
  encSetRpm : Enc
  encSetDuty : Enc
deriving DecidableEq, Repr

/-- The scales of a parameter set, in the order of R6. -/
def Params.scales (p : Params) : List Nat :=
  [p.scTemp, p.scCurrent, p.scDuty, p.scVin, p.scEnergy, p.scPos]

/-- All nine command identifiers (R74). -/
def Params.identifiers (p : Params) : List Byte :=
  [p.cmdFwVersion, Config.cmdTelemetry, p.cmdSetCurrent, p.cmdSetBrake, p.cmdSetRpm, p.cmdSetDuty, p.cmdSetRc,
    p.cmdKeepalive, p.cmdForward]

/-- The scale of an encoding form is a positive integer where the form has one (R118). -/
def Enc.legal : Enc → Bool
  | .si16 scale => decide (0 < scale)
  | .si32 scale => decide (0 < scale)
  | .i32 => true
  | .bool => true

/-- A legal parameter set: identifiers pairwise distinct (R74), every scale a positive integer (R6, R118). -/
def Params.legal (p : Params) : Bool :=
  decide p.identifiers.Nodup && p.scales.all (fun n => decide (0 < n)) &&
    [p.encSetCurrent, p.encSetBrake, p.encSetRpm, p.encSetDuty].all Enc.legal

/-- The values 93_implementation_defined.md section 3 publishes for the open parameters. PRESUMED: they are from outside
the source (assumption log 6); only the reset state uses them. -/
def Config.publishedParams : Params where
  cmdFwVersion := 0x00
  cmdSetCurrent := 0x06
  cmdSetBrake := 0x07
  cmdSetRpm := 0x08
  cmdSetDuty := 0x05
  cmdSetRc := 0x23
  cmdKeepalive := 0x1E
  cmdForward := 0x22
  scTemp := 10
  scCurrent := 100
  scDuty := 1000
  scVin := 10
  scEnergy := 10000
  scPos := 1000000
  encSetCurrent := .si32 1000
  encSetBrake := .si32 1000
  encSetRpm := .i32
  encSetDuty := .si32 100000

/-- `TIMEOUT_MS` of the reset state (93_implementation_defined.md section 3). PRESUMED (assumption log 6). -/
def Config.publishedTimeoutMs : Nat := 100

/-- `BOUND` of the reset state (R13: either value is legal). DESIGN CHOICE (assumption log 7). -/
def Config.resetBound : Bool := true

/-- `RC`, the Remote-Control State, owned by the caller (R30): two analog axes and two button flags. -/
structure RcState where
  axisX : Byte
  axisY : Byte
  buttonA : Bool
  buttonB : Bool
deriving DecidableEq, Repr, Inhabited

/-- What the environment does between two steps of the block (R10, R51, R53, R273): the clock advances by any amount,
any bytes arrive, the transport settles how many bytes a write of this step may take (R50), and the caller may write
`RC`. -/
structure EnvInput where
  advance : Nat
  arrives : List Byte
  accepts : Nat
  rc : Option RcState
deriving DecidableEq, Repr, Inhabited

/-- The environment beyond a state's own script of inputs: a free value, one for each draw (assumption log 8). Nothing
constrains it (93_implementation_defined.md U11, U12, U13). -/
opaque Config.envInput : Nat → EnvInput

/-- The byte at an offset of `FBUF[0 .. CUR-1]` that lies at or beyond `FLEN` (R46, R101): no such byte exists and the spec
says no value for it, so it is a free value, one for each step's draw and each offset (assumption log 23). -/
opaque Config.outsideByte : Nat → Nat → Byte

/-- The byte at an offset of `RXBUF` at or beyond `RXCNT`: it has no defined value (R17, 93_implementation_defined.md U10),
so it is a free value, one for each step's draw and each offset (assumption log 26). -/
opaque Config.staleByte : Nat → Nat → Byte

/-- The 32-bit operand of a raw-form wrapper argument that is no integer of that range (R106, R200, D27): the spec says no
value for it, so it is a free value, one for each step's draw and each number (assumption log 19). -/
opaque Config.argWord : Nat → Rat → Word

/-- The one-bit operand of a boolean-form wrapper argument that is neither 0 nor 1 (R107, R200, D27): a free value in the
same way (assumption log 19). -/
opaque Config.argBit : Nat → Rat → Bool

end Sys2Proof
end

