-- ==== Sys2Proof/Machine/Bytes.lean ====
section
/-! DEFINITION. Byte order, decided once (20_memory.md R40): every multi-byte quantity is big-endian, on the wire and in
every buffer, and the order cannot be switched (R42). -/

namespace Sys2Proof.Machine

/-- The unsigned number a byte sequence holds, most significant byte first: the value part of `MemRead` (R8, R40). -/
def beNat : List Byte → Nat
  | [] => 0
  | b :: bs => b.toNat * 256 ^ bs.length + beNat bs

/-- The `n` bytes of the number `v mod 2^(8n)`, most significant first: the byte part of `MemWrite` (R8, R40). -/
def beBytes : Nat → Nat → List Byte
  | 0, _ => []
  | n + 1, v => BitVec.ofNat 8 (v / 256 ^ n) :: beBytes n v

end Sys2Proof.Machine
end

