-- ==== Sys2Proof/Syntax.lean ====
section
/-! DEFINITION. The instructions: one constructor per row of spec/opcode_table.json (30_encoding.md R80, R82, R83).
Rows of format OP are the operations of the command port; PSEUDO rows are the wrappers of 45_command_codec.md R200 to
R208; FRAME rows are a whole frame of that format standing on the receive line; CMD rows are a payload that opens with
that command identifier; FIELD rows are one field of that format (assumption log 1, 2, 3 and 4 say what an item of the
last three kinds does). -/

namespace Sys2Proof

/-- A number the host hands to the codec: VU's `float`. A finite value is an exact rational (R7 `Real`, R103); the
others exist so that their refusal (R118) is part of the model. -/
inductive Value where
  | fin (q : Rat)
  | posInf
  | negInf
  | nan
deriving DecidableEq, Repr

/-- Where a byte-sequence operand comes from: bytes the host writes out, the payload a run of `PUT_*` has built
(`FBUF[0 .. CUR-1]`, R101, R130, R200), or the payload the host may read (`PAYBUF[0 .. PAYLEN-1]`, R57). -/
inductive Src where
  | lit (bs : List Byte)
  | built
  | paybuf
deriving DecidableEq, Repr

/-- Where the frame of `UNPACK` comes from: a byte sequence of the host's own, or `RXBUF`, which of all operations with a
byte-sequence operand only `UNPACK` reaches (R57, R175). -/
inductive FrameSrc where
  | given (src : Src)
  | rxbuf
deriving DecidableEq, Repr

/-- The rows of spec/opcode_table.json, in the table's order. -/
inductive Instr where
  -- format OP: the operations (R80)
  | crc16 (src : Src)
  | curReset (src : Src) (len : Nat)
  | putSi16 (value scale : Value)
  | putSi32 (value scale : Value)
  | putI32 (v : Word)
  | putBool (b : Bool)
  | putU8 (v : Byte)
  | getSi16 (scale : Value)
  | getSi32 (scale : Value)
  | getI32
  | getBool
  | getU8
  | skip (n : Nat)
  | build (src : Src) (fwd : Byte)
  | send (src : Src) (fwd : Byte)
  | rxStart
  | rxStep
  | rxResult
  | receive
  | unpack (src : FrameSrc) (n : Nat)
  | decode
  | decFwver
  | decTelem
  -- format FRAME: a frame on the receive line (R61, R62)
  | frameS (payload : List Byte)
  | frameL (payload : List Byte)
  -- format CMD: a payload opening with the identifier (R73 to R77)
  | cmdFwVersion (fields : List Byte)
  | cmdTelemetry (fields : List Byte)
  | cmdSetCurrent (v : Value)
  | cmdSetBrake (v : Value)
  | cmdSetRpm (v : Value)
  | cmdSetDuty (v : Value)
  | cmdSetRc
  | cmdKeepalive
  | cmdForward (fwd : Byte) (inner : List Byte)
  -- format FIELD: one field (R67 to R71)
  | fieldSi16 (n : Half)
  | fieldSi32 (n : Word)
  | fieldI32 (v : Word)
  | fieldBool (b : Bool)
  | fieldU8 (v : Byte)
  -- format PSEUDO: the wrappers (R200 to R208)
  | getFwVersion (fwd : Byte)
  | getValues (fwd : Byte)
  | setCurrent (v : Value) (fwd : Byte)
  | setBrakeCurrent (v : Value) (fwd : Byte)
  | setRpm (v : Value) (fwd : Byte)
  | setDuty (v : Value) (fwd : Byte)
  | setRcState (fwd : Byte)
  | keepalive (fwd : Byte)
deriving DecidableEq, Repr

end Sys2Proof
end

