-- ==== Sys2Proof/WellFormed.lean ====
section
/-! DEFINITION. Which instructions the formats can express. A FRAME-S length is one byte (R61: `L` in 0 to 255), a
FRAME-L length two bytes (R62: the two bytes of `L`), and a reply payload that arrives in a short frame has at most 255
bytes, its identifier among them (R60, R73). Every other operand is already confined by its type. -/

namespace Sys2Proof

/-- The length checks of the frame and reply formats. -/
def Instr.wellFormed : Instr → Bool
  | .frameS payload => decide (payload.length ≤ 255)
  | .frameL payload => decide (payload.length ≤ 65535)
  | .cmdFwVersion fields => decide (fields.length ≤ 254)
  | .cmdTelemetry fields => decide (fields.length ≤ 254)
  | .crc16 _ => true
  | .curReset _ _ => true
  | .putSi16 _ _ => true
  | .putSi32 _ _ => true
  | .putI32 _ => true
  | .putBool _ => true
  | .putU8 _ => true
  | .getSi16 _ => true
  | .getSi32 _ => true
  | .getI32 => true
  | .getBool => true
  | .getU8 => true
  | .skip _ => true
  | .build _ _ => true
  | .send _ _ => true
  | .rxStart => true
  | .rxStep => true
  | .rxResult => true
  | .receive => true
  | .unpack _ _ => true
  | .decode => true
  | .decFwver => true
  | .decTelem => true
  | .cmdSetCurrent _ => true
  | .cmdSetBrake _ => true
  | .cmdSetRpm _ => true
  | .cmdSetDuty _ => true
  | .cmdSetRc => true
  | .cmdKeepalive => true
  | .cmdForward _ _ => true
  | .fieldSi16 _ => true
  | .fieldSi32 _ => true
  | .fieldI32 _ => true
  | .fieldBool _ => true
  | .fieldU8 _ => true
  | .getFwVersion _ => true
  | .getValues _ => true
  | .setCurrent _ _ => true
  | .setBrakeCurrent _ _ => true
  | .setRpm _ _ => true
  | .setDuty _ _ => true
  | .setRcState _ => true
  | .keepalive _ => true

end Sys2Proof
end

