-- ==== Sys2Proof/Decode.lean ====
section
/-! DEFINITION. The command port's encoding, both ways. The source has no command port; 30_encoding.md R80 gives the
5-bit operation codes 0x00 to 0x16 and refuses 0x17 to 0x1F (U14). Everything beside those codes is the model's own
choice (assumption log 1): an item is one selector byte, whose low five bits are the operation code when the upper three
are zero, then its operands in the order of Instr. Numbers are base-128 with the low digit first, byte sequences carry
their length, fixed-width operands are big-endian (R40), and a scale is written less one, so that a run of zero bytes
after a selector is always a legal set of operands. -/

namespace Sys2Proof

/-- Why a byte sequence is no item. `truncated`: it ends too early, or an operand is not one (an impossible tag);
`noOperation`: the selector selects nothing (U14 and the model's own unused selectors); `illFormed`: the operands do not
fit the format (Instr.wellFormed). All are safe: the step is refused. -/
inductive DecodeErr where
  | truncated
  | noOperation (selector : Byte)
  | illFormed
deriving DecidableEq, Repr

/-! ### Operands, laid down -/

/-- A natural number in base 128, low digit first, bit 7 set on every byte but the last; `fuel` bounds the digits. -/
def encNatFuel : Nat → Nat → List Byte
  | 0, _ => []
  | fuel + 1, n => if n < 128 then [BitVec.ofNat 8 n] else BitVec.ofNat 8 (n % 128 + 128) :: encNatFuel fuel (n / 128)

/-- A natural number operand. -/
def encNat (n : Nat) : List Byte := encNatFuel (n + 1) n

/-- An integer operand: non-negative `z` as `2z`, negative `z` as `-2z - 1`. -/
def encInt (z : Int) : List Byte := encNat (if 0 ≤ z then (2 * z).toNat else (-2 * z - 1).toNat)

/-- A byte-sequence operand: its length, then its bytes. -/
def encBytes (bs : List Byte) : List Byte := encNat bs.length ++ bs

/-- A host number: tag, then for a finite one numerator and denominator less one. -/
def encValue : Value → List Byte
  | .fin q => 0x00 :: (encInt q.num ++ encNat (q.den - 1))
  | .posInf => [0x01]
  | .negInf => [0x02]
  | .nan => [0x03]

/-- A finite number moved by an integer; the others are unmoved. -/
def Value.shift (k : Int) : Value → Value
  | .fin q => .fin (mkRat (q.num + k * q.den) q.den)
  | .posInf => .posInf
  | .negInf => .negInf
  | .nan => .nan

/-- A scale operand: the number less one. -/
def encScale (v : Value) : List Byte := encValue (v.shift (-1))

/-- A byte-source operand: tag, then the bytes of a written-out one. -/
def encSrc : Src → List Byte
  | .lit bs => 0x00 :: encBytes bs
  | .built => [0x01]
  | .paybuf => [0x03]

/-- The operand of `UNPACK`: a byte source, or a tag of its own. -/
def encFrameSrc : FrameSrc → List Byte
  | .given src => encSrc src
  | .rxbuf => [0x02]

/-- A one-bit operand (F-BOOL, R70). -/
def encBool (b : Bool) : List Byte := [if b then 0x01 else 0x00]

/-- A 16-bit operand. -/
def encHalf (v : Half) : List Byte := Machine.beBytes 2 v.toNat

/-- A 32-bit operand. -/
def encWord (v : Word) : List Byte := Machine.beBytes 4 v.toNat

/-! ### Operands, picked up -/

/-- A reader of one operand: the operand and the bytes after it, or nothing. -/
abbrev Reader (α : Type) := List Byte → Option (α × List Byte)

/-- Inverse of `encNat`. -/
def decNat : Reader Nat
  | [] => none
  | b :: bs =>
    if b.toNat < 128 then some (b.toNat, bs)
    else
      match decNat bs with
      | none => none
      | some (n, rest) => some (b.toNat - 128 + 128 * n, rest)

/-- Inverse of `encInt`. -/
def decInt : Reader Int := fun bs =>
  match decNat bs with
  | none => none
  | some (n, rest) => some (if n % 2 = 0 then ((n / 2 : Nat) : Int) else -((n / 2 : Nat) : Int) - 1, rest)

/-- The next `n` bytes. -/
def takeBytes (n : Nat) : Reader (List Byte) := fun bs =>
  if n ≤ bs.length then some (bs.take n, bs.drop n) else none

/-- Inverse of `encBytes`. -/
def decBytes : Reader (List Byte) := fun bs =>
  match decNat bs with
  | none => none
  | some (n, rest) => takeBytes n rest

/-- A finite host number, after its tag. -/
def decFinite : Reader Value := fun bs =>
  match decInt bs with
  | none => none
  | some (num, rest) =>
    match decNat rest with
    | none => none
    | some (d, rest') => some (.fin (mkRat num (d + 1)), rest')

/-- Inverse of `encValue`. -/
def decValue : Reader Value
  | [] => none
  | tag :: bs =>
    if tag = 0x00 then decFinite bs
    else if tag = 0x01 then some (.posInf, bs)
    else if tag = 0x02 then some (.negInf, bs)
    else if tag = 0x03 then some (.nan, bs)
    else none

/-- Inverse of `encScale`. -/
def decScale : Reader Value := fun bs =>
  match decValue bs with
  | none => none
  | some (v, rest) => some (v.shift 1, rest)

/-- Inverse of `encSrc`. -/
def decSrc : Reader Src
  | [] => none
  | tag :: bs =>
    if tag = 0x00 then
      match decBytes bs with
      | none => none
      | some (s, rest) => some (.lit s, rest)
    else if tag = 0x01 then some (.built, bs)
    else if tag = 0x03 then some (.paybuf, bs)
    else none

/-- Inverse of `encFrameSrc`. -/
def decFrameSrc : Reader FrameSrc
  | [] => none
  | tag :: bs =>
    if tag = 0x02 then some (.rxbuf, bs)
    else
      match decSrc (tag :: bs) with
      | none => none
      | some (src, rest) => some (.given src, rest)

/-- One byte. -/
def decByte : Reader Byte
  | [] => none
  | b :: bs => some (b, bs)

/-- Inverse of `encBool`; any other byte is no operand. -/
def decBool : Reader Bool
  | [] => none
  | b :: bs => if b = 0x00 then some (false, bs) else if b = 0x01 then some (true, bs) else none

/-- Inverse of `encHalf`. -/
def decHalf : Reader Half := fun bs =>
  match takeBytes 2 bs with
  | none => none
  | some (v, rest) => some (BitVec.ofNat 16 (Machine.beNat v), rest)

/-- Inverse of `encWord`. -/
def decWord : Reader Word := fun bs =>
  match takeBytes 4 bs with
  | none => none
  | some (v, rest) => some (BitVec.ofNat 32 (Machine.beNat v), rest)

/-- An item without operands. -/
def args0 (i : Instr) : Reader Instr := fun bs => some (i, bs)

/-- An item with one operand. -/
def args1 {α : Type} (p : Reader α) (mk : α → Instr) : Reader Instr := fun bs =>
  match p bs with
  | none => none
  | some (a, rest) => some (mk a, rest)

/-- An item with two operands. -/
def args2 {α β : Type} (p : Reader α) (q : Reader β) (mk : α → β → Instr) : Reader Instr := fun bs =>
  match p bs with
  | none => none
  | some (a, rest) =>
    match q rest with
    | none => none
    | some (b, rest') => some (mk a b, rest')

/-! ### Items -/

/-- The reader of an item's operands, by its selector: 0x00 to 0x16 are the operation codes of R80; 0x20 to 0x27 the
PSEUDO rows, 0x40 and 0x41 the FRAME rows, 0x60 to 0x68 the CMD rows and 0x80 to 0x84 the FIELD rows, each in the table's
order. No other selector selects anything; among them 0x17 to 0x1F (R80, U14). -/
def operandsOf (selector : Nat) : Option (Reader Instr) :=
  match selector with
  | 0x00 => some (args1 decSrc .crc16)
  | 0x01 => some (args2 decSrc decNat .curReset)
  | 0x02 => some (args2 decValue decScale .putSi16)
  | 0x03 => some (args2 decValue decScale .putSi32)
  | 0x04 => some (args1 decWord .putI32)
  | 0x05 => some (args1 decBool .putBool)
  | 0x06 => some (args1 decByte .putU8)
  | 0x07 => some (args1 decScale .getSi16)
  | 0x08 => some (args1 decScale .getSi32)
  | 0x09 => some (args0 .getI32)
  | 0x0A => some (args0 .getBool)
  | 0x0B => some (args0 .getU8)
  | 0x0C => some (args1 decNat .skip)
  | 0x0D => some (args2 decSrc decByte .build)
  | 0x0E => some (args2 decSrc decByte .send)
  | 0x0F => some (args0 .rxStart)
  | 0x10 => some (args0 .rxStep)
  | 0x11 => some (args0 .rxResult)
  | 0x12 => some (args0 .receive)
  | 0x13 => some (args2 decFrameSrc decNat .unpack)
  | 0x14 => some (args0 .decode)
  | 0x15 => some (args0 .decFwver)
  | 0x16 => some (args0 .decTelem)
  | 0x20 => some (args1 decByte .getFwVersion)
  | 0x21 => some (args1 decByte .getValues)
  | 0x22 => some (args2 decValue decByte .setCurrent)
  | 0x23 => some (args2 decValue decByte .setBrakeCurrent)
  | 0x24 => some (args2 decValue decByte .setRpm)
  | 0x25 => some (args2 decValue decByte .setDuty)
  | 0x26 => some (args1 decByte .setRcState)
  | 0x27 => some (args1 decByte .keepalive)
  | 0x40 => some (args1 decBytes .frameS)
  | 0x41 => some (args1 decBytes .frameL)
  | 0x60 => some (args1 decBytes .cmdFwVersion)
  | 0x61 => some (args1 decBytes .cmdTelemetry)
  | 0x62 => some (args1 decValue .cmdSetCurrent)
  | 0x63 => some (args1 decValue .cmdSetBrake)
  | 0x64 => some (args1 decValue .cmdSetRpm)
  | 0x65 => some (args1 decValue .cmdSetDuty)
  | 0x66 => some (args0 .cmdSetRc)
  | 0x67 => some (args0 .cmdKeepalive)
  | 0x68 => some (args2 decByte decBytes .cmdForward)
  | 0x80 => some (args1 decHalf .fieldSi16)
  | 0x81 => some (args1 decWord .fieldSi32)
  | 0x82 => some (args1 decWord .fieldI32)
  | 0x83 => some (args1 decBool .fieldBool)
  | 0x84 => some (args1 decByte .fieldU8)
  | _ => none

/-- The item at the head of the command port and the bytes after it, or why there is none. -/
def decode : List Byte → Except DecodeErr (Instr × List Byte)
  | [] => .error .truncated
  | selector :: operands =>
    match operandsOf selector.toNat with
    | none => .error (.noOperation selector)
    | some reader =>
      match reader operands with
      | none => .error .truncated
      | some (i, rest) => if i.wellFormed then .ok (i, rest) else .error .illFormed

/-- The bytes of an item: its selector and its operands. -/
def encode : Instr → List Byte
  | .crc16 src => 0x00 :: encSrc src
  | .curReset src len => 0x01 :: (encSrc src ++ encNat len)
  | .putSi16 value scale => 0x02 :: (encValue value ++ encScale scale)
  | .putSi32 value scale => 0x03 :: (encValue value ++ encScale scale)
  | .putI32 v => 0x04 :: encWord v
  | .putBool b => 0x05 :: encBool b
  | .putU8 v => [0x06, v]
  | .getSi16 scale => 0x07 :: encScale scale
  | .getSi32 scale => 0x08 :: encScale scale
  | .getI32 => [0x09]
  | .getBool => [0x0A]
  | .getU8 => [0x0B]
  | .skip n => 0x0C :: encNat n
  | .build src fwd => 0x0D :: (encSrc src ++ [fwd])
  | .send src fwd => 0x0E :: (encSrc src ++ [fwd])
  | .rxStart => [0x0F]
  | .rxStep => [0x10]
  | .rxResult => [0x11]
  | .receive => [0x12]
  | .unpack src n => 0x13 :: (encFrameSrc src ++ encNat n)
  | .decode => [0x14]
  | .decFwver => [0x15]
  | .decTelem => [0x16]
  | .getFwVersion fwd => [0x20, fwd]
  | .getValues fwd => [0x21, fwd]
  | .setCurrent v fwd => 0x22 :: (encValue v ++ [fwd])
  | .setBrakeCurrent v fwd => 0x23 :: (encValue v ++ [fwd])
  | .setRpm v fwd => 0x24 :: (encValue v ++ [fwd])
  | .setDuty v fwd => 0x25 :: (encValue v ++ [fwd])
  | .setRcState fwd => [0x26, fwd]
  | .keepalive fwd => [0x27, fwd]
  | .frameS payload => 0x40 :: encBytes payload
  | .frameL payload => 0x41 :: encBytes payload
  | .cmdFwVersion fields => 0x60 :: encBytes fields
  | .cmdTelemetry fields => 0x61 :: encBytes fields
  | .cmdSetCurrent v => 0x62 :: encValue v
  | .cmdSetBrake v => 0x63 :: encValue v
  | .cmdSetRpm v => 0x64 :: encValue v
  | .cmdSetDuty v => 0x65 :: encValue v
  | .cmdSetRc => [0x66]
  | .cmdKeepalive => [0x67]
  | .cmdForward fwd inner => 0x68 :: fwd :: encBytes inner
  | .fieldSi16 n => 0x80 :: encHalf n
  | .fieldSi32 n => 0x81 :: encWord n
  | .fieldI32 v => 0x82 :: encWord v
  | .fieldBool b => 0x83 :: encBool b
  | .fieldU8 v => [0x84, v]

/-! ### The opcode table's words -/

/-- The bytes of a word of the opcode table: bit 0 is the least significant bit of the first byte, and each later
byte's bits count on from it. -/
def tableBytes : Nat → Nat → List Byte
  | 0, _ => []
  | k + 1, w => BitVec.ofNat 8 w :: tableBytes k (w / 256)

/-- How many zero bytes stand after a table word: as many as the longest all-zero operands take. -/
def zeroOperands : List Byte := List.replicate 16 0x00

/-- An instruction whose table bits are `w`, every further bit of it being zero, as the command port holds it. -/
def tableItem (nbits w : Nat) : List Byte := tableBytes ((nbits + 7) / 8) w ++ zeroOperands

/-- The instruction the decoder reads from a table word. -/
def decodeTableWord (nbits w : Nat) : Option Instr :=
  match decode (tableItem nbits w) with
  | .ok (i, _) => some i
  | .error _ => none

end Sys2Proof
end

