-- ==== Sys2Proof/Machine/State.lean ====
section
/-! DEFINITION. The machine's state (10_state.md), as plain data, its reset (R33, R250), and the reasons a step stops. -/

namespace Sys2Proof.Machine

/-- The statuses of 60_exceptions.md R215; the list is closed. -/
inductive Status where
  | ok
  | timeout
  | structuralReject
  | integrityFailure
  | unknownCommand
  | transportUnbound
  | codecOverrun
deriving DecidableEq, Repr

/-- `RXS`, the Frame Reader's state register (R16). -/
inductive RxState where
  | idle
  | awaitLength
  | awaitPayload
  | done
  | timedOut
  | rejected
deriving DecidableEq, Repr

/-- `RXMK`, the marker classification (R21): `unread` is the register's value `None`, fewer than two bytes buffered. -/
inductive Marker where
  | unread
  | short
  | longUnsupported
  | invalid
deriving DecidableEq, Repr

/-- What an operation returns on the command port (30_encoding.md R80, 60_exceptions.md R215). `empty`: no value, for an
operation that has none and for a `GET_*` that overran (R102). `flagLen`: `GET_VALUES` (R208). -/
inductive Result where
  | empty
  | crc (c : Half)
  | value (q : Rat)
  | int32 (v : Int)
  | flag (b : Bool)
  | byte (v : Byte)
  | count (n : Nat)
  | bytes (bs : List Byte)
  | flagLen (b : Bool) (n : Nat)
deriving DecidableEq, Repr

/-- What one finished call told the host (R272): its return value and its status. -/
structure Return where
  result : Result
  status : Status
deriving DecidableEq, Repr

/-- `SNAP`, the Telemetry Snapshot (R28), its sixteen fields in wire order. -/
structure Telemetry where
  tempMotor : Rat
  tempController : Rat
  avgMotorCurrent : Rat
  avgInputCurrent : Rat
  dutyCycle : Rat
  rpm : Int
  inputVoltage : Rat
  ampHours : Rat
  ampHoursCharged : Rat
  wattHours : Rat
  wattHoursCharged : Rat
  tachometer : Int
  tachometerAbs : Int
  faultCode : Byte
  position : Rat
  controllerId : Byte
deriving DecidableEq, Repr

/-- `FWV`, the Firmware Version record (R29). -/
structure FwVersion where
  major : Byte
  minor : Byte
deriving DecidableEq, Repr

/-- The two wrappers that await a reply (R201, R208). -/
inductive Query where
  | fwVersion
  | values
deriving DecidableEq, Repr

/-- The call in progress; `BUSY` (R15) is 1 exactly when there is one (assumption log 10). `stepwise`: `RX_START` has been
issued and `RX_RESULT` has not (R256). `receive`: a `RECEIVE` between polls (R161). `awaiting`: the `RECEIVE` of a query
wrapper between polls (R201). No other operation holds `BUSY` across more than one step. -/
inductive Call where
  | none
  | stepwise
  | receive
  | awaiting (q : Query)
deriving DecidableEq, Repr

/-- A byte buffer (R57): (offset, byte) pairs with strictly rising offsets and no entry equal to what an unlisted offset
reads as, 0x00 (Memory.wf in Ops.lean; assumption log 11). -/
abbrev Memory := List Host.Cell

/-- The state of the block and of what stands at its ports (10_state.md R33; INVENTORY.md lists each field with the rule
that names it). The last five fields are the ports' own: `accept`, `env`, `draws` and `port` are the model's, not the
spec's (assumption log 1, 8). -/
structure State where
  params : Params
  cfgTimeoutMs : Nat
  cfgBound : Bool
  status : Status
  result : Result
  returns : List Return
  call : Call
  rxs : RxState
  rxbuf : Memory
  rxcnt : Nat
  rxend : Option Nat
  rxlen : Byte
  rxmk : Marker
  rxdl : Nat
  fbuf : Memory
  flen : Nat
  cur : Nat
  crc : Half
  paybuf : Memory
  paylen : Byte
  txbuf : List Byte
  snap : Option Telemetry
  fwv : Option FwVersion
  rc : RcState
  rxq : List Byte
  txlog : List Byte
  now : Nat
  accept : Nat
  env : List EnvInput
  draws : Nat
  port : List Byte
deriving DecidableEq, Repr

/-- Why the machine stops. No operation of the spec faults: its failures are statuses (60_exceptions.md R223). Both
reasons below are safe and neither is reachable where the invariant of R167 holds. -/
inductive Fault where
  /-- Raised by a poll (`RX_STEP`, `RECEIVE`, the query wrappers) that reads a byte while the reader is active and `RXCNT`
  is 256 or more: the byte would go to an offset outside `RXBUF`, and such an access is not performed (R46). Safe. -/
  | rxbufFull
  /-- Raised by `RX_RESULT` (also at the end of `RECEIVE` and of the query wrappers) in state `Done` with `RXEND` unset:
  the validator would be handed a frame without a length (R160). Safe. -/
  | rxendUnset
deriving DecidableEq, Repr

/-- Why the machine gives a step no meaning. All are safe: nothing is proved through a refused step. -/
inductive Refusal where
  /-- Raised by exec for an instruction that has no meaning yet. Safe. -/
  | notModelled (mnemonic : String)
  /-- Raised by every operation issued while `BUSY = 1` that is not part of the call that set it (R256, U1). Safe. -/
  | busy
  /-- Raised by the step when the head of the command port is no item (R80, U14). Safe. -/
  | undecodable (e : DecodeErr)
  /-- Raised by `RX_RESULT` in `Idle` or an active state (R160, U2). Safe. -/
  | resultNotReady
  /-- Raised by `BUILD` and `SEND` for a framed length above 65535 (R135, U4). Safe. -/
  | frameTooLong
  /-- Raised by the scaled operations for a scale that is no positive integer (R118, U6), and by a telemetry decode or a
  wrapper whose parameter is no such scale. Safe. -/
  | scaleDomain
  /-- Raised by the scaled encodes, and by a wrapper or a request row with an argument, for a value that is not finite (R118,
  U6, D18). Safe. -/
  | valueDomain
deriving DecidableEq, Repr

/-- Construction of a client instance (R250): every register at the value of R33's table, from the construction arguments
and what the environment holds at that moment (`RC`, the transport's queues, the clock). What R33 calls unspecified reads
0x00 (assumption log 11). -/
def State.construct (params : Params) (timeoutMs : Nat) (bound : Bool) (rc : RcState) (rxq txlog : List Byte)
    (now : Nat) : State where
  params := params
  cfgTimeoutMs := timeoutMs
  cfgBound := bound
  status := .ok
  result := .empty
  returns := []
  call := .none
  rxs := .idle
  rxbuf := []
  rxcnt := 0
  rxend := none
  rxlen := 0
  rxmk := .unread
  rxdl := 0
  fbuf := []
  flen := 0
  cur := 0
  crc := 0
  paybuf := []
  paylen := 0
  txbuf := []
  snap := none
  fwv := none
  rc := rc
  rxq := rxq
  txlog := txlog
  now := now
  accept := 0
  env := []
  draws := 0
  port := []

/-- The machine right after reset: construction with the published parameters (assumption log 6), a bound transport (log
7), and a caller's record, queues and clock at zero (log 13). -/
def State.reset : State :=
  State.construct Config.publishedParams Config.publishedTimeoutMs Config.resetBound ⟨0, 0, false, false⟩ [] [] 0

end Sys2Proof.Machine
end

