-- ==== Sys2Proof/Machine/Ops.lean ====
section
/-! DEFINITION. The named operations over buffers, queues and registers: reading and writing a buffer (20_memory.md R40,
R46, R57), the transport's calls (R48 to R51), the end of a call (60_exceptions.md R223: what stands in this block in
place of taking an exception and returning from one), and the ports the step takes its inputs from. -/

namespace Sys2Proof.Machine

/-- What an offset that nothing has written reads as (assumption log 11). -/
def unlistedByte : Byte := 0x00

/-- The canonical form of a buffer: offsets strictly rising, no entry equal to what an unlisted offset reads as. -/
abbrev Memory.wf (m : Memory) : Prop :=
  m.Pairwise (fun x y => x.1 < y.1) ∧ ∀ c ∈ m, c.2 ≠ unlistedByte

/-- Every listed offset lies below `n`: the buffer's size (R57). -/
abbrev Memory.below (m : Memory) (n : Nat) : Prop := ∀ c ∈ m, c.1 < n

/-- The byte at an offset, `B[i]` (R8). -/
def Memory.read : Memory → Nat → Byte
  | [], _ => unlistedByte
  | (k, v) :: rest, a => if k = a then v else Memory.read rest a

/-- `B[a] <- v`, keeping the canonical form (R8). -/
def Memory.write : Memory → Nat → Byte → Memory
  | [], a, v => if v = unlistedByte then [] else [(a, v)]
  | (k, w) :: rest, a, v =>
    if k < a then (k, w) :: Memory.write rest a v
    else if k = a then (if v = unlistedByte then rest else (a, v) :: rest)
    else (if v = unlistedByte then (k, w) :: rest else (a, v) :: (k, w) :: rest)

/-- The `n` bytes `B[a] .. B[a+n-1]`, in offset order. -/
def Memory.readBytes (m : Memory) : Nat → Nat → List Byte
  | _, 0 => []
  | a, n + 1 => Memory.read m a :: Memory.readBytes m (a + 1) n

/-- `B[a + i] <- bs[i]` for every byte of `bs`. -/
def Memory.writeBytes : Memory → Nat → List Byte → Memory
  | m, _, [] => m
  | m, a, b :: bs => Memory.writeBytes (Memory.write m a b) (a + 1) bs

/-- `MemRead(B, off, n)` (R8, R40). -/
def Memory.readNat (m : Memory) (a n : Nat) : Nat := beNat (Memory.readBytes m a n)

/-- A buffer that holds just these bytes, from offset 0. -/
def Memory.ofBytes (bs : List Byte) : Memory := Memory.writeBytes [] 0 bs

/-- `BUSY` (R15): a call is in progress. -/
def State.busy (s : State) : Bool := decide (s.call ≠ .none)

/-- An operation's end (R14, R215): it writes `STATUS` and answers its return value. -/
def State.report (s : State) (status : Status) (result : Result) : State :=
  { s with status := status, result := result }

/-- A call's end (R223, R272): its last operation has reported, whether it succeeded or failed, and the host has one more
return of a call; nothing is saved and control is with the host again. -/
def State.ret (s : State) (status : Status) (result : Result) : State :=
  { s.report status result with returns := s.returns ++ [⟨result, status⟩] }

/-- An operation that is one call by itself: refused while another call is in progress (R256). -/
def whenIdle (s : State) (k : Host.Outcome State Fault Refusal) : Host.Outcome State Fault Refusal :=
  if s.busy then .refused .busy else k

/-- `T.writeBytes(bs)` (R50): the transport takes the first bytes, as many as it is willing to, and says how many. -/
def State.writeCount (s : State) (bs : List Byte) : Nat := min s.accept bs.length

/-- The effect of `T.writeBytes(bs)` on the link (R50, R52). -/
def State.transmit (s : State) (bs : List Byte) : State :=
  { s with txlog := s.txlog ++ bs.take (s.writeCount bs) }

/-! ### The ports -/

/-- The environment's next input: the head of the script, and past its end a free value (assumption log 8). -/
def State.nextInput (s : State) : EnvInput :=
  match s.env with
  | e :: _ => e
  | [] => Config.envInput s.draws

/-- The environment acts (R51, R53, R236, R273): the clock moves on, bytes arrive behind those waiting, the transport
settles what a write may take, and between calls, never inside one, the caller may write `RC` (R30). -/
def State.applyInput (s : State) (e : EnvInput) : State :=
  { s with
    now := s.now + e.advance
    rxq := s.rxq ++ e.arrives
    accept := e.accepts
    rc := if s.busy then s.rc else e.rc.getD s.rc
    env := s.env.tail
    draws := s.draws + 1 }

/-- The environment takes its turn before the block does. -/
def State.takeInput (s : State) : State := s.applyInput s.nextInput

/-- The call in progress keeps the item at the head of the command port: it is a `RECEIVE` or a query wrapper that has
not returned (R161, R201). -/
def Call.holdsPort : Call → Bool
  | .none => false
  | .stepwise => false
  | .receive => true
  | .awaiting _ => true

/-- After an item's step the port moves on to the bytes behind it, unless the item's call has not returned. -/
def State.retire (s : State) (rest : List Byte) : State :=
  if s.call.holdsPort then s else { s with port := rest }

/-- What the step does with an item's outcome. -/
def retireOutcome (rest : List Byte) :
    Host.Outcome State Fault Refusal → Host.Outcome State Fault Refusal
  | .next s => .next (s.retire rest)
  | .fault r => .fault r
  | .refused r => .refused r

end Sys2Proof.Machine
end

