-- ==== Sys2Proof/Machine/Operands.lean ====
section
/-! DEFINITION. Operand forms: byte sources (30_encoding.md R80, 42_frame_builder.md R130), scales and values
(41_field_codec.md R118), and the codec's arithmetic in one place (R103, R119). -/

namespace Sys2Proof.Machine

/-- The `n` bytes from offset `a` on that `byteAt` gives. -/
def openBytes (byteAt : Nat → Byte) : Nat → Nat → List Byte
  | _, 0 => []
  | a, n + 1 => byteAt a :: openBytes byteAt (a + 1) n

/-- The `total` bytes of a buffer from its start, of which only those below `known` have a defined value: the buffer's
there, and `byteAt` gives the others. -/
def Memory.viewBytes (m : Memory) (known total : Nat) (byteAt : Nat → Byte) : List Byte :=
  Memory.readBytes m 0 (min total known) ++ openBytes byteAt known (total - known)

/-- The payload a run of `PUT_*` has built, `FBUF[0 .. CUR-1]` (R101). No byte at or beyond `FLEN` is read (R46): after an
overrun or a `SKIP` past the end, what stands there is a free value (assumption log 23). -/
def State.built (s : State) : List Byte :=
  Memory.viewBytes s.fbuf s.flen s.cur (Config.outsideByte s.draws)

/-- The payload `UNPACK` has left, `PAYBUF[0 .. PAYLEN-1]` (R185). -/
def State.payload (s : State) : List Byte := Memory.readBytes s.paybuf 0 s.paylen.toNat

/-- The whole receive buffer as `UNPACK` sees it (R17, R57). A byte at or beyond `RXCNT` has no defined value (R17, U10),
whatever an earlier read left there: it is a free value (DESIGN CHOICE, assumption log 26). -/
def State.rxBytes (s : State) : List Byte :=
  Memory.viewBytes s.rxbuf s.rxcnt Config.rxCap (Config.staleByte s.draws)

/-- The bytes of a byte-sequence operand. -/
def State.bytesOf (s : State) : Src → List Byte
  | .lit bs => bs
  | .built => s.built
  | .paybuf => s.payload

/-- The bytes of the frame handed to `UNPACK` (R175). What `RXBUF` holds at or beyond `RXCNT` is left free (DESIGN CHOICE,
assumption log 26). -/
def State.frameOfSrc (s : State) : FrameSrc → List Byte
  | .given src => s.bytesOf src
  | .rxbuf => s.rxBytes

/-- A scale operand in its domain: a positive integer (R118). -/
def scaleOf : Value → Option Nat
  | .fin q => if q.den = 1 ∧ 0 < q.num then some q.num.toNat else none
  | .posInf => none
  | .negInf => none
  | .nan => none

/-- A value operand in its domain: a finite number (R118). -/
def finiteOf : Value → Option Rat
  | .fin q => some q
  | .posInf => none
  | .negInf => none
  | .nan => none

/-- An operation with a scale operand (R118). DESIGN CHOICE: a scale outside the domain is refused before the operation does
anything else, R102's overrun test included (assumption log 27). -/
def withScale (v : Value) (k : Nat → Host.Outcome State Fault Refusal) : Host.Outcome State Fault Refusal :=
  match scaleOf v with
  | none => .refused .scaleDomain
  | some n => k n

/-- An operation with a value operand (R118). DESIGN CHOICE: a value outside the domain is refused before R102's overrun test
(assumption log 27). -/
def withFinite (v : Value) (k : Rat → Host.Outcome State Fault Refusal) : Host.Outcome State Fault Refusal :=
  match finiteOf v with
  | none => .refused .valueDomain
  | some q => k q

/-- `ROUND` (R103, D16) of the fraction `n / d`: the nearest integer, ties away from zero. -/
def roundAway (n : Int) (d : Nat) : Int :=
  if 0 ≤ n then (2 * n + d) / (2 * d) else -((-(2 * n) + d) / (2 * d))

/-- Quantisation (R103): the exact product, rounded, then the low `w` bits of the two's-complement integer (D17). -/
def quantise (w : Nat) (value : Rat) (scale : Nat) : BitVec w :=
  BitVec.ofInt w (roundAway (value.num * scale) value.den)

/-- `sint_w(u)` (R7): an unsigned number of `w` bits reinterpreted as signed. -/
def sint (w u : Nat) : Int := if u < 2 ^ (w - 1) then (u : Int) else (u : Int) - 2 ^ w

/-- Decode of a scaled field: the exact quotient of the signed integer (R109, R110). -/
def scaled (w u scale : Nat) : Rat := mkRat (sint w u) scale

/-- The two bytes of a 16-bit field (R67). -/
def halfBytes (v : Half) : List Byte := beBytes 2 v.toNat

/-- The four bytes of a 32-bit field (R68, R69). -/
def wordBytes (v : Word) : List Byte := beBytes 4 v.toNat

/-- The byte of a boolean field (R70, R107). -/
def boolByte (b : Bool) : Byte := if b then 0x01 else 0x00

/-- A finite number as a signed 32-bit operand (R106): an integer of that range is itself. For any other the spec states no
operand, and it is a free value (DESIGN CHOICE, assumption log 19). -/
def int32Of (draw : Nat) (q : Rat) : Word :=
  if q.den = 1 ∧ -2147483648 ≤ q.num ∧ q.num ≤ 2147483647 then BitVec.ofInt 32 q.num else Config.argWord draw q

/-- A finite number as a one-bit operand (R107): 0 and 1 are themselves. For any other the spec states no operand, and it is
a free value (DESIGN CHOICE, assumption log 19). -/
def bitOf (draw : Nat) (q : Rat) : Bool :=
  if q = 0 then false else if q = 1 then true else Config.argBit draw q

/-- The bytes a wrapper's argument takes in its encoding form `ENC_W` (R200, R202, D27), in the step with this draw. Every
finite number has some; a number that is not finite, and a scale parameter of 0, are refused (R118). -/
def encodeArg (draw : Nat) (e : Enc) (v : Value) : Except Refusal (List Byte) :=
  match finiteOf v with
  | none => .error .valueDomain
  | some q =>
    match e with
    | .si16 scale => if 0 < scale then .ok (halfBytes (quantise 16 q scale)) else .error .scaleDomain
    | .si32 scale => if 0 < scale then .ok (wordBytes (quantise 32 q scale)) else .error .scaleDomain
    | .i32 => .ok (wordBytes (int32Of draw q))
    | .bool => .ok [boolByte (bitOf draw q)]

end Sys2Proof.Machine
end

