-- ==== Sys2Proof/Machine/Codec.lean ====
section
/-! DEFINITION. The fixed-point field codec (41_field_codec.md): one way to lay a field at the cursor, one way to pick a
field up, and the twelve operations over them. -/

namespace Sys2Proof.Machine

/-- The cursor moves on by a field's width, whether or not the field was stored or produced (R100). -/
def State.advance (s : State) (n : Nat) : State := { s with cur := s.cur + n }

/-- Whether an access of `n` bytes at the cursor stays inside the buffer (R102). -/
def State.fits (s : State) (n : Nat) : Bool := decide (s.cur + n ≤ s.flen)

/-- Laying a field at the cursor (R102, R104 to R108): nothing is written if it does not fit, and the cursor moves on in
either case. -/
def putField (s : State) (bs : List Byte) : State × Status :=
  if s.fits bs.length then
    (({ s with fbuf := Memory.writeBytes s.fbuf s.cur bs } : State).advance bs.length, .ok)
  else (s.advance bs.length, .codecOverrun)

/-- Picking up a field of `n` bytes at the cursor as an unsigned number (R102, R109 to R113): no value if it does not fit,
and the cursor moves on in either case. -/
def getField (s : State) (n : Nat) : State × Option Nat :=
  if s.fits n then (s.advance n, some (Memory.readNat s.fbuf s.cur n)) else (s.advance n, none)

/-- A `PUT_*` as a call: no value is returned. -/
def putOutcome (s : State) (bs : List Byte) : Host.Outcome State Fault Refusal :=
  .next ((putField s bs).1.ret (putField s bs).2 .empty)

/-- A `GET_*` as a call: `view` makes the returned value of the unsigned number read. -/
def getOutcome (s : State) (n : Nat) (view : Nat → Result) : Host.Outcome State Fault Refusal :=
  match getField s n with
  | (s', some u) => .next (s'.ret .ok (view u))
  | (s', none) => .next (s'.ret .codecOverrun .empty)

/-- `FBUF <- buf; FLEN <- len; CUR <- 0` (R101). Bytes of the buffer at or beyond `len` are not bound; bytes below `len`
that `buf` does not give are unspecified (assumption log 16). -/
def State.bind (s : State) (buf : List Byte) (len : Nat) : State :=
  { s with fbuf := Memory.ofBytes (buf.take len), flen := len, cur := 0 }

/-- `CUR_RESET buf, len` (R101). -/
def execCurReset (src : Src) (len : Nat) (s : State) : Host.Outcome State Fault Refusal :=
  whenIdle s (.next ((s.bind (s.bytesOf src) len).ret .ok .empty))

/-- `PUT_SI16 value, scale` (R104). Operands outside R118's domain are refused before the overrun test: DESIGN CHOICE (assumption
log 27). -/
def execPutSi16 (value scale : Value) (s : State) : Host.Outcome State Fault Refusal :=
  whenIdle s (withScale scale fun n => withFinite value fun q => putOutcome s (halfBytes (quantise 16 q n)))

/-- `PUT_SI32 value, scale` (R105). Operands outside R118's domain are refused before the overrun test: DESIGN CHOICE (assumption
log 27). -/
def execPutSi32 (value scale : Value) (s : State) : Host.Outcome State Fault Refusal :=
  whenIdle s (withScale scale fun n => withFinite value fun q => putOutcome s (wordBytes (quantise 32 q n)))

/-- `PUT_I32 v` (R106). -/
def execPutI32 (v : Word) (s : State) : Host.Outcome State Fault Refusal :=
  whenIdle s (putOutcome s (wordBytes v))

/-- `PUT_BOOL b` (R107). -/
def execPutBool (b : Bool) (s : State) : Host.Outcome State Fault Refusal :=
  whenIdle s (putOutcome s [boolByte b])

/-- `PUT_U8 v` (R108). -/
def execPutU8 (v : Byte) (s : State) : Host.Outcome State Fault Refusal :=
  whenIdle s (putOutcome s [v])

/-- `GET_SI16 scale -> value` (R109). A scale outside R118's domain is refused before the overrun test: DESIGN CHOICE (assumption
log 27). -/
def execGetSi16 (scale : Value) (s : State) : Host.Outcome State Fault Refusal :=
  whenIdle s (withScale scale fun n => getOutcome s 2 fun u => .value (scaled 16 u n))

/-- `GET_SI32 scale -> value` (R110). A scale outside R118's domain is refused before the overrun test: DESIGN CHOICE (assumption
log 27). -/
def execGetSi32 (scale : Value) (s : State) : Host.Outcome State Fault Refusal :=
  whenIdle s (withScale scale fun n => getOutcome s 4 fun u => .value (scaled 32 u n))

/-- `GET_I32 -> v` (R111). -/
def execGetI32 (s : State) : Host.Outcome State Fault Refusal :=
  whenIdle s (getOutcome s 4 fun u => .int32 (sint 32 u))

/-- `GET_BOOL -> b` (R112): any byte but zero is true. -/
def execGetBool (s : State) : Host.Outcome State Fault Refusal :=
  whenIdle s (getOutcome s 1 fun u => .flag (decide (u ≠ 0)))

/-- `GET_U8 -> v` (R113). -/
def execGetU8 (s : State) : Host.Outcome State Fault Refusal :=
  whenIdle s (getOutcome s 1 fun u => .byte (BitVec.ofNat 8 u))

/-- `SKIP n` (R114): no bounds check of its own. -/
def execSkip (n : Nat) (s : State) : Host.Outcome State Fault Refusal :=
  whenIdle s (.next ((s.advance n).ret .ok .empty))

end Sys2Proof.Machine
end

