-- ==== Sys2Proof/Machine/Crc.lean ====
section
/-! DEFINITION. The CRC-16 generator (40_crc.md). -/

namespace Sys2Proof.Machine

/-- One shift of the accumulator: the polynomial is XORed in when the bit shifted out is 1 (R91). -/
def crcShift (c : Half) : Half := if c.msb then (c <<< 1) ^^^ Config.crcPoly else c <<< 1

/-- `n` shifts (R91). -/
def crcShifts : Nat → Half → Half
  | 0, c => c
  | n + 1, c => crcShifts n (crcShift c)

/-- `crc_byte(c, b)` (R91): the byte into bits 15..8, then eight shifts. -/
def crcByte (c : Half) (b : Byte) : Half := crcShifts 8 (c ^^^ (b.setWidth 16 <<< 8))

/-- The accumulator after the bytes of a sequence, in increasing offset order (R90). -/
def crcFold : Half → List Byte → Half
  | c, [] => c
  | c, b :: bs => crcFold (crcByte c b) bs

/-- `crc16(s)` (R90): from `CRC_INIT`, no final XOR. -/
def crc16 (bs : List Byte) : Half := crcFold Config.crcInit bs

/-- The two bytes of a CRC in a frame, high byte first (R41, R65). -/
def crcBytes (bs : List Byte) : List Byte := beBytes 2 (crc16 bs).toNat

/-- `CRC` after an evaluation over `bs` (R25, assumption log 12). -/
def State.withCrc (s : State) (bs : List Byte) : State := { s with crc := crc16 bs }

/-- `CRC16 s -> c` (R90). It cannot fail. -/
def execCrc16 (src : Src) (s : State) : Host.Outcome State Fault Refusal :=
  whenIdle s (.next ((s.withCrc (s.bytesOf src)).ret .ok (.crc (crc16 (s.bytesOf src)))))

end Sys2Proof.Machine
end

