-- ==== Sys2Proof/Machine/Builder.lean ====
section
/-! DEFINITION. The frame formats (30_encoding.md R61, R62) and the frame builder (42_frame_builder.md). -/

namespace Sys2Proof.Machine

/-- Format FRAME-S (R61), with the low eight bits of the length in its length byte (R79). -/
def frameShort (payload : List Byte) : List Byte :=
  [Config.markerShort, BitVec.ofNat 8 payload.length] ++ payload ++ crcBytes payload ++ [Config.terminator]

/-- Format FRAME-L (R62). -/
def frameLong (payload : List Byte) : List Byte :=
  Config.markerLong :: beBytes 2 payload.length ++ payload ++ crcBytes payload ++ [Config.terminator]

/-- The framed payload (R131): with a non-zero forward id, the forwarding header in front. -/
def framed (p : Params) (fwd : Byte) (payload : List Byte) : List Byte :=
  if fwd = 0 then payload else [p.cmdForward, fwd] ++ payload

/-- The frame of a framed payload (R130, R132, R133): the short form up to `SHORT_MAX`, the long form above. -/
def frameOf (q : List Byte) : List Byte := if q.length ≤ Config.shortMax then frameShort q else frameLong q

/-- `BUILD`'s own effect (R130): the frame in `TXBUF`. -/
def buildFrame (s : State) (q : List Byte) : State := { s.withCrc q with txbuf := frameOf q }

/-- `BUILD` as a call (R130, R135): the frame is returned. -/
def buildOutcome (s : State) (q : List Byte) : Host.Outcome State Fault Refusal :=
  if q.length ≤ Config.longMax then .next ((buildFrame s q).ret .ok (.bytes (frameOf q))) else .refused .frameTooLong

/-- `BUILD P, fwd -> F` (R130, R135). -/
def execBuild (src : Src) (fwd : Byte) (s : State) : Host.Outcome State Fault Refusal :=
  whenIdle s (buildOutcome s (framed s.params fwd (s.bytesOf src)))

/-- What a `SEND` does before its call ends (R137, R138): the state, the status and the count. Whether a transport is bound
is tested before anything else (R220, R225). -/
def sendFrame (s : State) (payload : List Byte) (fwd : Byte) : Except Refusal (State × Status × Nat) :=
  if s.cfgBound then
    if (framed s.params fwd payload).length ≤ Config.longMax then
      .ok ((buildFrame s (framed s.params fwd payload)).transmit (frameOf (framed s.params fwd payload)), .ok,
        s.writeCount (frameOf (framed s.params fwd payload)))
    else .error .frameTooLong
  else .ok (s, .transportUnbound, 0)

/-- The end of a call whose last act is a `SEND`: it returns what `SEND` returns (R137, R200). -/
def sendOutcome (s : State) (payload : List Byte) (fwd : Byte) : Host.Outcome State Fault Refusal :=
  match sendFrame s payload fwd with
  | .error r => .refused r
  | .ok (s', st, n) => .next (s'.ret st (.count n))

/-- `SEND P, fwd -> count` (R137, R138). -/
def execSend (src : Src) (fwd : Byte) (s : State) : Host.Outcome State Fault Refusal :=
  whenIdle s (sendOutcome s (s.bytesOf src) fwd)

end Sys2Proof.Machine
end

