-- ==== Sys2Proof/Machine/Validator.lean ====
section
/-! DEFINITION. The payload validator (44_payload_validator.md). -/

namespace Sys2Proof.Machine

/-- A consistent short frame of length `n` in the buffer (R176): marker 2, `n` the length byte plus 5, `n` within the
buffer. A buffer of fewer than two bytes is none (assumption log 17). -/
def shortFrame (frame : List Byte) (n : Nat) : Bool :=
  match frame with
  | marker :: len :: _ =>
    decide (marker = Config.markerShort ∧ n = len.toNat + Config.shortOverhead ∧ n ≤ frame.length)
  | _ => false

/-- `UNPACK`'s effect and status (R175 to R177): structure first, then copy, then compare. The result is true exactly
when the status is `Ok`. -/
def unpackFrame (s : State) (frame : List Byte) (n : Nat) : State × Status :=
  if shortFrame frame n then
    let len : Byte := frame.getD 1 0
    let crcRx : Nat := beNat ((frame.drop (n - 3)).take 2)
    let paybuf := Memory.writeBytes s.paybuf 0 ((frame.drop 2).take len.toNat)
    let copied := Memory.readBytes paybuf 0 len.toNat
    ({ s with paybuf := paybuf, paylen := len, crc := crc16 copied },
      if (crc16 copied).toNat = crcRx then .ok else .integrityFailure)
  else (s, .structuralReject)

/-- The end of a call whose result is a boolean that is true exactly on `Ok` (R175, R185). -/
def flagOutcome (r : State × Status) : Host.Outcome State Fault Refusal :=
  .next (r.1.ret r.2 (.flag (decide (r.2 = .ok))))

/-- `UNPACK F, n -> ok` (R175). -/
def execUnpack (src : FrameSrc) (n : Nat) (s : State) : Host.Outcome State Fault Refusal :=
  whenIdle s (flagOutcome (unpackFrame s (s.frameOfSrc src) n))

end Sys2Proof.Machine
end

