-- ==== Sys2Proof/Machine/Command.lean ====
section
/-! DEFINITION. The command codec (45_command_codec.md sections 1 and 2): dispatch on the identifier and the two constant
layouts L-FWVER and L-TELEM, each a sequence of codec reads. -/

namespace Sys2Proof.Machine

/-- A sequence of codec reads: the state after it, and the fields read unless one of them overran, which ends the
sequence there (R102, R190, R224). -/
abbrev Layout (α : Type) := State → State × Option α

/-- One sequence, then the next. -/
def Layout.andThen {α β : Type} (m : Layout α) (k : α → Layout β) : Layout β := fun s =>
  match m s with
  | (s', some a) => k a s'
  | (s', none) => (s', none)

/-- The end of a sequence. -/
def Layout.give {α : Type} (a : α) : Layout α := fun s => (s, some a)

/-- `GET_SI16 scale` inside a layout (R109). -/
def Layout.si16 (scale : Nat) : Layout Rat := fun s =>
  ((getField s 2).1, (getField s 2).2.map fun u => scaled 16 u scale)

/-- `GET_SI32 scale` inside a layout (R110). -/
def Layout.si32 (scale : Nat) : Layout Rat := fun s =>
  ((getField s 4).1, (getField s 4).2.map fun u => scaled 32 u scale)

/-- `GET_I32` inside a layout (R111). -/
def Layout.i32 : Layout Int := fun s => ((getField s 4).1, (getField s 4).2.map fun u => sint 32 u)

/-- `GET_U8` inside a layout (R113). -/
def Layout.u8 : Layout Byte := fun s => ((getField s 1).1, (getField s 1).2.map fun u => BitVec.ofNat 8 u)

/-- `SKIP n` inside a layout (R114). -/
def Layout.skip (n : Nat) : Layout Unit := fun s => (s.advance n, some ())

/-- Layout L-FWVER (R188). -/
def layoutFwver : Layout FwVersion :=
  Layout.u8.andThen fun major => Layout.u8.andThen fun minor => Layout.give ⟨major, minor⟩

/-- Layout L-TELEM (R189), one line a row. -/
def layoutTelem (p : Params) : Layout Telemetry :=
  (Layout.si16 p.scTemp).andThen fun tempMotor =>
  (Layout.si16 p.scTemp).andThen fun tempController =>
  (Layout.si32 p.scCurrent).andThen fun avgMotorCurrent =>
  (Layout.si32 p.scCurrent).andThen fun avgInputCurrent =>
  (Layout.skip 4).andThen fun _ =>
  (Layout.skip 4).andThen fun _ =>
  (Layout.si16 p.scDuty).andThen fun dutyCycle =>
  Layout.i32.andThen fun rpm =>
  (Layout.si16 p.scVin).andThen fun inputVoltage =>
  (Layout.si32 p.scEnergy).andThen fun ampHours =>
  (Layout.si32 p.scEnergy).andThen fun ampHoursCharged =>
  (Layout.si32 p.scEnergy).andThen fun wattHours =>
  (Layout.si32 p.scEnergy).andThen fun wattHoursCharged =>
  Layout.i32.andThen fun tachometer =>
  Layout.i32.andThen fun tachometerAbs =>
  Layout.u8.andThen fun faultCode =>
  (Layout.si32 p.scPos).andThen fun position =>
  Layout.u8.andThen fun controllerId =>
  Layout.give
    { tempMotor := tempMotor
      tempController := tempController
      avgMotorCurrent := avgMotorCurrent
      avgInputCurrent := avgInputCurrent
      dutyCycle := dutyCycle
      rpm := rpm
      inputVoltage := inputVoltage
      ampHours := ampHours
      ampHoursCharged := ampHoursCharged
      wattHours := wattHours
      wattHoursCharged := wattHoursCharged
      tachometer := tachometer
      tachometerAbs := tachometerAbs
      faultCode := faultCode
      position := position
      controllerId := controllerId }

/-- `DEC_FWVER`'s effect and status (R188, R192): a field area shorter than the layout is an overrun before any field is
read; the record is written only when every field was read. -/
def decodeFwver (s : State) : State × Status :=
  if s.flen < Config.fwverSize then (s, .codecOverrun)
  else
    match layoutFwver s with
    | (s', some v) => ({ s' with fwv := some v }, .ok)
    | (s', none) => (s', .codecOverrun)

/-- Whether every telemetry scale is a positive integer (R118). -/
def Params.scalesLegal (p : Params) : Bool := p.scales.all fun n => decide (0 < n)

/-- `DEC_TELEM`'s effect and status (R190, R192): all sixteen fields in one update, only when every field was read. The length
test comes first; a scale parameter outside R118's domain is then refused before any field is read (DESIGN CHOICE,
assumption log 27). -/
def decodeTelem (s : State) : Except Refusal (State × Status) :=
  if s.flen < Config.telemSize then .ok (s, .codecOverrun)
  else if Params.scalesLegal s.params then
    match layoutTelem s.params s with
    | (s', some v) => .ok ({ s' with snap := some v }, .ok)
    | (s', none) => .ok (s', .codecOverrun)
  else .error .scaleDomain

/-- `DECODE`'s effect and status (R185 to R187, R191, R192). -/
def decodePayload (s : State) : Except Refusal (State × Status) :=
  match s.payload with
  | [] => .ok (s, .unknownCommand)
  | identifier :: fields =>
    let s' := s.bind fields fields.length
    if identifier = s.params.cmdFwVersion then .ok (decodeFwver s')
    else if identifier = Config.cmdTelemetry then decodeTelem s'
    else .ok (s', .unknownCommand)

/-- The end of a call whose last act is a decode: its boolean is returned (R185, R188, R190). -/
def decodeOutcome (r : Except Refusal (State × Status)) : Host.Outcome State Fault Refusal :=
  match r with
  | .error e => .refused e
  | .ok p => flagOutcome p

/-- `DECODE -> ok` (R185). -/
def execDecode (s : State) : Host.Outcome State Fault Refusal :=
  whenIdle s (decodeOutcome (decodePayload s))

/-- `DEC_FWVER -> ok` (R188). -/
def execDecFwver (s : State) : Host.Outcome State Fault Refusal :=
  whenIdle s (flagOutcome (decodeFwver s))

/-- `DEC_TELEM -> ok` (R190). -/
def execDecTelem (s : State) : Host.Outcome State Fault Refusal :=
  whenIdle s (decodeOutcome (decodeTelem s))

end Sys2Proof.Machine
end

