-- ==== Sys2Proof/Machine/Formats.lean ====
section
/-! DEFINITION. The FRAME, CMD and FIELD rows of the opcode table (30_encoding.md R83): a frame standing on the receive
line, a payload that opens with a command identifier, and one field at the cursor. What each kind of row does when the
machine takes it as an item is assumption log 2, 3 and 4. -/

namespace Sys2Proof.Machine

/-- Fields laid one after the other (R121). -/
def putFields : State → List (List Byte) → State
  | s, [] => s
  | s, bs :: rest => putFields (putField s bs).1 rest

/-- A payload laid down from its start: `CUR_RESET` on a buffer of just the payload's size, then one `PUT_*` a field
(R200). -/
def layOut (s : State) (fields : List (List Byte)) : State := putFields (s.bind [] fields.flatten.length) fields

/-- Bytes arrive at the transport (R51): they join the receive queue behind those waiting. -/
def arrive (s : State) (bs : List Byte) : Host.Outcome State Fault Refusal := .next { s with rxq := s.rxq ++ bs }

/-- FRAME-S (R61): a short frame arrives. -/
def execFrameS (payload : List Byte) (s : State) : Host.Outcome State Fault Refusal :=
  arrive s (frameShort payload)

/-- FRAME-L (R62): a long frame arrives. The reader never parses it (R153). -/
def execFrameL (payload : List Byte) (s : State) : Host.Outcome State Fault Refusal :=
  arrive s (frameLong payload)

/-- A reply payload goes through the validator in its short frame and, if it is accepted, through the command codec. -/
def replyOutcome (s : State) (payload : List Byte) : Host.Outcome State Fault Refusal :=
  match unpackFrame s (frameShort payload) (payload.length + Config.shortOverhead) with
  | (s', .ok) => decodeOutcome (decodePayload s')
  | (s', st) => flagOutcome (s', st)

/-- CMD_FW_VERSION, the reply P-FWVER (R76): decoded by `DEC_FWVER`. -/
def execCmdFwVersion (fields : List Byte) (s : State) : Host.Outcome State Fault Refusal :=
  whenIdle s (replyOutcome s (s.params.cmdFwVersion :: fields))

/-- CMD_TELEMETRY, the reply P-TELEM (R75): decoded by `DEC_TELEM`. -/
def execCmdTelemetry (fields : List Byte) (s : State) : Host.Outcome State Fault Refusal :=
  whenIdle s (replyOutcome s (Config.cmdTelemetry :: fields))

/-- A request payload is laid down, ready for `BUILD` or `SEND`. -/
def requestOutcome (s : State) (fields : List (List Byte)) : Host.Outcome State Fault Refusal :=
  .next ((layOut s fields).ret .ok .empty)

/-- A request payload of an identifier and one encoded value (R202 to R205). -/
def requestArg (s : State) (identifier : Byte) (e : Enc) (v : Value) : Host.Outcome State Fault Refusal :=
  match encodeArg s.draws e v with
  | .error r => .refused r
  | .ok bs => requestOutcome s [[identifier], bs]

/-- CMD_SET_CURRENT: the request payload of R202. -/
def execCmdSetCurrent (v : Value) (s : State) : Host.Outcome State Fault Refusal :=
  whenIdle s (requestArg s s.params.cmdSetCurrent s.params.encSetCurrent v)

/-- CMD_SET_BRAKE: the request payload of R203. -/
def execCmdSetBrake (v : Value) (s : State) : Host.Outcome State Fault Refusal :=
  whenIdle s (requestArg s s.params.cmdSetBrake s.params.encSetBrake v)

/-- CMD_SET_RPM: the request payload of R204. -/
def execCmdSetRpm (v : Value) (s : State) : Host.Outcome State Fault Refusal :=
  whenIdle s (requestArg s s.params.cmdSetRpm s.params.encSetRpm v)

/-- CMD_SET_DUTY: the request payload of R205. -/
def execCmdSetDuty (v : Value) (s : State) : Host.Outcome State Fault Refusal :=
  whenIdle s (requestArg s s.params.cmdSetDuty s.params.encSetDuty v)

/-- The fields of format P-RC (R77, R206): identifier, two axes, two buttons, six reserved bytes. -/
def rcFields (p : Params) (rc : RcState) : List (List Byte) :=
  [[p.cmdSetRc], [rc.axisX], [rc.axisY], [boolByte rc.buttonA], [boolByte rc.buttonB],
    [0x00], [0x00], [0x00], [0x00], [0x00], [0x00]]

/-- CMD_SET_RC: the request payload P-RC (R77). -/
def execCmdSetRc (s : State) : Host.Outcome State Fault Refusal :=
  whenIdle s (requestOutcome s (rcFields s.params s.rc))

/-- CMD_KEEPALIVE: the request payload of R207. -/
def execCmdKeepalive (s : State) : Host.Outcome State Fault Refusal :=
  whenIdle s (requestOutcome s [[s.params.cmdKeepalive]])

/-- CMD_FORWARD: an inner payload behind its forwarding header (R131). -/
def execCmdForward (fwd : Byte) (inner : List Byte) (s : State) : Host.Outcome State Fault Refusal :=
  whenIdle s (requestOutcome s [framed s.params fwd inner])

/-- F-SI16 (R67, R72): the field that holds `n` is laid at the cursor. -/
def execFieldSi16 (n : Half) (s : State) : Host.Outcome State Fault Refusal :=
  whenIdle s (putOutcome s (halfBytes n))

/-- F-SI32 (R68, R72). -/
def execFieldSi32 (n : Word) (s : State) : Host.Outcome State Fault Refusal :=
  whenIdle s (putOutcome s (wordBytes n))

/-- F-I32 (R69, R72). -/
def execFieldI32 (v : Word) (s : State) : Host.Outcome State Fault Refusal :=
  whenIdle s (putOutcome s (wordBytes v))

/-- F-BOOL (R70, R72). -/
def execFieldBool (b : Bool) (s : State) : Host.Outcome State Fault Refusal :=
  whenIdle s (putOutcome s [boolByte b])

/-- F-U8 (R71, R72). -/
def execFieldU8 (v : Byte) (s : State) : Host.Outcome State Fault Refusal :=
  whenIdle s (putOutcome s [v])

end Sys2Proof.Machine
end

