-- ==== Sys2Proof/Machine/Flags.lean ====
section
/-! DEFINITION. The block's flags and statuses: the marker classification `RXMK` (10_state.md R21), the classes of `RXS`
(43_frame_reader.md R146), and the numeric codes and choice of `STATUS` (60_exceptions.md R215, R216, R217). -/

namespace Sys2Proof.Machine

/-- The status codes (R215). -/
def Status.code : Status → Nat
  | .ok => 0
  | .timeout => 1
  | .structuralReject => 2
  | .integrityFailure => 3
  | .unknownCommand => 4
  | .transportUnbound => 5
  | .codecOverrun => 6

/-- The classification of the first byte (R151). -/
def Marker.ofByte (b : Byte) : Marker :=
  if b = Config.markerShort then .short else if b = Config.markerLong then .longUnsupported else .invalid

/-- A flagged marker: unsupported or invalid (R151, R160). -/
def Marker.flagged : Marker → Bool
  | .unread => false
  | .short => false
  | .longUnsupported => true
  | .invalid => true

/-- The active states (R146). -/
def RxState.active : RxState → Bool
  | .idle => false
  | .awaitLength => true
  | .awaitPayload => true
  | .done => false
  | .timedOut => false
  | .rejected => false

/-- The states in which a read has ended (R160, R161). -/
def RxState.finished : RxState → Bool
  | .idle => false
  | .awaitLength => false
  | .awaitPayload => false
  | .done => true
  | .timedOut => true
  | .rejected => true

/-- The status of a read that ended by timeout: a flagged marker turns it into a structural reject (R160, R216, R217, C7). -/
def timeoutStatus (mk : Marker) : Status := if mk.flagged then .structuralReject else .timeout

end Sys2Proof.Machine
end

