-- ==== Sys2Proof/Machine/Reader.lean ====
section
/-! DEFINITION. The frame reader (43_frame_reader.md): the start of a read, one poll, the end of a read, and the blocking
`RECEIVE` over them. -/

namespace Sys2Proof.Machine

/-- `RX_START`'s effect when a transport is bound, but for `BUSY` (R148): the registers a read starts from, and its status.
`RXBUF` is not cleared. -/
def rxBegin (s : State) : State :=
  { s with
    rxcnt := 0
    rxend := none
    rxlen := 0
    rxmk := .unread
    rxdl := s.now + s.cfgTimeoutMs
    rxs := .awaitLength
    status := .ok }

/-- Step (4) of R149: exactly one byte leaves the transport's queue and enters `RXBUF` at `RXCNT`. -/
def rxBuffer (s : State) (b : Byte) (queue : List Byte) : State :=
  { s with rxq := queue, rxbuf := Memory.write s.rxbuf s.rxcnt b, rxcnt := s.rxcnt + 1 }

/-- Step (5) of R149: the second byte classifies the marker (R151 to R154). -/
def rxClassify (s : State) : State :=
  if s.rxcnt = 2 then
    if Marker.ofByte (Memory.read s.rxbuf 0) = .short then
      { s with
        rxs := .awaitPayload
        rxmk := .short
        rxlen := Memory.read s.rxbuf 1
        rxend := some ((Memory.read s.rxbuf 1).toNat + Config.shortOverhead) }
    else { s with rxs := .awaitPayload, rxmk := Marker.ofByte (Memory.read s.rxbuf 0) }
  else s

/-- The success condition (R157). -/
def rxComplete (s : State) : Bool :=
  match s.rxend with
  | none => false
  | some e => decide (s.rxcnt = e ∧ Memory.read s.rxbuf (e - 1) = Config.terminator)

/-- Steps (6) and (7) of R149: the `Done` test, and only if it failed the buffer-full test (R155, R157). -/
def rxSettle (s : State) : State :=
  if rxComplete s then { s with rxs := .done }
  else if s.rxcnt = Config.rxCap then { s with rxs := .rejected }
  else s

/-- One poll (R149, R150): terminal state, then deadline, then byte. -/
def rxPoll (s : State) : Host.Outcome State Fault Refusal :=
  if s.rxs.active then
    if s.rxdl ≤ s.now then .next { s with rxs := .timedOut }
    else
      match s.rxq with
      | [] => .next s
      | b :: queue =>
        if s.rxcnt < Config.rxCap then .next (rxSettle (rxClassify (rxBuffer s b queue)))
        else .fault .rxbufFull
  else .next s

/-- What a read came to (R160): the state, the status and the length. -/
structure RxEnd where
  state : State
  status : Status
  length : Nat

/-- The end of a read (R160), before its call ends. -/
def rxEnding (s : State) : Host.Outcome RxEnd Fault Refusal :=
  match s.rxs with
  | .idle => .refused .resultNotReady
  | .awaitLength => .refused .resultNotReady
  | .awaitPayload => .refused .resultNotReady
  | .timedOut => .next ⟨s, timeoutStatus s.rxmk, 0⟩
  | .rejected => .next ⟨s, .structuralReject, 0⟩
  | .done =>
    match s.rxend with
    | none => .fault .rxendUnset
    | some e =>
      let r := unpackFrame s s.rxBytes e
      .next ⟨r.1, r.2, if r.2 = .ok then s.rxlen.toNat else 0⟩

/-- The end of a read as the end of its call (R160): `BUSY <- 0`, the length returned. -/
def rxReturn (s : State) : Host.Outcome State Fault Refusal :=
  match rxEnding s with
  | .next r => .next ({ r.state with call := .none }.ret r.status (.count r.length))
  | .fault f => .fault f
  | .refused f => .refused f

/-- One poll of a call that goes on until the read has ended (R161): then `finish`, else the yield of R162. -/
def pollThen (s : State) (finish : State → Host.Outcome State Fault Refusal) : Host.Outcome State Fault Refusal :=
  match rxPoll s with
  | .next s' => if s'.rxs.finished then finish s' else .next s'
  | .fault f => .fault f
  | .refused f => .refused f

/-- `RX_START` (R148, R225). A read that opens is no end of a call: the receive ends with its `RX_RESULT`, and only that adds
to the returns (R272). -/
def execRxStart (s : State) : Host.Outcome State Fault Refusal :=
  whenIdle s
    (if s.cfgBound then .next { rxBegin s with call := .stepwise, result := .empty }
    else .next (s.ret .transportUnbound (.count 0)))

/-- `RX_STEP` and `RX_RESULT` are accepted while no call is in progress and as part of the stepwise call (R256). -/
def whenStepwise (s : State) (k : Host.Outcome State Fault Refusal) : Host.Outcome State Fault Refusal :=
  match s.call with
  | .none => k
  | .stepwise => k
  | .receive => .refused .busy
  | .awaiting _ => .refused .busy

/-- `RX_STEP` (R150). It does not write `STATUS`. -/
def execRxStep (s : State) : Host.Outcome State Fault Refusal :=
  whenStepwise s (rxPoll s)

/-- `RX_RESULT -> length` (R160). -/
def execRxResult (s : State) : Host.Outcome State Fault Refusal :=
  whenStepwise s (rxReturn s)

/-- `RECEIVE -> length` (R161): the first step starts the read, every later one is a poll, and the poll that ends the read
ends the call. -/
def execReceive (s : State) : Host.Outcome State Fault Refusal :=
  match s.call with
  | .none =>
    if s.cfgBound then .next { rxBegin s with call := .receive }
    else .next (s.ret .transportUnbound (.count 0))
  | .receive => pollThen s rxReturn
  | .stepwise => .refused .busy
  | .awaiting _ => .refused .busy

end Sys2Proof.Machine
end

