-- ==== Sys2Proof/Machine/Wrappers.lean ====
section
/-! DEFINITION. The pseudo-operations (45_command_codec.md section 3): each lays its payload down and sends it; the two
queries then await a reply and decode it. -/

namespace Sys2Proof.Machine

/-- The general shape of a wrapper (R200): the payload laid down, then `SEND FBUF[0 .. CUR-1], fwd`. DESIGN CHOICE: the
whole expansion is one step and one call, with one status and one return, `SEND`'s (assumption log 25). -/
def sendFields (s : State) (fields : List (List Byte)) (fwd : Byte) : Host.Outcome State Fault Refusal :=
  sendOutcome (layOut s fields) (layOut s fields).built fwd

/-- A wrapper with an argument (R202 to R205). -/
def sendArg (s : State) (identifier : Byte) (e : Enc) (v : Value) (fwd : Byte) : Host.Outcome State Fault Refusal :=
  match encodeArg s.draws e v with
  | .error r => .refused r
  | .ok bs => sendFields s [[identifier], bs] fwd

/-- `SET_CURRENT v, fwd` (R202). -/
def execSetCurrent (v : Value) (fwd : Byte) (s : State) : Host.Outcome State Fault Refusal :=
  whenIdle s (sendArg s s.params.cmdSetCurrent s.params.encSetCurrent v fwd)

/-- `SET_BRAKE_CURRENT v, fwd` (R203). -/
def execSetBrakeCurrent (v : Value) (fwd : Byte) (s : State) : Host.Outcome State Fault Refusal :=
  whenIdle s (sendArg s s.params.cmdSetBrake s.params.encSetBrake v fwd)

/-- `SET_RPM v, fwd` (R204). -/
def execSetRpm (v : Value) (fwd : Byte) (s : State) : Host.Outcome State Fault Refusal :=
  whenIdle s (sendArg s s.params.cmdSetRpm s.params.encSetRpm v fwd)

/-- `SET_DUTY v, fwd` (R205). -/
def execSetDuty (v : Value) (fwd : Byte) (s : State) : Host.Outcome State Fault Refusal :=
  whenIdle s (sendArg s s.params.cmdSetDuty s.params.encSetDuty v fwd)

/-- `SET_RC_STATE fwd` (R206). -/
def execSetRcState (fwd : Byte) (s : State) : Host.Outcome State Fault Refusal :=
  whenIdle s (sendFields s (rcFields s.params s.rc) fwd)

/-- `KEEPALIVE fwd` (R207). -/
def execKeepalive (fwd : Byte) (s : State) : Host.Outcome State Fault Refusal :=
  whenIdle s (sendFields s [[s.params.cmdKeepalive]] fwd)

/-- What a query wrapper returns: `DECODE`'s boolean, and for telemetry reads the payload length too (R201, R208;
assumption log 18). -/
def queryResult (q : Query) (ok : Bool) (length : Nat) : Result :=
  match q with
  | .fwVersion => .flag ok
  | .values => .flagLen ok length

/-- A query wrapper's first step (R201): its request is sent, and `SEND` reports (R14); then its `RECEIVE` begins, or fails
for want of a transport and the wrapper with it (R161; assumption log 20). -/
def queryAsk (q : Query) (identifier fwd : Byte) (s : State) : Host.Outcome State Fault Refusal :=
  match sendFrame (layOut s [[identifier]]) (layOut s [[identifier]]).built fwd with
  | .error r => .refused r
  | .ok (s', st, n) =>
    if s'.cfgBound then .next { rxBegin (s'.report st (.count n)) with call := .awaiting q }
    else .next (s'.ret .transportUnbound (queryResult q false 0))

/-- A query wrapper's end: if its `RECEIVE` returned non-zero with `STATUS = Ok`, the payload is decoded (R201). -/
def queryReturn (q : Query) (s : State) : Host.Outcome State Fault Refusal :=
  match rxEnding s with
  | .fault f => .fault f
  | .refused f => .refused f
  | .next r =>
    if r.length ≠ 0 ∧ r.status = .ok then
      match decodePayload { r.state with call := .none } with
      | .error e => .refused e
      | .ok (s', st) => .next (s'.ret st (queryResult q (decide (st = .ok)) r.length))
    else .next ({ r.state with call := .none }.ret r.status (queryResult q false r.length))

/-- A query wrapper (R201, R208): its request and the start of its `RECEIVE`, then one poll a step (assumption log 20). -/
def queryStep (q : Query) (identifier fwd : Byte) (s : State) : Host.Outcome State Fault Refusal :=
  match s.call with
  | .none => queryAsk q identifier fwd s
  | .awaiting q' => if q' = q then pollThen s (queryReturn q) else .refused .busy
  | .stepwise => .refused .busy
  | .receive => .refused .busy

/-- `GET_FW_VERSION fwd` (R201). -/
def execGetFwVersion (fwd : Byte) (s : State) : Host.Outcome State Fault Refusal :=
  queryStep .fwVersion s.params.cmdFwVersion fwd s

/-- `GET_VALUES fwd` (R208). -/
def execGetValues (fwd : Byte) (s : State) : Host.Outcome State Fault Refusal :=
  queryStep .values Config.cmdTelemetry fwd s

end Sys2Proof.Machine
end

