-- ==== Sys2Proof/Machine/Dispatch.lean ====
section
/-! DEFINITION. One arm per constructor of Instr, each one direct call of its meaning. -/

namespace Sys2Proof.Machine

def exec (i : Instr) (s : State) : Host.Outcome State Fault Refusal :=
  match i with
  | .crc16 src => Sys2Proof.Machine.execCrc16 src s
  | .curReset src len => Sys2Proof.Machine.execCurReset src len s
  | .putSi16 value scale => Sys2Proof.Machine.execPutSi16 value scale s
  | .putSi32 value scale => Sys2Proof.Machine.execPutSi32 value scale s
  | .putI32 v => Sys2Proof.Machine.execPutI32 v s
  | .putBool b => Sys2Proof.Machine.execPutBool b s
  | .putU8 v => Sys2Proof.Machine.execPutU8 v s
  | .getSi16 scale => Sys2Proof.Machine.execGetSi16 scale s
  | .getSi32 scale => Sys2Proof.Machine.execGetSi32 scale s
  | .getI32 => Sys2Proof.Machine.execGetI32 s
  | .getBool => Sys2Proof.Machine.execGetBool s
  | .getU8 => Sys2Proof.Machine.execGetU8 s
  | .skip n => Sys2Proof.Machine.execSkip n s
  | .build src fwd => Sys2Proof.Machine.execBuild src fwd s
  | .send src fwd => Sys2Proof.Machine.execSend src fwd s
  | .rxStart => Sys2Proof.Machine.execRxStart s
  | .rxStep => Sys2Proof.Machine.execRxStep s
  | .rxResult => Sys2Proof.Machine.execRxResult s
  | .receive => Sys2Proof.Machine.execReceive s
  | .unpack src n => Sys2Proof.Machine.execUnpack src n s
  | .decode => Sys2Proof.Machine.execDecode s
  | .decFwver => Sys2Proof.Machine.execDecFwver s
  | .decTelem => Sys2Proof.Machine.execDecTelem s
  | .frameS payload => Sys2Proof.Machine.execFrameS payload s
  | .frameL payload => Sys2Proof.Machine.execFrameL payload s
  | .cmdFwVersion fields => Sys2Proof.Machine.execCmdFwVersion fields s
  | .cmdTelemetry fields => Sys2Proof.Machine.execCmdTelemetry fields s
  | .cmdSetCurrent v => Sys2Proof.Machine.execCmdSetCurrent v s
  | .cmdSetBrake v => Sys2Proof.Machine.execCmdSetBrake v s
  | .cmdSetRpm v => Sys2Proof.Machine.execCmdSetRpm v s
  | .cmdSetDuty v => Sys2Proof.Machine.execCmdSetDuty v s
  | .cmdSetRc => Sys2Proof.Machine.execCmdSetRc s
  | .cmdKeepalive => Sys2Proof.Machine.execCmdKeepalive s
  | .cmdForward fwd inner => Sys2Proof.Machine.execCmdForward fwd inner s
  | .fieldSi16 n => Sys2Proof.Machine.execFieldSi16 n s
  | .fieldSi32 n => Sys2Proof.Machine.execFieldSi32 n s
  | .fieldI32 v => Sys2Proof.Machine.execFieldI32 v s
  | .fieldBool b => Sys2Proof.Machine.execFieldBool b s
  | .fieldU8 v => Sys2Proof.Machine.execFieldU8 v s
  | .getFwVersion fwd => Sys2Proof.Machine.execGetFwVersion fwd s
  | .getValues fwd => Sys2Proof.Machine.execGetValues fwd s
  | .setCurrent v fwd => Sys2Proof.Machine.execSetCurrent v fwd s
  | .setBrakeCurrent v fwd => Sys2Proof.Machine.execSetBrakeCurrent v fwd s
  | .setRpm v fwd => Sys2Proof.Machine.execSetRpm v fwd s
  | .setDuty v fwd => Sys2Proof.Machine.execSetDuty v fwd s
  | .setRcState fwd => Sys2Proof.Machine.execSetRcState fwd s
  | .keepalive fwd => Sys2Proof.Machine.execKeepalive fwd s

end Sys2Proof.Machine
end

