-- ==== Sys2Proof/Machine/Step.lean ====
section
/-! DEFINITION. One step: the environment takes its turn (20_memory.md R53, 43_frame_reader.md R162), then the block does
what the item at the head of the command port says. With nothing at the port the block waits for the host's next operation
(70_reset_and_hazards.md R251). -/

namespace Sys2Proof.Machine

/-- One step of the machine. -/
def step (s : State) : Host.Outcome State Fault Refusal :=
  match s.takeInput.port with
  | [] => .next s.takeInput
  | b :: bs =>
    match decode (b :: bs) with
    | .error e => .refused (.undecodable e)
    | .ok (i, rest) => retireOutcome rest (exec i s.takeInput)

/-- `s` with an instruction of the opcode table at the head of the command port, all its further bits zero (assumption log
21). -/
def State.withFetchWord (s : State) (nbits w : Nat) : State := { s with port := tableItem nbits w }

end Sys2Proof.Machine
end

