-- ==== Sys2Proof/Safety.lean ====
section
/-! DEFINITION. What counts as a sound state of the block: the invariants of the frame reader (43_frame_reader.md R167),
the canonical form of the buffers, and which item may hold the command port. -/

namespace Sys2Proof.Machine

/-- The buffers are canonical and lie inside their address spaces (20_memory.md R57). -/
structure State.BuffersSound (s : State) : Prop where
  rxbuf_wf : Memory.wf s.rxbuf
  rxbuf_below : Memory.below s.rxbuf Config.rxCap
  paybuf_wf : Memory.wf s.paybuf
  paybuf_below : Memory.below s.paybuf Config.payCap
  fbuf_wf : Memory.wf s.fbuf
  fbuf_below : Memory.below s.fbuf s.flen

/-- What R167 says of the Frame Reader's registers, clause by clause, completed by what R167 leaves to the active states:
(a) the count's range; (b) the count in the two active states; (c) `RXEND` is set exactly when the marker is short, and
then it and `RXLEN` come from the length byte; (d) what `Done` means; (e) what `Rejected` means; and the classification is
that of the first byte as soon as two bytes are buffered (R151). -/
structure State.ReaderSound (s : State) : Prop where
  count_range : s.rxcnt ≤ Config.rxCap
  awaitLength_count : s.rxs = .awaitLength → s.rxcnt < 2
  awaitPayload_count : s.rxs = .awaitPayload → 2 ≤ s.rxcnt ∧ s.rxcnt < Config.rxCap
  end_iff_short : s.rxend.isSome = true ↔ s.rxmk = .short
  end_value : s.rxmk = .short →
    s.rxend = some ((Memory.read s.rxbuf 1).toNat + Config.shortOverhead) ∧ s.rxlen = Memory.read s.rxbuf 1
  done_means : s.rxs = .done → s.rxmk = .short ∧ Memory.read s.rxbuf 0 = Config.markerShort ∧
    s.rxend = some s.rxcnt ∧ Memory.read s.rxbuf (s.rxcnt - 1) = Config.terminator
  rejected_means : s.rxs = .rejected → s.rxcnt = Config.rxCap
  unread_iff : s.rxmk = .unread ↔ s.rxcnt < 2
  classified : 2 ≤ s.rxcnt → s.rxmk = Marker.ofByte (Memory.read s.rxbuf 0)

/-- The reader is active only inside a call that set `BUSY`, and such a call is past `Idle` (R15, R161, R256). -/
structure State.CallSound (s : State) : Prop where
  free : s.call = .none → s.rxs.active = false
  stepwise : s.call = .stepwise → s.rxs ≠ .idle
  receive : s.call = .receive → s.rxs.active = true
  awaiting : ∀ q, s.call = .awaiting q → s.rxs.active = true

/-- The machine's invariant. -/
structure State.Inv (s : State) : Prop where
  buffers : s.BuffersSound
  reader : s.ReaderSound
  call : s.CallSound

/-- The item that holds the command port while a call is in progress is the call's own (R161, R201, R256). -/
def State.PortSound (s : State) : Prop :=
  match s.call with
  | .none => True
  | .stepwise => True
  | .receive => ∃ rest, decode s.port = .ok (.receive, rest)
  | .awaiting .fwVersion => ∃ fwd rest, decode s.port = .ok (.getFwVersion fwd, rest)
  | .awaiting .values => ∃ fwd rest, decode s.port = .ok (.getValues fwd, rest)

/-- The codec accesses and their widths in bytes (41_field_codec.md R100, 20_memory.md R45), operands in their domain
(R118). -/
inductive CodecAccess : Instr → Nat → Prop where
  | putSi16 (q : Rat) (scale : Nat) : 0 < scale → CodecAccess (.putSi16 (.fin q) (.fin scale)) 2
  | putSi32 (q : Rat) (scale : Nat) : 0 < scale → CodecAccess (.putSi32 (.fin q) (.fin scale)) 4
  | putI32 (v : Word) : CodecAccess (.putI32 v) 4
  | putBool (b : Bool) : CodecAccess (.putBool b) 1
  | putU8 (v : Byte) : CodecAccess (.putU8 v) 1
  | getSi16 (scale : Nat) : 0 < scale → CodecAccess (.getSi16 (.fin scale)) 2
  | getSi32 (scale : Nat) : 0 < scale → CodecAccess (.getSi32 (.fin scale)) 4
  | getI32 : CodecAccess .getI32 4
  | getBool : CodecAccess .getBool 1
  | getU8 : CodecAccess .getU8 1

/-- The FIELD rows and the bytes each one stands for: the field that holds the given bits, big-endian (30_encoding.md R67 to
R71, 20_memory.md R40). -/
inductive FieldRow : Instr → List Byte → Prop where
  | si16 (n : Half) : FieldRow (.fieldSi16 n) [n.extractLsb' 8 8, n.extractLsb' 0 8]
  | si32 (n : Word) :
    FieldRow (.fieldSi32 n) [n.extractLsb' 24 8, n.extractLsb' 16 8, n.extractLsb' 8 8, n.extractLsb' 0 8]
  | i32 (v : Word) :
    FieldRow (.fieldI32 v) [v.extractLsb' 24 8, v.extractLsb' 16 8, v.extractLsb' 8 8, v.extractLsb' 0 8]
  | bool (b : Bool) : FieldRow (.fieldBool b) [if b then 0x01 else 0x00]
  | u8 (v : Byte) : FieldRow (.fieldU8 v) [v]

/-- `n` is the nearest integer to `v`, ties away from zero: what R103 says of `ROUND`. -/
def Rounds (v : Rat) (n : Int) : Prop :=
  |v - n| ≤ 1 / 2 ∧ (|v - n| = 1 / 2 → |v| < |(n : Rat)|)

/-- `t` is `s` after a call that laid the bytes `bs` at the cursor with status `Ok`: they stand at the cursor, every other
byte of `FBUF` and every other register is as before, and the cursor has moved on (R100, R104 to R108, R120). The return
value is left open. -/
def FieldLaid (s t : State) (bs : List Byte) : Prop :=
  t = { s with fbuf := t.fbuf, cur := s.cur + bs.length, status := .ok, result := t.result, returns := t.returns } ∧
  (∀ i (h : i < bs.length), Memory.read t.fbuf (s.cur + i) = bs[i]) ∧
  (∀ a, a < s.cur ∨ s.cur + bs.length ≤ a → Memory.read t.fbuf a = Memory.read s.fbuf a)

/-- `t` is `s` after a call that picked up `n` bytes at the cursor and returned `r` with status `Ok`: nothing but the
cursor, the status and the return value has changed (R100, R109 to R113, R120). -/
def FieldRead (s t : State) (n : Nat) (r : Result) : Prop :=
  t = { s with cur := s.cur + n, status := .ok, result := r, returns := t.returns }

/-- `t` is `s` after an access of `n` bytes that did not fit: no byte touched, no value, `CodecOverrun`, and the cursor moved
on all the same (R102). -/
def Overrun (s t : State) (n : Nat) : Prop :=
  t = { s with cur := s.cur + n, status := .codecOverrun, result := .empty, returns := t.returns }

/-- The field that the call from `s` to `t` laid down is read back as `r`: `CUR_RESET` on the bytes built so far, `SKIP` to
the place of the field, then the item `get` (R115, R116, R121). -/
def ReadsBack (s t : State) (get : Instr) (r : Result) : Prop :=
  ∃ u v w, exec (.curReset .built t.cur) t = .next u ∧ exec (.skip s.cur) u = .next v ∧ exec get v = .next w ∧ w.result = r

/-- The sixteen fields of L-TELEM in a field area that starts at offset `a` of a buffer, each from its place in the table of
R189, two's complement, big-endian, and divided by its scale where it has one. -/
def telemAt (p : Params) (m : Memory) (a : Nat) : Telemetry :=
  let i16 : Nat → Int := fun k => (BitVec.ofNat 16 (Memory.readNat m (a + k) 2)).toInt
  let i32 : Nat → Int := fun k => (BitVec.ofNat 32 (Memory.readNat m (a + k) 4)).toInt
  { tempMotor := (i16 0 : Rat) / p.scTemp
    tempController := (i16 2 : Rat) / p.scTemp
    avgMotorCurrent := (i32 4 : Rat) / p.scCurrent
    avgInputCurrent := (i32 8 : Rat) / p.scCurrent
    dutyCycle := (i16 20 : Rat) / p.scDuty
    rpm := i32 22
    inputVoltage := (i16 26 : Rat) / p.scVin
    ampHours := (i32 28 : Rat) / p.scEnergy
    ampHoursCharged := (i32 32 : Rat) / p.scEnergy
    wattHours := (i32 36 : Rat) / p.scEnergy
    wattHoursCharged := (i32 40 : Rat) / p.scEnergy
    tachometer := i32 44
    tachometerAbs := i32 48
    faultCode := Memory.read m (a + 52)
    position := (i32 53 : Rat) / p.scPos
    controllerId := Memory.read m (a + 57) }

/-- `t` is `s` with the payload `bs` laid down in `FBUF` from offset 0, nothing else there, and the call ended with `Ok`
(R200). -/
def PayloadLaid (s t : State) (bs : List Byte) : Prop :=
  t = { s with fbuf := t.fbuf, flen := bs.length, cur := bs.length, status := .ok, result := t.result,
               returns := t.returns } ∧
  Memory.readBytes t.fbuf 0 bs.length = bs

/-- The frame of a framed payload `q`, byte by byte (R61, R62, R130, R132, R133). -/
def frameBytes (q : List Byte) : List Byte :=
  (if q.length ≤ 256 then [0x02, BitVec.ofNat 8 q.length]
    else [0x03, BitVec.ofNat 8 (q.length / 256), BitVec.ofNat 8 q.length]) ++ q ++
  [(crc16 q >>> 8).setWidth 8, (crc16 q).setWidth 8, 0x03]

/-- The payload with its forwarding header, if there is one (R131). -/
def withHeader (s : State) (fwd : Byte) (payload : List Byte) : List Byte :=
  if fwd = 0 then payload else s.params.cmdForward :: fwd :: payload

/-- `t` is `s` after a call whose last act was `SEND` of the payload `bs` that it had laid down itself (R137, R138, R200):
the payload stands in `FBUF`; with a transport bound the frame is in `TXBUF`, as many of its bytes as the transport took
are on the link and their count is returned with `Ok`; with none bound nothing was sent and the status says so. -/
def PayloadSent (s t : State) (bs : List Byte) (fwd : Byte) : Prop :=
  t = { s with fbuf := t.fbuf, flen := bs.length, cur := bs.length, txbuf := t.txbuf, txlog := t.txlog, crc := t.crc,
               status := t.status, result := t.result, returns := t.returns } ∧
  Memory.readBytes t.fbuf 0 bs.length = bs ∧
  (if s.cfgBound then
    t.txbuf = frameBytes (withHeader s fwd bs) ∧
    t.txlog = s.txlog ++ t.txbuf.take (min s.accept t.txbuf.length) ∧
    t.status = .ok ∧ t.result = .count (min s.accept t.txbuf.length)
  else
    t.txbuf = s.txbuf ∧ t.txlog = s.txlog ∧ t.crc = s.crc ∧ t.status = .transportUnbound ∧ t.result = .count 0)

/-- `n` polls in a row with nothing of the environment in between (R150, R165 'back-to-back'): it stops at a fault. -/
def polls : Nat → State → Host.Outcome State Fault Refusal
  | 0, s => .next s
  | n + 1, s =>
    match rxPoll s with
    | .next s' => polls n s'
    | .fault f => .fault f
    | .refused r => .refused r

end Sys2Proof.Machine
end

