-- ==== Sys2Proof/Certificates/Slice0/Obligations.lean ====
section
/-! DEFINITION. The statements for the provers. Each docstring names the rules of spec/ it comes from. -/

open Sys2Proof Sys2Proof.Machine

/-! ### Encoding and the step -/

/-- Every well-formed item, with every operand at every value, comes back from its bytes, whatever stands behind them.
The operand encodings are the model's own (assumption log 1). -/
def Obligations.EncodedItemsDecodeBack : Prop :=
  ∀ (i : Instr) (rest : List Byte), i.wellFormed = true → decode (encode i ++ rest) = .ok (i, rest)

/-- Whatever the decoder accepts is well-formed, and it consumed at least one byte from the front. -/
def Obligations.DecodedItemsAreWellFormed : Prop :=
  ∀ (bs : List Byte) (i : Instr) (rest : List Byte), decode bs = .ok (i, rest) →
    i.wellFormed = true ∧ ∃ used, used ≠ [] ∧ bs = used ++ rest

/-- R80, U14: codes 0x17 to 0x1F select no operation, and issuing one is refused, in every state and whatever follows. -/
def Obligations.UnusedOperationCodesAreRefused : Prop :=
  ∀ (code : Byte) (rest : List Byte) (s : State), 0x17 ≤ code.toNat → code.toNat ≤ 0x1F →
    s.port = code :: rest → step s = .refused (.undecodable (.noOperation code))

/-- R80: an item of each of the table's 23 operation codes, and one of each other family, written out by hand, decodes to
the operation the table names (operand bytes and the other selectors: assumption log 1). -/
def Obligations.HandWrittenItemsDecode : Prop :=
  decode [0x00, 0x00, 0x01, 0x04] = .ok (.crc16 (.lit [0x04]), []) ∧
  decode [0x01, 0x01, 0x80, 0x02] = .ok (.curReset .built 256, []) ∧
  decode [0x02, 0x00, 0x06, 0x00, 0x00, 0x12, 0x00] = .ok (.putSi16 (.fin 3) (.fin 10), []) ∧
  decode [0x03, 0x02, 0x00, 0x12, 0x00] = .ok (.putSi32 .negInf (.fin 10), []) ∧
  decode [0x04, 0x80, 0x00, 0x00, 0x01] = .ok (.putI32 0x80000001, []) ∧
  decode [0x05, 0x01] = .ok (.putBool true, []) ∧
  decode [0x06, 0x2A] = .ok (.putU8 0x2A, []) ∧
  decode [0x07, 0x00, 0x12, 0x00] = .ok (.getSi16 (.fin 10), []) ∧
  decode [0x08, 0x03] = .ok (.getSi32 .nan, []) ∧
  decode [0x09] = .ok (.getI32, []) ∧
  decode [0x0A] = .ok (.getBool, []) ∧
  decode [0x0B] = .ok (.getU8, []) ∧
  decode [0x0C, 0x64] = .ok (.skip 100, []) ∧
  decode [0x0D, 0x03, 0x07] = .ok (.build .paybuf 0x07, []) ∧
  decode [0x0E, 0x01, 0x07] = .ok (.send .built 0x07, []) ∧
  decode [0x0F] = .ok (.rxStart, []) ∧
  decode [0x10] = .ok (.rxStep, []) ∧
  decode [0x11] = .ok (.rxResult, []) ∧
  decode [0x12] = .ok (.receive, []) ∧
  decode [0x13, 0x02, 0x06] = .ok (.unpack .rxbuf 6, []) ∧
  decode [0x14] = .ok (.decode, []) ∧
  decode [0x15] = .ok (.decFwver, []) ∧
  decode [0x16] = .ok (.decTelem, []) ∧
  decode [0x40, 0x01, 0x04] = .ok (.frameS [0x04], []) ∧
  decode [0x60, 0x02, 0x05, 0x02] = .ok (.cmdFwVersion [0x05, 0x02], []) ∧
  decode [0x80, 0x00, 0xFD] = .ok (.fieldSi16 0x00FD, []) ∧
  decode [0x21, 0x00] = .ok (.getValues 0x00, [])

/-- A step runs the decoded item, after the environment's turn; the port then moves on to the bytes behind the item,
unless the item's call has not returned (R161, R256, R272). -/
def Obligations.StepRunsTheDecodedItem : Prop :=
  ∀ (s : State) (i : Instr) (rest : List Byte), decode s.port = .ok (i, rest) →
    (∀ t, exec i s.takeInput = .next t → t.call.holdsPort = false → step s = .next { t with port := rest }) ∧
    (∀ t, exec i s.takeInput = .next t → t.call.holdsPort = true → step s = .next t) ∧
    (∀ f, exec i s.takeInput = .fault f → step s = .fault f) ∧
    (∀ r, exec i s.takeInput = .refused r → step s = .refused r)

/-- The environment's turn, when the state's script has an input (R51, R53, R236): and with nothing at the port that turn
is the whole step, since the block waits for the host's first operation (R251). The caller's record changes only between
calls (R30, R53, R273). The script is the model's choice (assumption log 8). -/
def Obligations.EnvironmentActsBetweenSteps : Prop :=
  ∀ (s : State) (e : EnvInput) (es : List EnvInput), s.env = e :: es →
    s.takeInput = { s with now := s.now + e.advance, rxq := s.rxq ++ e.arrives, accept := e.accepts,
                           rc := if s.busy then s.rc else e.rc.getD s.rc, env := es, draws := s.draws + 1 } ∧
    (s.port = [] → step s = .next s.takeInput)

/-! ### Reset and invariants -/

/-- R33, R250: what construction leaves, for every construction argument. -/
def Obligations.ConstructionLeavesTheResetValues : Prop :=
  ∀ (params : Params) (timeoutMs : Nat) (bound : Bool) (rc : RcState) (rxq txlog : List Byte) (now : Nat),
    let s := State.construct params timeoutMs bound rc rxq txlog now
    s.cfgTimeoutMs = timeoutMs ∧ s.cfgBound = bound ∧ s.status = .ok ∧ s.busy = false ∧ s.rxs = .idle ∧
    s.rxcnt = 0 ∧ s.rxend = none ∧ s.rxlen = 0 ∧ s.rxmk = .unread ∧ s.rxdl = 0 ∧ s.flen = 0 ∧ s.cur = 0 ∧
    s.crc = 0 ∧ s.paylen = 0 ∧ s.txbuf = [] ∧ s.snap = none ∧ s.fwv = none ∧ s.rc = rc ∧ s.rxq = rxq ∧ s.txlog = txlog

/-- A freshly constructed instance meets the invariant and no item holds its port; State.reset is one, and its published
parameters are a legal set (assumption log 6). -/
def Obligations.ConstructionIsSound : Prop :=
  (∀ (params : Params) (timeoutMs : Nat) (bound : Bool) (rc : RcState) (rxq txlog : List Byte) (now : Nat),
    (State.construct params timeoutMs bound rc rxq txlog now).Inv ∧
    (State.construct params timeoutMs bound rc rxq txlog now).PortSound) ∧
  State.reset.Inv ∧ State.reset.params.legal = true

/-- R167 and the canonical form of the buffers: every step keeps the invariant, from every state that has it and for every
environment. -/
def Obligations.EveryStepKeepsTheInvariant : Prop :=
  ∀ s t : State, s.Inv → step s = .next t → t.Inv

/-- R161, R201, R256: the item at the head of the port stays the call's own for as long as the call is in progress. -/
def Obligations.CallsKeepTheirPort : Prop :=
  ∀ s t : State, s.PortSound → step s = .next t → t.PortSound

/-- R46, R160, R223: from a state with the invariant no step faults: nothing is written outside `RXBUF`, and no read ends
without a length. -/
def Obligations.SoundStatesNeverFault : Prop :=
  ∀ (s : State) (f : Fault), s.Inv → step s ≠ .fault f

/-- R11, R12, R13, R30, R236: no item changes the configuration, the caller's record, the clock or the ports' own inputs. -/
def Obligations.ItemsLeaveConfigurationAndInputsAlone : Prop :=
  ∀ (i : Instr) (s t : State), exec i s = .next t →
    t.params = s.params ∧ t.cfgTimeoutMs = s.cfgTimeoutMs ∧ t.cfgBound = s.cfgBound ∧ t.rc = s.rc ∧ t.now = s.now ∧
    t.accept = s.accept ∧ t.env = s.env ∧ t.draws = s.draws ∧ t.port = s.port

/-- R50, R52, R236, R272: the clock never runs backwards, what was written to the link cannot be undone, and what a call
returned stays returned. Every item that ends a call adds its result and its status to the list of returns, and one that
leaves a call in progress, is a poll, or is no call of the host's adds nothing: the list is the model's record of R272
(assumption logs 9 and 10). -/
def Obligations.ClockAndLogsOnlyGrow : Prop :=
  (∀ s t : State, step s = .next t →
    s.now ≤ t.now ∧ (∃ sent, t.txlog = s.txlog ++ sent) ∧
    (t.returns = s.returns ∨ ∃ r, t.returns = s.returns ++ [⟨r, t.status⟩] ∧ t.result = r)) ∧
  (∀ (i : Instr) (s t : State), exec i s = .next t →
    (t.busy = false → i ≠ .rxStep → (∀ p, i ≠ .frameS p ∧ i ≠ .frameL p) →
      t.returns = s.returns ++ [⟨t.result, t.status⟩]) ∧
    ((t.busy = true ∨ i = .rxStep ∨ ∃ p, i = .frameS p ∨ i = .frameL p) → t.returns = s.returns))

/-- R28, R29, R190, R194: the records change only by an item that decodes, only with status `Ok`, and then to a record in
which every field is written; an item that writes one record leaves the other. -/
def Obligations.RecordsChangeOnlyByDecoding : Prop :=
  ∀ (i : Instr) (s t : State), exec i s = .next t → (t.snap ≠ s.snap ∨ t.fwv ≠ s.fwv) →
    ((i = .decode ∨ i = .decFwver ∨ i = .decTelem ∨ (∃ fs, i = .cmdFwVersion fs) ∨ (∃ fs, i = .cmdTelemetry fs) ∨
      (∃ fwd, i = .getFwVersion fwd) ∨ (∃ fwd, i = .getValues fwd)) ∧
    t.status = .ok ∧
    ((t.snap = s.snap ∧ ∃ v, t.fwv = some v) ∨ (t.fwv = s.fwv ∧ ∃ v, t.snap = some v)))

/-- R49, R52, R150, R157: an item takes at most one byte from the receive queue, the oldest one, and only while the reader
is active and the deadline has not passed; only an arriving frame adds any, behind those waiting. -/
def Obligations.AtMostOneByteLeavesTheQueue : Prop :=
  ∀ (i : Instr) (s t : State), exec i s = .next t →
    t.rxq = s.rxq ∨
    (∃ b, s.rxq = b :: t.rxq ∧ s.rxs.active = true ∧ s.now < s.rxdl) ∨
    (∃ p, (i = .frameS p ∨ i = .frameL p) ∧ ∃ bs, t.rxq = s.rxq ++ bs)

/-- R256, U1: while a call is in progress every other item but an arriving frame is refused. A composite call (`RECEIVE`
or a query wrapper) is continued by its own item. -/
def Obligations.BusyRefusesEveryOtherCall : Prop :=
  ∀ (i : Instr) (s : State), s.busy = true →
    (∀ p, i ≠ .frameS p ∧ i ≠ .frameL p) →
    (s.call = .stepwise → i ≠ .rxStep ∧ i ≠ .rxResult) →
    (s.call = .receive → i ≠ .receive) →
    (s.call = .awaiting .fwVersion → ∀ fwd, i ≠ .getFwVersion fwd) →
    (s.call = .awaiting .values → ∀ fwd, i ≠ .getValues fwd) →
    exec i s = .refused .busy

/-! ### The CRC engine -/

/-- R90, R91: `CRC16` of any byte source returns the CRC with status `Ok` and changes no other state but the
dead accumulator; the worked example gives 0x4084 and the catalogued check value is 0x31C3. -/
def Obligations.Crc16ReturnsTheCrc : Prop :=
  (∀ (s : State) (src : Src), s.busy = false →
    ∃ t, exec (.crc16 src) s = .next t ∧ t.result = .crc (crc16 (s.bytesOf src)) ∧
      t = { s with crc := t.crc, status := .ok, result := t.result, returns := t.returns }) ∧
  crc16 [0x04] = 0x4084 ∧
  crc16 [0x31, 0x32, 0x33, 0x34, 0x35, 0x36, 0x37, 0x38, 0x39] = 0x31C3

/-- R93 (laws the spec marks as derived): the four laws of `crc16`: the empty sequence, leading zeros, linearity, residue. -/
def Obligations.CrcLaws : Prop :=
  crc16 [] = 0x0000 ∧
  (∀ bs : List Byte, crc16 (0x00 :: bs) = crc16 bs) ∧
  (∀ n : Nat, crc16 (List.replicate n 0x00) = 0x0000) ∧
  (∀ bs cs : List Byte, bs.length = cs.length →
    crc16 (List.zipWith (· ^^^ ·) bs cs) = crc16 bs ^^^ crc16 cs) ∧
  (∀ bs : List Byte, crc16 (bs ++ [(crc16 bs >>> 8).setWidth 8, (crc16 bs).setWidth 8]) = 0x0000)

/-- R92 (a) (derived by the spec): the table form computes the same update, and the table's printed entries are those of R91. -/
def Obligations.CrcTableForm : Prop :=
  (∀ (c : Half) (b : Byte), crcByte c b = crcByte 0 ((c >>> 8).setWidth 8 ^^^ b) ^^^ (c <<< 8)) ∧
  ([0x00, 0x01, 0x02, 0x03, 0x04, 0x05, 0x06, 0x07, 0x08, 0x09, 0x0A, 0x0B, 0x0C, 0x0D, 0x0E, 0x0F].map (crcByte 0) =
    [0x0000, 0x1021, 0x2042, 0x3063, 0x4084, 0x50A5, 0x60C6, 0x70E7, 0x8108, 0x9129, 0xA14A, 0xB16B, 0xC18C, 0xD1AD,
      0xE1CE, 0xF1EF]) ∧
  crcByte 0 128 = 0x9188 ∧ crcByte 0 255 = 0x1EF0

/-- R94 (and S2; derived by the spec for payload flips): flipping any single bit in a built short frame's payload or CRC bytes makes validation fail. -/
def Obligations.SingleBitFlipsAreCaught : Prop :=
  ∀ (s : State) (payload : List Byte) (i : Nat) (k : Nat) (b : Byte), s.busy = false → Memory.wf s.paybuf →
    payload.length ≤ 255 → 2 ≤ i → i < payload.length + 4 → k < 8 → (frameBytes payload)[i]? = some b →
    ∃ t, exec (.unpack (.given (.lit ((frameBytes payload).set i (b ^^^ BitVec.ofNat 8 (2 ^ k))))) (payload.length + 5)) s =
        .next t ∧
      t.result = .flag false ∧ t.status = .integrityFailure

/-! ### Byte-sequence operands -/

/-- R46, R57, R101, R130, R185: what a byte-sequence operand is: the bytes written out, the payload built so far, one byte
for each that the cursor has passed, or the payload `UNPACK` left. What a byte of the built payload at or beyond `FLEN`
holds is open, and no statement rests on it (assumption log 23). `UNPACK` alone may be handed `RXBUF` (R17, R57), whose
bytes at or beyond `RXCNT` are open in the same way (assumption log 26). -/
def Obligations.ByteSourcesReadTheirBuffer : Prop :=
  ∀ s : State,
    (∀ bs, s.bytesOf (.lit bs) = bs) ∧
    s.bytesOf .paybuf = Memory.readBytes s.paybuf 0 s.paylen.toNat ∧
    ((s.bytesOf .built).length = s.cur ∧
      ∀ a, a < s.cur → a < s.flen → (s.bytesOf .built)[a]? = some (Memory.read s.fbuf a)) ∧
    (∀ src, s.frameOfSrc (.given src) = s.bytesOf src) ∧
    ((s.frameOfSrc .rxbuf).length = 256 ∧
      ∀ a, a < 256 → a < s.rxcnt → (s.frameOfSrc .rxbuf)[a]? = some (Memory.read s.rxbuf a))

/-! ### The field codec -/

/-- R101: `CUR_RESET` binds the buffer and its length and puts the cursor at 0. -/
def Obligations.CurResetBindsTheBuffer : Prop :=
  ∀ (s : State) (src : Src) (len : Nat), s.busy = false →
    ∃ t, exec (.curReset src len) s = .next t ∧
      t = { s with fbuf := t.fbuf, flen := len, cur := 0, status := .ok, result := t.result, returns := t.returns } ∧
      (∀ i (h : i < (s.bytesOf src).length), i < len → Memory.read t.fbuf i = (s.bytesOf src)[i])

/-- R103, R104: `PUT_SI16` lays the rounded product's low 16 bits at the cursor, high byte first, or overruns. -/
def Obligations.PutSi16LaysTheField : Prop :=
  ∀ (s : State) (q : Rat) (scale : Nat), s.busy = false → Memory.wf s.fbuf → 0 < scale →
    (s.cur + 2 ≤ s.flen →
      ∃ (n : Int) (t : State), Rounds (q * scale) n ∧ exec (.putSi16 (.fin q) (.fin scale)) s = .next t ∧
        FieldLaid s t [BitVec.ofInt 8 (n / 256), BitVec.ofInt 8 n]) ∧
    (s.flen < s.cur + 2 → ∃ t, exec (.putSi16 (.fin q) (.fin scale)) s = .next t ∧ Overrun s t 2)

/-- R103, R105: `PUT_SI32` lays the rounded product's low 32 bits at the cursor, high byte first, or overruns. -/
def Obligations.PutSi32LaysTheField : Prop :=
  ∀ (s : State) (q : Rat) (scale : Nat), s.busy = false → Memory.wf s.fbuf → 0 < scale →
    (s.cur + 4 ≤ s.flen →
      ∃ (n : Int) (t : State), Rounds (q * scale) n ∧ exec (.putSi32 (.fin q) (.fin scale)) s = .next t ∧
        FieldLaid s t
          [BitVec.ofInt 8 (n / 16777216), BitVec.ofInt 8 (n / 65536), BitVec.ofInt 8 (n / 256), BitVec.ofInt 8 n]) ∧
    (s.flen < s.cur + 4 → ∃ t, exec (.putSi32 (.fin q) (.fin scale)) s = .next t ∧ Overrun s t 4)

/-- R106, R107, R108: the unscaled encodes lay the operand's own bytes at the cursor. -/
def Obligations.UnscaledPutsLayTheField : Prop :=
  ∀ s : State, s.busy = false → Memory.wf s.fbuf →
    (∀ v : Word, s.cur + 4 ≤ s.flen → ∃ t, exec (.putI32 v) s = .next t ∧
      FieldLaid s t [v.extractLsb' 24 8, v.extractLsb' 16 8, v.extractLsb' 8 8, v.extractLsb' 0 8]) ∧
    (∀ b : Bool, s.cur + 1 ≤ s.flen → ∃ t, exec (.putBool b) s = .next t ∧ FieldLaid s t [if b then 0x01 else 0x00]) ∧
    (∀ v : Byte, s.cur + 1 ≤ s.flen → ∃ t, exec (.putU8 v) s = .next t ∧ FieldLaid s t [v])

/-- The FIELD rows lay the field that holds the given bits at the cursor, big-endian, and one that does not fit is an
overrun (R40, R67 to R71, R102). That such a row is laid down, not picked up, is the model's choice (assumption log 4). -/
def Obligations.FieldRowsLayTheField : Prop :=
  ∀ (s : State) (i : Instr) (bs : List Byte), FieldRow i bs → s.busy = false → Memory.wf s.fbuf →
    (s.cur + bs.length ≤ s.flen → ∃ t, exec i s = .next t ∧ FieldLaid s t bs) ∧
    (s.flen < s.cur + bs.length → ∃ t, exec i s = .next t ∧ Overrun s t bs.length)

/-- R102: an access that does not fit reads and writes no byte, returns no value, reports `CodecOverrun`, and moves the
cursor on all the same. -/
def Obligations.OverrunAdvancesWithoutAccess : Prop :=
  ∀ (i : Instr) (n : Nat) (s : State), CodecAccess i n → s.busy = false → s.flen < s.cur + n →
    ∃ t, exec i s = .next t ∧ Overrun s t n

/-- R109: `GET_SI16` returns the exact quotient of the signed big-endian field by the scale, or overruns. -/
def Obligations.GetSi16ReturnsTheQuotient : Prop :=
  ∀ (s : State) (scale : Nat), s.busy = false → 0 < scale →
    (s.cur + 2 ≤ s.flen →
      ∃ (n : Int) (t : State), exec (.getSi16 (.fin scale)) s = .next t ∧ FieldRead s t 2 (.value ((n : Rat) / scale)) ∧
        -32768 ≤ n ∧ n ≤ 32767 ∧
        n % 65536 = (Memory.read s.fbuf s.cur).toNat * 256 + (Memory.read s.fbuf (s.cur + 1)).toNat) ∧
    (s.flen < s.cur + 2 → ∃ t, exec (.getSi16 (.fin scale)) s = .next t ∧ Overrun s t 2)

/-- R110: `GET_SI32` returns the exact quotient of the signed big-endian field by the scale, or overruns. -/
def Obligations.GetSi32ReturnsTheQuotient : Prop :=
  ∀ (s : State) (scale : Nat), s.busy = false → 0 < scale →
    (s.cur + 4 ≤ s.flen →
      ∃ (n : Int) (t : State), exec (.getSi32 (.fin scale)) s = .next t ∧ FieldRead s t 4 (.value ((n : Rat) / scale)) ∧
        -2147483648 ≤ n ∧ n ≤ 2147483647 ∧
        n % 4294967296 = (Memory.read s.fbuf s.cur).toNat * 16777216 + (Memory.read s.fbuf (s.cur + 1)).toNat * 65536 +
          (Memory.read s.fbuf (s.cur + 2)).toNat * 256 + (Memory.read s.fbuf (s.cur + 3)).toNat) ∧
    (s.flen < s.cur + 4 → ∃ t, exec (.getSi32 (.fin scale)) s = .next t ∧ Overrun s t 4)

/-- R111, R112, R113: the unscaled decodes return the signed 32-bit field, whether the byte is non-zero, and the byte. -/
def Obligations.UnscaledGetsReturnTheField : Prop :=
  ∀ s : State, s.busy = false →
    (s.cur + 4 ≤ s.flen → ∃ (n : Int) (t : State), exec .getI32 s = .next t ∧ FieldRead s t 4 (.int32 n) ∧
      -2147483648 ≤ n ∧ n ≤ 2147483647 ∧
      n % 4294967296 = (Memory.read s.fbuf s.cur).toNat * 16777216 + (Memory.read s.fbuf (s.cur + 1)).toNat * 65536 +
        (Memory.read s.fbuf (s.cur + 2)).toNat * 256 + (Memory.read s.fbuf (s.cur + 3)).toNat) ∧
    (s.cur + 1 ≤ s.flen → ∃ t, exec .getBool s = .next t ∧
      FieldRead s t 1 (.flag (decide (Memory.read s.fbuf s.cur ≠ 0x00)))) ∧
    (s.cur + 1 ≤ s.flen → ∃ t, exec .getU8 s = .next t ∧ FieldRead s t 1 (.byte (Memory.read s.fbuf s.cur)))

/-- R114: `SKIP` only moves the cursor, with no bounds check. -/
def Obligations.SkipOnlyMovesTheCursor : Prop :=
  ∀ (s : State) (n : Nat), s.busy = false →
    ∃ t, exec (.skip n) s = .next t ∧
      t = { s with cur := s.cur + n, status := .ok, result := t.result, returns := t.returns }

/-- R118: a scale that is zero, negative or not an integer is refused, and so is a value that is not finite. That this holds
also of an access that would overrun (R102), and that the scale is looked at before the value, is the model's choice
(assumption log 27). -/
def Obligations.IllegalScalesAndValuesAreRefused : Prop :=
  ∀ (s : State) (v scale : Value), s.busy = false →
    ((∀ n : Nat, 0 < n → scale ≠ .fin n) →
      exec (.putSi16 v scale) s = .refused .scaleDomain ∧ exec (.putSi32 v scale) s = .refused .scaleDomain ∧
      exec (.getSi16 scale) s = .refused .scaleDomain ∧ exec (.getSi32 scale) s = .refused .scaleDomain) ∧
    (∀ n : Nat, 0 < n → (∀ q, v ≠ .fin q) →
      exec (.putSi16 v (.fin n)) s = .refused .valueDomain ∧ exec (.putSi32 v (.fin n)) s = .refused .valueDomain)

/-- R115 (derived by the spec): a scaled value whose rounded product fits the field comes back within half a unit of the scale. -/
def Obligations.ScaledRoundTripTolerance : Prop :=
  ∀ (s t : State) (q : Rat) (scale : Nat) (n : Int), s.busy = false → Memory.wf s.fbuf → 0 < scale →
    Rounds (q * scale) n →
    (s.cur + 2 ≤ s.flen → -32768 ≤ n → n ≤ 32767 → exec (.putSi16 (.fin q) (.fin scale)) s = .next t →
      ∃ v, ReadsBack s t (.getSi16 (.fin scale)) (.value v) ∧ |v - q| ≤ 1 / (2 * scale)) ∧
    (s.cur + 4 ≤ s.flen → -2147483648 ≤ n → n ≤ 2147483647 → exec (.putSi32 (.fin q) (.fin scale)) s = .next t →
      ∃ v, ReadsBack s t (.getSi32 (.fin scale)) (.value v) ∧ |v - q| ≤ 1 / (2 * scale))

/-- R116 (derived by the spec): integers come back exactly: an in-range multiple of `1/scale`, which is stored as that integer, a 32-bit integer,
a byte, a boolean. -/
def Obligations.IntegerRoundTrip : Prop :=
  ∀ (s t : State) (scale : Nat), s.busy = false → Memory.wf s.fbuf → 0 < scale →
    (∀ n : Int, s.cur + 2 ≤ s.flen → -32768 ≤ n → n ≤ 32767 →
      exec (.putSi16 (.fin ((n : Rat) / scale)) (.fin scale)) s = .next t →
      (Memory.readNat t.fbuf s.cur 2 : Int) = n % 65536 ∧
      ReadsBack s t (.getSi16 (.fin scale)) (.value ((n : Rat) / scale))) ∧
    (∀ n : Int, s.cur + 4 ≤ s.flen → -2147483648 ≤ n → n ≤ 2147483647 →
      exec (.putSi32 (.fin ((n : Rat) / scale)) (.fin scale)) s = .next t →
      (Memory.readNat t.fbuf s.cur 4 : Int) = n % 4294967296 ∧
      ReadsBack s t (.getSi32 (.fin scale)) (.value ((n : Rat) / scale))) ∧
    (∀ v : Word, s.cur + 4 ≤ s.flen → exec (.putI32 v) s = .next t → ReadsBack s t .getI32 (.int32 v.toInt)) ∧
    (∀ v : Byte, s.cur + 1 ≤ s.flen → exec (.putU8 v) s = .next t → ReadsBack s t .getU8 (.byte v)) ∧
    (∀ b : Bool, s.cur + 1 ≤ s.flen → exec (.putBool b) s = .next t → ReadsBack s t .getBool (.flag b))

/-! ### The frame builder -/

/-- R130, R131, R132, R133, R135: `BUILD` returns the frame of the framed payload and leaves it in `TXBUF`; above 65535
framed bytes it is refused. -/
def Obligations.BuildReturnsTheFrame : Prop :=
  ∀ (s : State) (src : Src) (fwd : Byte), s.busy = false →
    let q := withHeader s fwd (s.bytesOf src)
    (q.length ≤ 65535 →
      ∃ t, exec (.build src fwd) s = .next t ∧ t.result = .bytes (frameBytes q) ∧
        t = { s with txbuf := frameBytes q, crc := t.crc, status := .ok, result := t.result, returns := t.returns }) ∧
    (65535 < q.length → exec (.build src fwd) s = .refused .frameTooLong)

/-- R134 (derived by the spec): the length of a built frame; the smallest is the empty payload's. -/
def Obligations.BuiltFrameLengths : Prop :=
  (∀ q : List Byte, q.length ≤ 256 → (frameOf q).length = q.length + 5) ∧
  (∀ q : List Byte, 257 ≤ q.length → q.length ≤ 65535 → (frameOf q).length = q.length + 6) ∧
  (∀ (s : State) (fwd : Byte) (payload : List Byte), fwd ≠ 0 →
    (framed s.params fwd payload).length = payload.length + 2) ∧
  frameOf [] = [0x02, 0x00, 0x00, 0x00, 0x03]

/-- R139 (derived by the spec): a built frame opens with 2 or 3 and ends with 3; a short one carries its length and its payload in place, its
payload and CRC together have CRC 0, and no two framed payloads share a frame; a forwarded frame is the unforwarded frame
of the payload with its header. -/
def Obligations.BuiltFrameProperties : Prop :=
  (∀ q : List Byte, ((frameOf q).head? = some 0x02 ∨ (frameOf q).head? = some 0x03) ∧ (frameOf q).getLast? = some 0x03) ∧
  (∀ q : List Byte, q.length ≤ 255 →
    (frameOf q)[1]? = some (BitVec.ofNat 8 q.length) ∧ ((frameOf q).drop 2).take q.length = q ∧
    crc16 (((frameOf q).drop 2).take (q.length + 2)) = 0x0000) ∧
  (∀ q r : List Byte, q.length ≤ 255 → r.length ≤ 255 → frameOf q = frameOf r → q = r) ∧
  (∀ (p : Params) (fwd : Byte) (payload : List Byte), fwd ≠ 0 →
    frameOf (framed p fwd payload) = frameOf (framed p 0 ([p.cmdForward, fwd] ++ payload)))

/-- R137, R138, R220: `SEND` writes the frame and returns the transport's count; with no transport bound it returns 0 with
`TransportUnbound` and changes nothing else, whatever it was handed; above 65535 framed bytes it is refused. -/
def Obligations.SendWritesTheFrame : Prop :=
  ∀ (s : State) (src : Src) (fwd : Byte), s.busy = false →
    let q := withHeader s fwd (s.bytesOf src)
    (s.cfgBound = true → q.length ≤ 65535 →
      ∃ t, exec (.send src fwd) s = .next t ∧
        t.txbuf = frameBytes q ∧
        t.txlog = s.txlog ++ t.txbuf.take (min s.accept t.txbuf.length) ∧
        t.result = .count (min s.accept t.txbuf.length) ∧
        t = { s with txbuf := t.txbuf, txlog := t.txlog, crc := t.crc, status := .ok, result := t.result,
                     returns := t.returns }) ∧
    (s.cfgBound = true → 65535 < q.length → exec (.send src fwd) s = .refused .frameTooLong) ∧
    (s.cfgBound = false →
      ∃ t, exec (.send src fwd) s = .next t ∧
        t = { s with status := .transportUnbound, result := .count 0, returns := t.returns })

/-! ### The frame reader -/

/-- R148: `RX_START` opens a read, or fails for want of a transport with every reader register unchanged, or is refused
while a call is in progress. Opening a read is no end of a call: the list of returns is as before (R272). -/
def Obligations.RxStartOpensARead : Prop :=
  ∀ s : State,
    (s.busy = true → exec .rxStart s = .refused .busy) ∧
    (s.busy = false → s.cfgBound = true →
      ∃ t, exec .rxStart s = .next t ∧ t.busy = true ∧
        t = { s with call := .stepwise, rxcnt := 0, rxend := none, rxlen := 0, rxmk := .unread,
                     rxdl := s.now + s.cfgTimeoutMs, rxs := .awaitLength, status := .ok, result := t.result }) ∧
    (s.busy = false → s.cfgBound = false →
      ∃ t, exec .rxStart s = .next t ∧ t = { s with status := .transportUnbound, result := .count 0, returns := t.returns })

/-- R146, R149, R150: one poll: a terminal state is left alone; then the deadline is tested; then an empty queue is a
yield; then exactly one byte is read and buffered, the second byte classifies the marker, and the `Done` test comes
before the buffer-full test. -/
def Obligations.RxStepTransitions : Prop :=
  ∀ s : State, (s.call = .none ∨ s.call = .stepwise) → Memory.wf s.rxbuf →
    (s.rxs ≠ .awaitLength → s.rxs ≠ .awaitPayload → exec .rxStep s = .next s) ∧
    ((s.rxs = .awaitLength ∨ s.rxs = .awaitPayload) → s.rxdl ≤ s.now →
      exec .rxStep s = .next { s with rxs := .timedOut }) ∧
    ((s.rxs = .awaitLength ∨ s.rxs = .awaitPayload) → s.now < s.rxdl → s.rxq = [] → exec .rxStep s = .next s) ∧
    (∀ b queue, (s.rxs = .awaitLength ∨ s.rxs = .awaitPayload) → s.now < s.rxdl → s.rxq = b :: queue → s.rxcnt < 256 →
      ∃ t, exec .rxStep s = .next t ∧
        t = { s with rxq := queue, rxcnt := s.rxcnt + 1, rxbuf := t.rxbuf, rxs := t.rxs, rxmk := t.rxmk,
                     rxend := t.rxend, rxlen := t.rxlen } ∧
        Memory.read t.rxbuf s.rxcnt = b ∧ (∀ a, a ≠ s.rxcnt → Memory.read t.rxbuf a = Memory.read s.rxbuf a) ∧
        (s.rxcnt ≠ 1 → t.rxmk = s.rxmk ∧ t.rxend = s.rxend ∧ t.rxlen = s.rxlen) ∧
        (s.rxcnt = 1 → Memory.read s.rxbuf 0 = 0x02 →
          t.rxmk = .short ∧ t.rxlen = b ∧ t.rxend = some (b.toNat + 5)) ∧
        (s.rxcnt = 1 → Memory.read s.rxbuf 0 = 0x03 →
          t.rxmk = .longUnsupported ∧ t.rxlen = s.rxlen ∧ t.rxend = s.rxend) ∧
        (s.rxcnt = 1 → Memory.read s.rxbuf 0 ≠ 0x02 → Memory.read s.rxbuf 0 ≠ 0x03 →
          t.rxmk = .invalid ∧ t.rxlen = s.rxlen ∧ t.rxend = s.rxend) ∧
        (t.rxs = if t.rxend = some (s.rxcnt + 1) ∧ b = 0x03 then .done
          else if s.rxcnt + 1 = 256 then .rejected
          else if s.rxcnt = 1 then .awaitPayload
          else s.rxs))

/-- R159: `TimedOut` is entered only by a poll that finds the deadline elapsed, and that poll reads nothing. -/
def Obligations.TimeoutOnlyAtTheDeadline : Prop :=
  ∀ (i : Instr) (s t : State), exec i s = .next t → s.rxs ≠ .timedOut → t.rxs = .timedOut →
    s.rxdl ≤ s.now ∧ t.rxq = s.rxq ∧ t.rxbuf = s.rxbuf ∧ t.rxcnt = s.rxcnt

/-- R153, R154: once the marker is flagged the read goes on but never completes, the flag stays, and the call's status is
`StructuralReject` with nothing copied, whichever way it ended. -/
def Obligations.FlaggedReadsNeverComplete : Prop :=
  ∀ s t : State, s.Inv → (s.rxmk = .longUnsupported ∨ s.rxmk = .invalid) →
    (exec .rxStep s = .next t → t.rxmk = s.rxmk ∧ t.rxend = none ∧ t.rxs ≠ .done) ∧
    ((s.call = .none ∨ s.call = .stepwise) → (s.rxs = .timedOut ∨ s.rxs = .rejected) →
      ∃ u, exec .rxResult s = .next u ∧ u.status = .structuralReject ∧ u.result = .count 0 ∧ u.paybuf = s.paybuf ∧
        u.paylen = s.paylen)

/-- R158 (and S5; derived by the spec): once as many bytes as the frame has are buffered without the terminator in its place, no number of
polls completes the read. -/
def Obligations.WrongTerminatorNeverCompletes : Prop :=
  ∀ (n : Nat) (s t : State) (e : Nat), s.Inv → s.rxs = .awaitPayload → s.rxend = some e → e ≤ s.rxcnt →
    polls n s = .next t → t.rxs ≠ .done ∧ t.rxend = some e ∧ e ≤ t.rxcnt

/-- R165 (and S4; derived by the spec): what one poll makes of a byte depends neither on what stands behind the byte in the queue nor on the
time, as long as the deadline has not passed; a poll that finds no byte changes nothing. -/
def Obligations.DeliveryGroupingDoesNotMatter : Prop :=
  ∀ (s t : State) (b : Byte) (now' : Nat) (more : List Byte), s.now < s.rxdl → now' < s.rxdl →
    (rxPoll { s with rxq := [b] } = .next t → s.rxs.active = true →
      rxPoll { s with now := now', rxq := b :: more } = .next { t with now := now', rxq := more }) ∧
    rxPoll { s with rxq := [] } = .next { s with rxq := [] }

/-- R160: the end of a read: on `Done` the validator decides, on `TimedOut` the marker does, `Rejected` is a structural
reject; the call is over. In `Idle` and the active states it is refused. -/
def Obligations.RxResultEndsTheCall : Prop :=
  ∀ s : State, s.Inv → (s.call = .none ∨ s.call = .stepwise) →
    ((s.rxs = .idle ∨ s.rxs = .awaitLength ∨ s.rxs = .awaitPayload) → exec .rxResult s = .refused .resultNotReady) ∧
    (s.rxs = .timedOut → ∃ t, exec .rxResult s = .next t ∧
      t = { s with call := .none, result := .count 0, returns := t.returns,
                   status := if s.rxmk = .longUnsupported ∨ s.rxmk = .invalid then .structuralReject else .timeout }) ∧
    (s.rxs = .rejected → ∃ t, exec .rxResult s = .next t ∧
      t = { s with call := .none, result := .count 0, returns := t.returns, status := .structuralReject }) ∧
    (s.rxs = .done → ∃ t, exec .rxResult s = .next t ∧
      t = { s with call := .none, result := t.result, returns := t.returns, status := t.status, paybuf := t.paybuf,
                   paylen := s.rxlen, crc := t.crc } ∧
      Memory.readBytes t.paybuf 0 s.rxlen.toNat = Memory.readBytes s.rxbuf 2 s.rxlen.toNat ∧
      (∀ a, s.rxlen.toNat ≤ a → Memory.read t.paybuf a = Memory.read s.paybuf a) ∧
      (if (crc16 (Memory.readBytes s.rxbuf 2 s.rxlen.toNat)).toNat =
          (Memory.read s.rxbuf (s.rxcnt - 3)).toNat * 256 + (Memory.read s.rxbuf (s.rxcnt - 2)).toNat
        then t.status = .ok ∧ t.result = .count s.rxlen.toNat
        else t.status = .integrityFailure ∧ t.result = .count 0))

/-- R157, R160, R161: `RECEIVE` is `RX_START` with its status (R14, R148), then one `RX_STEP` a step until the read has
ended, then `RX_RESULT` in the same step; with no transport bound it fails at once. The poll that takes the frame's last
byte ends the call with the payload's length, or with 0 where the CRC differs. How the parts fall into steps is the model's choice
(assumption log 20). -/
def Obligations.ReceiveIsStartPollsResult : Prop :=
  ∀ s : State,
    (s.call = .none → s.cfgBound = false →
      ∃ t, exec .receive s = .next t ∧ t = { s with status := .transportUnbound, result := .count 0, returns := t.returns }) ∧
    (s.call = .none → s.cfgBound = true →
      ∃ t, exec .receive s = .next t ∧ t.busy = true ∧
        t = { s with call := .receive, rxcnt := 0, rxend := none, rxlen := 0, rxmk := .unread,
                     rxdl := s.now + s.cfgTimeoutMs, rxs := .awaitLength, status := .ok }) ∧
    (∀ u, s.call = .receive → exec .rxStep { s with call := .stepwise } = .next u →
      (u.rxs.finished = false → exec .receive s = .next { u with call := .receive }) ∧
      (u.rxs.finished = true → exec .receive s = exec .rxResult u)) ∧
    (∀ queue : List Byte, s.Inv → s.call = .receive → s.rxs = .awaitPayload → s.now < s.rxdl → s.rxq = 0x03 :: queue →
      s.rxend = some (s.rxcnt + 1) →
      ∃ t, exec .receive s = .next t ∧ t.busy = false ∧ t.rxs = .done ∧ t.rxq = queue ∧
        t.payload = Memory.readBytes s.rxbuf 2 s.rxlen.toNat ∧ t.snap = s.snap ∧ t.fwv = s.fwv ∧
        (if (crc16 (Memory.readBytes s.rxbuf 2 s.rxlen.toNat)).toNat =
            (Memory.read s.rxbuf (s.rxcnt - 2)).toNat * 256 + (Memory.read s.rxbuf (s.rxcnt - 1)).toNat
          then t.status = .ok ∧ t.result = .count s.rxlen.toNat
          else t.status = .integrityFailure ∧ t.result = .count 0))

/-- R136, R157, R163, R178 (a) and VU's round trip: a read started with a built frame of at most 251 payload bytes at the
head of the queue completes in exactly as many polls as the frame has bytes, leaves what stands behind the frame in the
queue, and its result is the payload's length with the payload in `PAYBUF`. -/
def Obligations.ReaderRecoversABuiltFrame : Prop :=
  ∀ (s s' : State) (payload rest : List Byte), s.Inv → s.busy = false → 0 < s.cfgTimeoutMs → payload.length ≤ 251 →
    s.rxq = frameBytes payload ++ rest → exec .rxStart s = .next s' → s.cfgBound = true →
    ∃ t u, polls (payload.length + 5) s' = .next t ∧ t.rxs = .done ∧ t.rxq = rest ∧
      exec .rxResult t = .next u ∧ u.status = .ok ∧ u.result = .count payload.length ∧ u.busy = false ∧ u.rxq = rest ∧
      u.paylen.toNat = payload.length ∧ Memory.readBytes u.paybuf 0 payload.length = payload

/-! ### The payload validator -/

/-- R175, R176, R177: structure first, then copy, then the comparison: what `UNPACK` leaves on every path. -/
def Obligations.UnpackChecksThenCopiesThenCompares : Prop :=
  ∀ (s : State) (src : FrameSrc) (n : Nat), s.busy = false → Memory.wf s.paybuf →
    let frame := s.frameOfSrc src
    (¬ (frame[0]? = some 0x02 ∧ frame[1]?.map (fun len => len.toNat + 5) = some n ∧ n ≤ frame.length) →
      ∃ t, exec (.unpack src n) s = .next t ∧
        t = { s with status := .structuralReject, result := .flag false, returns := t.returns }) ∧
    (∀ len : Byte, frame[0]? = some 0x02 → frame[1]? = some len → n = len.toNat + 5 → n ≤ frame.length →
      ∃ t, exec (.unpack src n) s = .next t ∧
        t = { s with paybuf := t.paybuf, paylen := len, crc := t.crc, status := t.status, result := t.result,
                     returns := t.returns } ∧
        Memory.readBytes t.paybuf 0 len.toNat = (frame.drop 2).take len.toNat ∧
        (∀ a, len.toNat ≤ a → Memory.read t.paybuf a = Memory.read s.paybuf a) ∧
        (if some (crc16 ((frame.drop 2).take len.toNat)).toNat =
            (frame[n - 3]?.bind fun hi => frame[n - 2]?.map fun lo => hi.toNat * 256 + lo.toNat)
          then t.status = .ok ∧ t.result = .flag true
          else t.status = .integrityFailure ∧ t.result = .flag false))

/-- R178 (a), (b): the validator accepts the frame that the builder returned, up to 255 framed bytes, and recovers the framed
payload, header included. -/
def Obligations.UnpackInvertsBuild : Prop :=
  ∀ (s t : State) (src : Src) (fwd : Byte), s.busy = false → Memory.wf s.paybuf →
    (withHeader s fwd (s.bytesOf src)).length ≤ 255 → exec (.build src fwd) s = .next t →
    ∃ (frame : List Byte) (u : State), t.result = .bytes frame ∧
      exec (.unpack (.given (.lit frame)) ((withHeader s fwd (s.bytesOf src)).length + 5)) t = .next u ∧ u.status = .ok ∧
      u.result = .flag true ∧ u.payload = withHeader s fwd (s.bytesOf src) ∧ u.snap = s.snap ∧ u.fwv = s.fwv

/-! ### The command codec -/

/-- R185, R186, R187, R191, R192: `DECODE` dispatches on the first payload byte, with the codec bound to the rest; an empty
payload and an identifier without a decoder fail with `UnknownCommand` and leave the records alone. -/
def Obligations.DecodeDispatchesOnTheIdentifier : Prop :=
  ∀ s : State, s.busy = false →
    (s.payload = [] → ∃ t, exec .decode s = .next t ∧
      t = { s with status := .unknownCommand, result := .flag false, returns := t.returns }) ∧
    (∀ identifier fields, s.payload = identifier :: fields → identifier ≠ s.params.cmdFwVersion → identifier ≠ 0x04 →
      ∃ t, exec .decode s = .next t ∧
        t = { s with fbuf := t.fbuf, flen := fields.length, cur := 0, status := .unknownCommand, result := .flag false,
                     returns := t.returns } ∧
        Memory.readBytes t.fbuf 0 fields.length = fields) ∧
    (∀ identifier fields, s.payload = identifier :: fields → identifier = s.params.cmdFwVersion →
      exec .decode s = exec .decFwver { s with fbuf := Memory.ofBytes fields, flen := fields.length, cur := 0 }) ∧
    (∀ identifier fields, s.payload = identifier :: fields → identifier ≠ s.params.cmdFwVersion → identifier = 0x04 →
      exec .decode s = exec .decTelem { s with fbuf := Memory.ofBytes fields, flen := fields.length, cur := 0 })

/-- R28, R29, R185 to R190: `DECODE` of a payload that opens with a known identifier and holds the layout whole fills that
record from the payload's bytes and returns true with `Ok`. -/
def Obligations.DecodeFillsTheRecord : Prop :=
  ∀ s : State, s.busy = false → s.params.legal = true →
    (∀ major minor tail, s.payload = s.params.cmdFwVersion :: major :: minor :: tail →
      ∃ t, exec .decode s = .next t ∧
        t = { s with fbuf := t.fbuf, flen := tail.length + 2, cur := 2, fwv := some ⟨major, minor⟩, status := .ok,
                     result := .flag true, returns := t.returns }) ∧
    (∀ fields, s.payload = 0x04 :: fields → 58 ≤ fields.length →
      ∃ t, exec .decode s = .next t ∧
        t = { s with fbuf := t.fbuf, flen := fields.length, cur := 58, snap := some (telemAt s.params s.paybuf 1),
                     status := .ok, result := .flag true, returns := t.returns })

/-- R188, R192, R193: `DEC_FWVER` from the start (`CUR = 0`, as R188 has it; assumption log 15 says what it does elsewhere)
of a field area of two bytes or more fills the version record; a shorter
one is an overrun with nothing decoded. -/
def Obligations.DecFwverFillsTheRecord : Prop :=
  ∀ s : State, s.busy = false → s.cur = 0 →
    (2 ≤ s.flen → ∃ t, exec .decFwver s = .next t ∧
      t = { s with cur := 2, fwv := some ⟨Memory.read s.fbuf 0, Memory.read s.fbuf 1⟩, status := .ok,
                   result := .flag true, returns := t.returns }) ∧
    (s.flen < 2 → ∃ t, exec .decFwver s = .next t ∧
      t = { s with status := .codecOverrun, result := .flag false, returns := t.returns })

/-- R189, R190, R192, R193: `DEC_TELEM` from the start (`CUR = 0`, as R190 has it; assumption log 15 says what it does
elsewhere) of a field area of 58 bytes or more fills all sixteen fields of the
snapshot from their places in L-TELEM; a shorter one is an overrun with nothing decoded. -/
def Obligations.DecTelemFillsTheSnapshot : Prop :=
  ∀ s : State, s.busy = false → s.cur = 0 → s.params.legal = true →
    (58 ≤ s.flen → ∃ t, exec .decTelem s = .next t ∧
      t = { s with cur := 58, snap := some (telemAt s.params s.fbuf 0), status := .ok, result := .flag true,
                   returns := t.returns }) ∧
    (s.flen < 58 → ∃ t, exec .decTelem s = .next t ∧
      t = { s with status := .codecOverrun, result := .flag false, returns := t.returns })

/-! ### The format rows and the wrappers -/

/-- R61, R62: the bytes of the two frame formats. That a FRAME row stands for such a frame arriving at the transport, behind
the bytes already waiting, is the model's choice (assumption log 2). -/
def Obligations.FrameRowsArriveByteByByte : Prop :=
  (∀ (s : State) (payload : List Byte), payload.length ≤ 255 →
    exec (.frameS payload) s = .next { s with rxq := s.rxq ++
      ([0x02, BitVec.ofNat 8 payload.length] ++ payload ++
        [(crc16 payload >>> 8).setWidth 8, (crc16 payload).setWidth 8, 0x03]) }) ∧
  (∀ (s : State) (payload : List Byte), payload.length ≤ 65535 →
    exec (.frameL payload) s = .next { s with rxq := s.rxq ++
      ([0x03, BitVec.ofNat 8 (payload.length / 256), BitVec.ofNat 8 payload.length] ++ payload ++
        [(crc16 payload >>> 8).setWidth 8, (crc16 payload).setWidth 8, 0x03]) })

/-- R75, R76, R175, R185: a reply payload of at least the layout's size is accepted by the validator and decoded into its
record. That a reply CMD row goes through both is the model's choice (assumption log 3). -/
def Obligations.ReplyRowsFillTheirRecord : Prop :=
  ∀ (s : State) (fields : List Byte), s.busy = false → Memory.wf s.paybuf → s.params.legal = true →
    fields.length ≤ 254 →
    (∀ major minor tail, fields = major :: minor :: tail →
      ∃ t, exec (.cmdFwVersion fields) s = .next t ∧ t.fwv = some ⟨major, minor⟩ ∧ t.status = .ok ∧
        t.result = .flag true ∧ t.payload = s.params.cmdFwVersion :: fields ∧
        t = { s with paybuf := t.paybuf, paylen := t.paylen, crc := t.crc, fbuf := t.fbuf, flen := fields.length, cur := 2,
                     fwv := t.fwv, status := t.status, result := t.result, returns := t.returns }) ∧
    (58 ≤ fields.length →
      ∃ t, exec (.cmdTelemetry fields) s = .next t ∧ t.snap = some (telemAt s.params t.paybuf 1) ∧ t.status = .ok ∧
        t.result = .flag true ∧ t.payload = 0x04 :: fields ∧
        t = { s with paybuf := t.paybuf, paylen := t.paylen, crc := t.crc, fbuf := t.fbuf, flen := fields.length, cur := 58,
                     snap := t.snap, status := t.status, result := t.result, returns := t.returns })

/-- R77, R131, R202 to R207: the payload each request CMD row lays down. That such a row lays its payload in `FBUF` is the
model's choice (assumption log 3). -/
def Obligations.RequestRowsLayTheirPayload : Prop :=
  ∀ s : State, s.busy = false →
    (∀ v bs, encodeArg s.draws s.params.encSetCurrent v = .ok bs →
      ∃ t, exec (.cmdSetCurrent v) s = .next t ∧ PayloadLaid s t (s.params.cmdSetCurrent :: bs)) ∧
    (∀ v bs, encodeArg s.draws s.params.encSetBrake v = .ok bs →
      ∃ t, exec (.cmdSetBrake v) s = .next t ∧ PayloadLaid s t (s.params.cmdSetBrake :: bs)) ∧
    (∀ v bs, encodeArg s.draws s.params.encSetRpm v = .ok bs →
      ∃ t, exec (.cmdSetRpm v) s = .next t ∧ PayloadLaid s t (s.params.cmdSetRpm :: bs)) ∧
    (∀ v bs, encodeArg s.draws s.params.encSetDuty v = .ok bs →
      ∃ t, exec (.cmdSetDuty v) s = .next t ∧ PayloadLaid s t (s.params.cmdSetDuty :: bs)) ∧
    (∃ t, exec .cmdSetRc s = .next t ∧
      PayloadLaid s t [s.params.cmdSetRc, s.rc.axisX, s.rc.axisY, if s.rc.buttonA then 0x01 else 0x00,
        if s.rc.buttonB then 0x01 else 0x00, 0x00, 0x00, 0x00, 0x00, 0x00, 0x00]) ∧
    (∃ t, exec .cmdKeepalive s = .next t ∧ PayloadLaid s t [s.params.cmdKeepalive]) ∧
    (∀ fwd inner, ∃ t, exec (.cmdForward fwd inner) s = .next t ∧ PayloadLaid s t (withHeader s fwd inner))

/-- R200, R202 to R207: each wrapper that awaits no reply sends its payload, forwarded or not. That the expansion is one step
with one status and one return is the model's choice (assumption log 25). -/
def Obligations.WrappersSendTheirPayload : Prop :=
  ∀ (s : State) (fwd : Byte), s.busy = false →
    (∀ v bs, encodeArg s.draws s.params.encSetCurrent v = .ok bs →
      ∃ t, exec (.setCurrent v fwd) s = .next t ∧ PayloadSent s t (s.params.cmdSetCurrent :: bs) fwd) ∧
    (∀ v bs, encodeArg s.draws s.params.encSetBrake v = .ok bs →
      ∃ t, exec (.setBrakeCurrent v fwd) s = .next t ∧ PayloadSent s t (s.params.cmdSetBrake :: bs) fwd) ∧
    (∀ v bs, encodeArg s.draws s.params.encSetRpm v = .ok bs →
      ∃ t, exec (.setRpm v fwd) s = .next t ∧ PayloadSent s t (s.params.cmdSetRpm :: bs) fwd) ∧
    (∀ v bs, encodeArg s.draws s.params.encSetDuty v = .ok bs →
      ∃ t, exec (.setDuty v fwd) s = .next t ∧ PayloadSent s t (s.params.cmdSetDuty :: bs) fwd) ∧
    (∃ t, exec (.setRcState fwd) s = .next t ∧
      PayloadSent s t [s.params.cmdSetRc, s.rc.axisX, s.rc.axisY, if s.rc.buttonA then 0x01 else 0x00,
        if s.rc.buttonB then 0x01 else 0x00, 0x00, 0x00, 0x00, 0x00, 0x00, 0x00] fwd) ∧
    (∃ t, exec (.keepalive fwd) s = .next t ∧ PayloadSent s t [s.params.cmdKeepalive] fwd)

/-- R118, R200, R202: the bytes a wrapper's argument takes in each of the four encoding forms are those the matching
`PUT_*` lays. Every finite number has some: four, and one that is 00 or 01, in the raw and the boolean form, also where it
is no operand of that form; which bytes those are is then open, and no statement rests on it (DESIGN CHOICE, assumption log
19). A value that is not finite is refused, and so is a scale of 0; and the wrappers with an argument and their request rows
(assumption log 3) are then refused in the same way. -/
def Obligations.WrapperArgumentsFollowTheirForm : Prop :=
  (∀ (s t : State) (q : Rat) (scale : Nat), s.busy = false → Memory.wf s.fbuf → 0 < scale → s.cur + 4 ≤ s.flen →
    (exec (.putSi16 (.fin q) (.fin scale)) s = .next t →
      encodeArg s.draws (.si16 scale) (.fin q) = .ok (Memory.readBytes t.fbuf s.cur 2)) ∧
    (exec (.putSi32 (.fin q) (.fin scale)) s = .next t →
      encodeArg s.draws (.si32 scale) (.fin q) = .ok (Memory.readBytes t.fbuf s.cur 4)) ∧
    (∀ v : Word, exec (.putI32 v) s = .next t →
      encodeArg s.draws .i32 (.fin v.toInt) = .ok (Memory.readBytes t.fbuf s.cur 4)) ∧
    (∀ b : Bool, exec (.putBool b) s = .next t →
      encodeArg s.draws .bool (.fin (if b then 1 else 0)) = .ok (Memory.readBytes t.fbuf s.cur 1))) ∧
  (∀ (draw : Nat) (q : Rat),
    (∃ bs, encodeArg draw .i32 (.fin q) = .ok bs ∧ bs.length = 4) ∧
    (encodeArg draw .bool (.fin q) = .ok [0x00] ∨ encodeArg draw .bool (.fin q) = .ok [0x01]) ∧
    encodeArg draw (.si16 0) (.fin q) = .error .scaleDomain ∧ encodeArg draw (.si32 0) (.fin q) = .error .scaleDomain) ∧
  (∀ (draw : Nat) (e : Enc) (v : Value), (∀ r, v ≠ .fin r) → encodeArg draw e v = .error .valueDomain) ∧
  (∀ (s : State) (v : Value) (fwd : Byte) (r : Refusal), s.busy = false →
    (encodeArg s.draws s.params.encSetCurrent v = .error r →
      exec (.setCurrent v fwd) s = .refused r ∧ exec (.cmdSetCurrent v) s = .refused r) ∧
    (encodeArg s.draws s.params.encSetBrake v = .error r →
      exec (.setBrakeCurrent v fwd) s = .refused r ∧ exec (.cmdSetBrake v) s = .refused r) ∧
    (encodeArg s.draws s.params.encSetRpm v = .error r →
      exec (.setRpm v fwd) s = .refused r ∧ exec (.cmdSetRpm v) s = .refused r) ∧
    (encodeArg s.draws s.params.encSetDuty v = .error r →
      exec (.setDuty v fwd) s = .refused r ∧ exec (.cmdSetDuty v) s = .refused r))

/-- R200, R201, R208: the two query wrappers: the request is laid down and sent, and a `RECEIVE` begins, which needs a
transport; then each step is one poll, and when the read has ended the payload is decoded if `RECEIVE` returned non-zero
with `Ok` and `DECODE`'s status is the wrapper's; otherwise the wrapper fails with the receive's status. How the parts fall
into steps is the model's choice (assumption log 20), and so is the value returned (assumption log 18). -/
def Obligations.QueriesSendReceiveDecode : Prop :=
  ∀ (s : State) (q : Query) (fwd : Byte),
    let i : Instr := match q with | .fwVersion => .getFwVersion fwd | .values => .getValues fwd
    let identifier : Byte := match q with | .fwVersion => s.params.cmdFwVersion | .values => 0x04
    (s.call = .none → s.cfgBound = true →
      ∃ t, exec i s = .next t ∧
        t = { s with fbuf := t.fbuf, flen := 1, cur := 1, txbuf := frameBytes (withHeader s fwd [identifier]),
                     txlog := t.txlog, crc := t.crc, status := .ok, result := .count (min s.accept t.txbuf.length),
                     call := .awaiting q, rxcnt := 0, rxend := none, rxlen := 0, rxmk := .unread,
                     rxdl := s.now + s.cfgTimeoutMs, rxs := .awaitLength } ∧
        Memory.read t.fbuf 0 = identifier ∧
        t.txlog = s.txlog ++ t.txbuf.take (min s.accept t.txbuf.length)) ∧
    (s.call = .none → s.cfgBound = false →
      ∃ t, exec i s = .next t ∧
        t = { s with fbuf := t.fbuf, flen := 1, cur := 1, status := .transportUnbound, result := queryResult q false 0,
                     returns := t.returns } ∧
        Memory.read t.fbuf 0 = identifier) ∧
    (∀ u, s.call = .awaiting q → exec .rxStep { s with call := .stepwise } = .next u →
      (u.rxs.finished = false → exec i s = .next { u with call := .awaiting q }) ∧
      (∀ v n, u.rxs.finished = true → exec .rxResult u = .next v → v.result = .count n →
        ((n = 0 ∨ v.status ≠ .ok) →
          ∃ t, exec i s = .next t ∧ t = { v with result := queryResult q false n, returns := t.returns }) ∧
        (∀ w ok, n ≠ 0 → v.status = .ok → exec .decode v = .next w → w.result = .flag ok →
          ∃ t, exec i s = .next t ∧ t = { w with result := queryResult q ok n, returns := t.returns })))

/-- R157, R160, R201, R208: the poll that completes a query's reply ends the query: the reply is validated, its payload is
decoded into the wrapper's record, and the call returns true with `Ok`. That this is all one step is the model's choice
(assumption log 20), and so is the pair that `GET_VALUES` returns (assumption log 18). -/
def Obligations.QueryEndsWithItsReply : Prop :=
  ∀ (s : State) (fwd : Byte) (queue : List Byte), s.Inv → s.params.legal = true → s.rxs = .awaitPayload →
    s.now < s.rxdl → s.rxq = 0x03 :: queue → s.rxend = some (s.rxcnt + 1) →
    (crc16 (Memory.readBytes s.rxbuf 2 s.rxlen.toNat)).toNat =
      (Memory.read s.rxbuf (s.rxcnt - 2)).toNat * 256 + (Memory.read s.rxbuf (s.rxcnt - 1)).toNat →
    (s.call = .awaiting .fwVersion → Memory.read s.rxbuf 2 = s.params.cmdFwVersion → 3 ≤ s.rxlen.toNat →
      ∃ t, exec (.getFwVersion fwd) s = .next t ∧ t.busy = false ∧ t.rxq = queue ∧ t.status = .ok ∧
        t.result = .flag true ∧ t.fwv = some ⟨Memory.read s.rxbuf 3, Memory.read s.rxbuf 4⟩ ∧ t.snap = s.snap) ∧
    (s.call = .awaiting .values → Memory.read s.rxbuf 2 = 0x04 → 59 ≤ s.rxlen.toNat →
      ∃ t, exec (.getValues fwd) s = .next t ∧ t.busy = false ∧ t.rxq = queue ∧ t.status = .ok ∧
        t.result = .flagLen true s.rxlen.toNat ∧ t.snap = some (telemAt s.params s.rxbuf 3) ∧ t.fwv = s.fwv)
end

