-- ==== Sys2Proof/Laws/Memory.lean ====
section
/-! SUPPORT. The laws of the byte buffers: a read after a write, and the canonical form under every operation. -/

namespace Sys2Proof.Machine

@[simp] theorem beBytes_length (n v : Nat) : (beBytes n v).length = n := by
  induction n generalizing v with
  | zero => rfl
  | succ n ih => simp [beBytes, ih]

/-- What `MemWrite` lays down, `MemRead` picks up again (R40). -/
theorem beNat_beBytes (n v : Nat) : beNat (beBytes n v) = v % 256 ^ n := by
  induction n with
  | zero => simp [beBytes, beNat, Nat.mod_one]
  | succ n ih =>
    have h := Nat.mod_mul (x := v) (a := 256 ^ n) (b := 256)
    simp only [beBytes, beNat, beBytes_length, ih, BitVec.toNat_ofNat, pow_succ, h]
    norm_num
    ring

theorem beNat_lt (bs : List Byte) : beNat bs < 256 ^ bs.length := by
  induction bs with
  | nil => simp [beNat]
  | cons b bs ih =>
    have hb : b.toNat < 256 := b.isLt
    simp only [beNat, List.length_cons, pow_succ]
    nlinarith [Nat.mul_le_mul_right (256 ^ bs.length) (Nat.lt_succ_iff.mp hb)]

/-- The bytes of the number a byte sequence holds are that sequence (R40). -/
theorem beBytes_beNat (bs : List Byte) : beBytes bs.length (beNat bs) = bs := by
  induction bs with
  | nil => rfl
  | cons b bs ih =>
    have hlt := beNat_lt bs
    have hpos : 0 < 256 ^ bs.length := by positivity
    have hdiv : (b.toNat * 256 ^ bs.length + beNat bs) / 256 ^ bs.length = b.toNat := by
      rw [Nat.add_comm, Nat.add_mul_div_right _ _ hpos, Nat.div_eq_of_lt hlt, Nat.zero_add]
    have hlow : ∀ n k m, n ≤ bs.length → beBytes n (k * 256 ^ bs.length + m) = beBytes n m := by
      intro n
      induction n with
      | zero => intros; rfl
      | succ n ihn =>
        intro k m hn
        simp only [beBytes]
        rw [ihn k m (by omega)]
        congr 1
        obtain ⟨j, hj⟩ := Nat.exists_eq_add_of_le hn
        apply BitVec.eq_of_toNat_eq
        have hp : k * 256 ^ bs.length = (k * 256 ^ j * 256) * 256 ^ n := by
          rw [hj, pow_add, pow_succ]; ring
        rw [hp, Nat.add_comm, Nat.add_mul_div_right _ _ (by positivity)]
        simp [Nat.add_mod]
    simp only [List.length_cons, beBytes, beNat, hdiv]
    rw [hlow _ _ _ (le_refl _), ih]
    simp

@[simp] theorem Memory.read_nil (a : Nat) : Memory.read [] a = unlistedByte := rfl

theorem Memory.read_of_lt (m : Memory) (a : Nat) (h : ∀ c ∈ m, a < c.1) : Memory.read m a = unlistedByte := by
  induction m with
  | nil => rfl
  | cons c m ih =>
    obtain ⟨k, v⟩ := c
    have hk : a < k := h (k, v) (by simp)
    simp only [Memory.read]
    rw [if_neg (by omega)]
    exact ih fun c hc => h c (List.mem_cons_of_mem _ hc)

/-- A read of the byte just written. -/
@[simp] theorem Memory.read_write_self (m : Memory) (hm : Memory.wf m) (a : Nat) (v : Byte) :
    Memory.read (Memory.write m a v) a = v := by
  induction m with
  | nil => by_cases h : v = unlistedByte <;> simp [Memory.write, Memory.read, h]
  | cons c m ih =>
    obtain ⟨k, w⟩ := c
    obtain ⟨hp, hz⟩ := hm
    rw [List.pairwise_cons] at hp
    have hlt : k = a → Memory.read m a = unlistedByte :=
      fun h => Memory.read_of_lt m a fun c hc => h ▸ hp.1 c hc
    have hlt' : a < k → Memory.read m a = unlistedByte :=
      fun h => Memory.read_of_lt m a fun c hc => lt_trans h (hp.1 c hc)
    simp only [Memory.write]
    split
    · rename_i h
      simp only [Memory.read]
      rw [if_neg (by omega)]
      exact ih ⟨hp.2, fun c hc => hz c (List.mem_cons_of_mem _ hc)⟩
    · split
      · rename_i h1 h2
        split
        · rename_i h3; rw [h3]; exact hlt h2
        · simp [Memory.read]
      · rename_i h1 h2
        split
        · rename_i h3
          simp only [Memory.read]
          rw [if_neg h2, h3]
          exact hlt' (by omega)
        · simp [Memory.read]

/-- A write leaves every other byte alone. -/
theorem Memory.read_write_other (m : Memory) (a b : Nat) (v : Byte) (h : b ≠ a) :
    Memory.read (Memory.write m a v) b = Memory.read m b := by
  induction m with
  | nil => by_cases hv : v = unlistedByte <;> simp [Memory.write, Memory.read, hv, Ne.symm h]
  | cons c m ih =>
    obtain ⟨k, w⟩ := c
    simp only [Memory.write]
    split
    · simp only [Memory.read, ih]
    · split
      · rename_i h1 h2
        split
        · simp [Memory.read, h2, Ne.symm h]
        · simp [Memory.read, h2, Ne.symm h]
      · split
        · rfl
        · simp [Memory.read, Ne.symm h]

/-- Every entry of a written buffer is the new one or an old one. -/
theorem Memory.mem_write (m : Memory) (a : Nat) (v : Byte) (c : Host.Cell) (h : c ∈ Memory.write m a v) :
    (c = (a, v) ∧ v ≠ unlistedByte) ∨ c ∈ m := by
  induction m with
  | nil =>
    by_cases hv : v = unlistedByte
    · simp [Memory.write, hv] at h
    · simp [Memory.write, hv] at h; exact .inl ⟨h, hv⟩
  | cons d m ih =>
    obtain ⟨k, w⟩ := d
    simp only [Memory.write] at h
    split at h
    · rcases List.mem_cons.mp h with h | h
      · exact .inr (by simp [h])
      · rcases ih h with h | h
        · exact .inl h
        · exact .inr (List.mem_cons_of_mem _ h)
    · split at h
      · split at h
        · exact .inr (List.mem_cons_of_mem _ h)
        · rename_i hv
          rcases List.mem_cons.mp h with h | h
          · exact .inl ⟨h, hv⟩
          · exact .inr (List.mem_cons_of_mem _ h)
      · split at h
        · exact .inr h
        · rename_i hv
          rcases List.mem_cons.mp h with h | h
          · exact .inl ⟨h, hv⟩
          · exact .inr h

/-- A write keeps the canonical form. -/
theorem Memory.wf_write (m : Memory) (hm : Memory.wf m) (a : Nat) (v : Byte) : Memory.wf (Memory.write m a v) := by
  refine ⟨?_, fun c hc => ?_⟩
  · obtain ⟨hp, -⟩ := hm
    induction m with
    | nil => by_cases hv : v = unlistedByte <;> simp [Memory.write, hv]
    | cons d m ih =>
      obtain ⟨k, w⟩ := d
      rw [List.pairwise_cons] at hp
      simp only [Memory.write]
      split
      · rename_i hk
        refine List.pairwise_cons.mpr ⟨fun c hc => ?_, ih hp.2⟩
        rcases Memory.mem_write m a v c hc with ⟨rfl, -⟩ | h
        · exact hk
        · exact hp.1 c h
      · split
        · rename_i h1 h2
          split
          · exact hp.2
          · exact List.pairwise_cons.mpr ⟨fun c hc => h2 ▸ hp.1 c hc, hp.2⟩
        · rename_i h1 h2
          split
          · exact List.pairwise_cons.mpr hp
          · refine List.pairwise_cons.mpr ⟨fun c hc => ?_, List.pairwise_cons.mpr hp⟩
            rcases List.mem_cons.mp hc with rfl | h
            · show a < k; omega
            · have := hp.1 c h
              show a < c.1; simp only at this; omega
  · rcases Memory.mem_write m a v c hc with ⟨rfl, h⟩ | h
    · exact h
    · exact hm.2 c h

/-- A write below a bound keeps the buffer below it. -/
theorem Memory.below_write (m : Memory) (n a : Nat) (v : Byte) (hm : Memory.below m n) (ha : a < n) :
    Memory.below (Memory.write m a v) n := by
  intro c hc
  rcases Memory.mem_write m a v c hc with ⟨rfl, -⟩ | h
  · exact ha
  · exact hm c h

theorem Memory.wf_nil : Memory.wf [] := by simp [Memory.wf]

theorem Memory.below_nil (n : Nat) : Memory.below [] n := by simp [Memory.below]

theorem Memory.wf_writeBytes (m : Memory) (hm : Memory.wf m) (a : Nat) (bs : List Byte) :
    Memory.wf (Memory.writeBytes m a bs) := by
  induction bs generalizing m a with
  | nil => exact hm
  | cons b bs ih => exact ih _ (Memory.wf_write m hm a b) _

theorem Memory.below_writeBytes (m : Memory) (n a : Nat) (bs : List Byte) (hm : Memory.below m n)
    (ha : a + bs.length ≤ n) : Memory.below (Memory.writeBytes m a bs) n := by
  induction bs generalizing m a with
  | nil => exact hm
  | cons b bs ih =>
    simp only [List.length_cons] at ha
    exact ih _ _ (Memory.below_write m n a b hm (by omega)) (by omega)

theorem Memory.wf_ofBytes (bs : List Byte) : Memory.wf (Memory.ofBytes bs) :=
  Memory.wf_writeBytes [] Memory.wf_nil 0 bs

theorem Memory.below_ofBytes (bs : List Byte) (n : Nat) (h : bs.length ≤ n) : Memory.below (Memory.ofBytes bs) n :=
  Memory.below_writeBytes [] n 0 bs (Memory.below_nil n) (by omega)

/-- Bytes outside the written range are left alone. -/
theorem Memory.read_writeBytes_outside (m : Memory) (a b : Nat) (bs : List Byte) (h : b < a ∨ a + bs.length ≤ b) :
    Memory.read (Memory.writeBytes m a bs) b = Memory.read m b := by
  induction bs generalizing m a with
  | nil => rfl
  | cons v bs ih =>
    simp only [List.length_cons] at h
    simp only [Memory.writeBytes]
    rw [ih _ _ (by omega), Memory.read_write_other _ _ _ _ (by omega)]

/-- Bytes inside the written range are the ones written. -/
theorem Memory.read_writeBytes_inside (m : Memory) (hm : Memory.wf m) (a i : Nat) (bs : List Byte) (h : i < bs.length) :
    Memory.read (Memory.writeBytes m a bs) (a + i) = bs[i] := by
  induction bs generalizing m a i with
  | nil => simp at h
  | cons v bs ih =>
    simp only [Memory.writeBytes]
    cases i with
    | zero =>
      rw [Memory.read_writeBytes_outside _ _ _ _ (by omega)]
      simp [Memory.read_write_self m hm]
    | succ i =>
      have := ih (Memory.write m a v) (Memory.wf_write m hm a v) (a + 1) i (by simpa using h)
      rw [show a + (i + 1) = a + 1 + i by omega, this]
      simp

@[simp] theorem Memory.readBytes_length (m : Memory) (a n : Nat) : (Memory.readBytes m a n).length = n := by
  induction n generalizing a with
  | zero => rfl
  | succ n ih => simp [Memory.readBytes, ih]

@[simp] theorem Memory.getElem_readBytes (m : Memory) (a n i : Nat) (h : i < (Memory.readBytes m a n).length) :
    (Memory.readBytes m a n)[i] = Memory.read m (a + i) := by
  induction n generalizing a i with
  | zero => simp at h
  | succ n ih =>
    cases i with
    | zero => rfl
    | succ i =>
      simp only [Memory.readBytes, List.getElem_cons_succ]
      rw [ih]
      congr 1
      omega

/-- Two sequences of reads agree where the bytes do. -/
theorem Memory.readBytes_congr (m m' : Memory) (a n : Nat)
    (h : ∀ i, i < n → Memory.read m (a + i) = Memory.read m' (a + i)) :
    Memory.readBytes m a n = Memory.readBytes m' a n :=
  List.ext_getElem (by simp) fun i h1 h2 => by simpa using h i (by simpa using h1)

/-- What was written is what is read back. -/
@[simp] theorem Memory.readBytes_writeBytes (m : Memory) (hm : Memory.wf m) (a : Nat) (bs : List Byte) :
    Memory.readBytes (Memory.writeBytes m a bs) a bs.length = bs :=
  List.ext_getElem (by simp) fun i h1 h2 => by
    rw [Memory.getElem_readBytes, Memory.read_writeBytes_inside m hm a i bs h2]

/-- A stretch of reads outside the written range is left alone. -/
theorem Memory.readBytes_writeBytes_outside (m : Memory) (a b n : Nat) (bs : List Byte)
    (h : b + n ≤ a ∨ a + bs.length ≤ b) :
    Memory.readBytes (Memory.writeBytes m a bs) b n = Memory.readBytes m b n :=
  Memory.readBytes_congr _ _ _ _ fun i hi => Memory.read_writeBytes_outside _ _ _ _ (by omega)

theorem Memory.readBytes_append (m : Memory) (a n k : Nat) :
    Memory.readBytes m a (n + k) = Memory.readBytes m a n ++ Memory.readBytes m (a + n) k := by
  induction n generalizing a with
  | zero => simp [Memory.readBytes]
  | succ n ih =>
    rw [show n + 1 + k = (n + k) + 1 by omega]
    simp only [Memory.readBytes, ih, List.cons_append]
    rw [show a + 1 + n = a + (n + 1) by omega]

@[simp] theorem Memory.readBytes_ofBytes (bs : List Byte) : Memory.readBytes (Memory.ofBytes bs) 0 bs.length = bs :=
  Memory.readBytes_writeBytes [] Memory.wf_nil 0 bs

/-- The buffers right after reset are canonical: nothing is listed. -/
theorem State.reset_wf : Memory.wf State.reset.rxbuf ∧ Memory.wf State.reset.paybuf ∧ Memory.wf State.reset.fbuf :=
  ⟨Memory.wf_nil, Memory.wf_nil, Memory.wf_nil⟩

end Sys2Proof.Machine
end

