-- ==== Sys2Proof/Laws/State.lean ====
section
/-! SUPPORT. One lemma per field per update of the state, so that no later proof unfolds a record update. -/

namespace Sys2Proof.Machine

@[simp] theorem State.report_params (s : State) (st : Status) (r : Result) : (s.report st r).params = s.params := rfl
@[simp] theorem State.report_cfgTimeoutMs (s : State) (st : Status) (r : Result) : (s.report st r).cfgTimeoutMs = s.cfgTimeoutMs := rfl
@[simp] theorem State.report_cfgBound (s : State) (st : Status) (r : Result) : (s.report st r).cfgBound = s.cfgBound := rfl
@[simp] theorem State.report_status (s : State) (st : Status) (r : Result) : (s.report st r).status = st := rfl
@[simp] theorem State.report_result (s : State) (st : Status) (r : Result) : (s.report st r).result = r := rfl
@[simp] theorem State.report_returns (s : State) (st : Status) (r : Result) : (s.report st r).returns = s.returns := rfl
@[simp] theorem State.report_call (s : State) (st : Status) (r : Result) : (s.report st r).call = s.call := rfl
@[simp] theorem State.report_rxs (s : State) (st : Status) (r : Result) : (s.report st r).rxs = s.rxs := rfl
@[simp] theorem State.report_rxbuf (s : State) (st : Status) (r : Result) : (s.report st r).rxbuf = s.rxbuf := rfl
@[simp] theorem State.report_rxcnt (s : State) (st : Status) (r : Result) : (s.report st r).rxcnt = s.rxcnt := rfl
@[simp] theorem State.report_rxend (s : State) (st : Status) (r : Result) : (s.report st r).rxend = s.rxend := rfl
@[simp] theorem State.report_rxlen (s : State) (st : Status) (r : Result) : (s.report st r).rxlen = s.rxlen := rfl
@[simp] theorem State.report_rxmk (s : State) (st : Status) (r : Result) : (s.report st r).rxmk = s.rxmk := rfl
@[simp] theorem State.report_rxdl (s : State) (st : Status) (r : Result) : (s.report st r).rxdl = s.rxdl := rfl
@[simp] theorem State.report_fbuf (s : State) (st : Status) (r : Result) : (s.report st r).fbuf = s.fbuf := rfl
@[simp] theorem State.report_flen (s : State) (st : Status) (r : Result) : (s.report st r).flen = s.flen := rfl
@[simp] theorem State.report_cur (s : State) (st : Status) (r : Result) : (s.report st r).cur = s.cur := rfl
@[simp] theorem State.report_crc (s : State) (st : Status) (r : Result) : (s.report st r).crc = s.crc := rfl
@[simp] theorem State.report_paybuf (s : State) (st : Status) (r : Result) : (s.report st r).paybuf = s.paybuf := rfl
@[simp] theorem State.report_paylen (s : State) (st : Status) (r : Result) : (s.report st r).paylen = s.paylen := rfl
@[simp] theorem State.report_txbuf (s : State) (st : Status) (r : Result) : (s.report st r).txbuf = s.txbuf := rfl
@[simp] theorem State.report_snap (s : State) (st : Status) (r : Result) : (s.report st r).snap = s.snap := rfl
@[simp] theorem State.report_fwv (s : State) (st : Status) (r : Result) : (s.report st r).fwv = s.fwv := rfl
@[simp] theorem State.report_rc (s : State) (st : Status) (r : Result) : (s.report st r).rc = s.rc := rfl
@[simp] theorem State.report_rxq (s : State) (st : Status) (r : Result) : (s.report st r).rxq = s.rxq := rfl
@[simp] theorem State.report_txlog (s : State) (st : Status) (r : Result) : (s.report st r).txlog = s.txlog := rfl
@[simp] theorem State.report_now (s : State) (st : Status) (r : Result) : (s.report st r).now = s.now := rfl
@[simp] theorem State.report_accept (s : State) (st : Status) (r : Result) : (s.report st r).accept = s.accept := rfl
@[simp] theorem State.report_env (s : State) (st : Status) (r : Result) : (s.report st r).env = s.env := rfl
@[simp] theorem State.report_draws (s : State) (st : Status) (r : Result) : (s.report st r).draws = s.draws := rfl
@[simp] theorem State.report_port (s : State) (st : Status) (r : Result) : (s.report st r).port = s.port := rfl

@[simp] theorem State.ret_params (s : State) (st : Status) (r : Result) : (s.ret st r).params = s.params := rfl
@[simp] theorem State.ret_cfgTimeoutMs (s : State) (st : Status) (r : Result) : (s.ret st r).cfgTimeoutMs = s.cfgTimeoutMs := rfl
@[simp] theorem State.ret_cfgBound (s : State) (st : Status) (r : Result) : (s.ret st r).cfgBound = s.cfgBound := rfl
@[simp] theorem State.ret_status (s : State) (st : Status) (r : Result) : (s.ret st r).status = st := rfl
@[simp] theorem State.ret_result (s : State) (st : Status) (r : Result) : (s.ret st r).result = r := rfl
@[simp] theorem State.ret_returns (s : State) (st : Status) (r : Result) : (s.ret st r).returns = s.returns ++ [⟨r, st⟩] := rfl
@[simp] theorem State.ret_call (s : State) (st : Status) (r : Result) : (s.ret st r).call = s.call := rfl
@[simp] theorem State.ret_rxs (s : State) (st : Status) (r : Result) : (s.ret st r).rxs = s.rxs := rfl
@[simp] theorem State.ret_rxbuf (s : State) (st : Status) (r : Result) : (s.ret st r).rxbuf = s.rxbuf := rfl
@[simp] theorem State.ret_rxcnt (s : State) (st : Status) (r : Result) : (s.ret st r).rxcnt = s.rxcnt := rfl
@[simp] theorem State.ret_rxend (s : State) (st : Status) (r : Result) : (s.ret st r).rxend = s.rxend := rfl
@[simp] theorem State.ret_rxlen (s : State) (st : Status) (r : Result) : (s.ret st r).rxlen = s.rxlen := rfl
@[simp] theorem State.ret_rxmk (s : State) (st : Status) (r : Result) : (s.ret st r).rxmk = s.rxmk := rfl
@[simp] theorem State.ret_rxdl (s : State) (st : Status) (r : Result) : (s.ret st r).rxdl = s.rxdl := rfl
@[simp] theorem State.ret_fbuf (s : State) (st : Status) (r : Result) : (s.ret st r).fbuf = s.fbuf := rfl
@[simp] theorem State.ret_flen (s : State) (st : Status) (r : Result) : (s.ret st r).flen = s.flen := rfl
@[simp] theorem State.ret_cur (s : State) (st : Status) (r : Result) : (s.ret st r).cur = s.cur := rfl
@[simp] theorem State.ret_crc (s : State) (st : Status) (r : Result) : (s.ret st r).crc = s.crc := rfl
@[simp] theorem State.ret_paybuf (s : State) (st : Status) (r : Result) : (s.ret st r).paybuf = s.paybuf := rfl
@[simp] theorem State.ret_paylen (s : State) (st : Status) (r : Result) : (s.ret st r).paylen = s.paylen := rfl
@[simp] theorem State.ret_txbuf (s : State) (st : Status) (r : Result) : (s.ret st r).txbuf = s.txbuf := rfl
@[simp] theorem State.ret_snap (s : State) (st : Status) (r : Result) : (s.ret st r).snap = s.snap := rfl
@[simp] theorem State.ret_fwv (s : State) (st : Status) (r : Result) : (s.ret st r).fwv = s.fwv := rfl
@[simp] theorem State.ret_rc (s : State) (st : Status) (r : Result) : (s.ret st r).rc = s.rc := rfl
@[simp] theorem State.ret_rxq (s : State) (st : Status) (r : Result) : (s.ret st r).rxq = s.rxq := rfl
@[simp] theorem State.ret_txlog (s : State) (st : Status) (r : Result) : (s.ret st r).txlog = s.txlog := rfl
@[simp] theorem State.ret_now (s : State) (st : Status) (r : Result) : (s.ret st r).now = s.now := rfl
@[simp] theorem State.ret_accept (s : State) (st : Status) (r : Result) : (s.ret st r).accept = s.accept := rfl
@[simp] theorem State.ret_env (s : State) (st : Status) (r : Result) : (s.ret st r).env = s.env := rfl
@[simp] theorem State.ret_draws (s : State) (st : Status) (r : Result) : (s.ret st r).draws = s.draws := rfl
@[simp] theorem State.ret_port (s : State) (st : Status) (r : Result) : (s.ret st r).port = s.port := rfl

@[simp] theorem State.transmit_params (s : State) (bs : List Byte) : (s.transmit bs).params = s.params := rfl
@[simp] theorem State.transmit_cfgTimeoutMs (s : State) (bs : List Byte) : (s.transmit bs).cfgTimeoutMs = s.cfgTimeoutMs := rfl
@[simp] theorem State.transmit_cfgBound (s : State) (bs : List Byte) : (s.transmit bs).cfgBound = s.cfgBound := rfl
@[simp] theorem State.transmit_status (s : State) (bs : List Byte) : (s.transmit bs).status = s.status := rfl
@[simp] theorem State.transmit_result (s : State) (bs : List Byte) : (s.transmit bs).result = s.result := rfl
@[simp] theorem State.transmit_returns (s : State) (bs : List Byte) : (s.transmit bs).returns = s.returns := rfl
@[simp] theorem State.transmit_call (s : State) (bs : List Byte) : (s.transmit bs).call = s.call := rfl
@[simp] theorem State.transmit_rxs (s : State) (bs : List Byte) : (s.transmit bs).rxs = s.rxs := rfl
@[simp] theorem State.transmit_rxbuf (s : State) (bs : List Byte) : (s.transmit bs).rxbuf = s.rxbuf := rfl
@[simp] theorem State.transmit_rxcnt (s : State) (bs : List Byte) : (s.transmit bs).rxcnt = s.rxcnt := rfl
@[simp] theorem State.transmit_rxend (s : State) (bs : List Byte) : (s.transmit bs).rxend = s.rxend := rfl
@[simp] theorem State.transmit_rxlen (s : State) (bs : List Byte) : (s.transmit bs).rxlen = s.rxlen := rfl
@[simp] theorem State.transmit_rxmk (s : State) (bs : List Byte) : (s.transmit bs).rxmk = s.rxmk := rfl
@[simp] theorem State.transmit_rxdl (s : State) (bs : List Byte) : (s.transmit bs).rxdl = s.rxdl := rfl
@[simp] theorem State.transmit_fbuf (s : State) (bs : List Byte) : (s.transmit bs).fbuf = s.fbuf := rfl
@[simp] theorem State.transmit_flen (s : State) (bs : List Byte) : (s.transmit bs).flen = s.flen := rfl
@[simp] theorem State.transmit_cur (s : State) (bs : List Byte) : (s.transmit bs).cur = s.cur := rfl
@[simp] theorem State.transmit_crc (s : State) (bs : List Byte) : (s.transmit bs).crc = s.crc := rfl
@[simp] theorem State.transmit_paybuf (s : State) (bs : List Byte) : (s.transmit bs).paybuf = s.paybuf := rfl
@[simp] theorem State.transmit_paylen (s : State) (bs : List Byte) : (s.transmit bs).paylen = s.paylen := rfl
@[simp] theorem State.transmit_txbuf (s : State) (bs : List Byte) : (s.transmit bs).txbuf = s.txbuf := rfl
@[simp] theorem State.transmit_snap (s : State) (bs : List Byte) : (s.transmit bs).snap = s.snap := rfl
@[simp] theorem State.transmit_fwv (s : State) (bs : List Byte) : (s.transmit bs).fwv = s.fwv := rfl
@[simp] theorem State.transmit_rc (s : State) (bs : List Byte) : (s.transmit bs).rc = s.rc := rfl
@[simp] theorem State.transmit_rxq (s : State) (bs : List Byte) : (s.transmit bs).rxq = s.rxq := rfl
@[simp] theorem State.transmit_txlog (s : State) (bs : List Byte) : (s.transmit bs).txlog = s.txlog ++ bs.take (s.writeCount bs) := rfl
@[simp] theorem State.transmit_now (s : State) (bs : List Byte) : (s.transmit bs).now = s.now := rfl
@[simp] theorem State.transmit_accept (s : State) (bs : List Byte) : (s.transmit bs).accept = s.accept := rfl
@[simp] theorem State.transmit_env (s : State) (bs : List Byte) : (s.transmit bs).env = s.env := rfl
@[simp] theorem State.transmit_draws (s : State) (bs : List Byte) : (s.transmit bs).draws = s.draws := rfl
@[simp] theorem State.transmit_port (s : State) (bs : List Byte) : (s.transmit bs).port = s.port := rfl

@[simp] theorem State.applyInput_params (s : State) (e : EnvInput) : (s.applyInput e).params = s.params := rfl
@[simp] theorem State.applyInput_cfgTimeoutMs (s : State) (e : EnvInput) : (s.applyInput e).cfgTimeoutMs = s.cfgTimeoutMs := rfl
@[simp] theorem State.applyInput_cfgBound (s : State) (e : EnvInput) : (s.applyInput e).cfgBound = s.cfgBound := rfl
@[simp] theorem State.applyInput_status (s : State) (e : EnvInput) : (s.applyInput e).status = s.status := rfl
@[simp] theorem State.applyInput_result (s : State) (e : EnvInput) : (s.applyInput e).result = s.result := rfl
@[simp] theorem State.applyInput_returns (s : State) (e : EnvInput) : (s.applyInput e).returns = s.returns := rfl
@[simp] theorem State.applyInput_call (s : State) (e : EnvInput) : (s.applyInput e).call = s.call := rfl
@[simp] theorem State.applyInput_rxs (s : State) (e : EnvInput) : (s.applyInput e).rxs = s.rxs := rfl
@[simp] theorem State.applyInput_rxbuf (s : State) (e : EnvInput) : (s.applyInput e).rxbuf = s.rxbuf := rfl
@[simp] theorem State.applyInput_rxcnt (s : State) (e : EnvInput) : (s.applyInput e).rxcnt = s.rxcnt := rfl
@[simp] theorem State.applyInput_rxend (s : State) (e : EnvInput) : (s.applyInput e).rxend = s.rxend := rfl
@[simp] theorem State.applyInput_rxlen (s : State) (e : EnvInput) : (s.applyInput e).rxlen = s.rxlen := rfl
@[simp] theorem State.applyInput_rxmk (s : State) (e : EnvInput) : (s.applyInput e).rxmk = s.rxmk := rfl
@[simp] theorem State.applyInput_rxdl (s : State) (e : EnvInput) : (s.applyInput e).rxdl = s.rxdl := rfl
@[simp] theorem State.applyInput_fbuf (s : State) (e : EnvInput) : (s.applyInput e).fbuf = s.fbuf := rfl
@[simp] theorem State.applyInput_flen (s : State) (e : EnvInput) : (s.applyInput e).flen = s.flen := rfl
@[simp] theorem State.applyInput_cur (s : State) (e : EnvInput) : (s.applyInput e).cur = s.cur := rfl
@[simp] theorem State.applyInput_crc (s : State) (e : EnvInput) : (s.applyInput e).crc = s.crc := rfl
@[simp] theorem State.applyInput_paybuf (s : State) (e : EnvInput) : (s.applyInput e).paybuf = s.paybuf := rfl
@[simp] theorem State.applyInput_paylen (s : State) (e : EnvInput) : (s.applyInput e).paylen = s.paylen := rfl
@[simp] theorem State.applyInput_txbuf (s : State) (e : EnvInput) : (s.applyInput e).txbuf = s.txbuf := rfl
@[simp] theorem State.applyInput_snap (s : State) (e : EnvInput) : (s.applyInput e).snap = s.snap := rfl
@[simp] theorem State.applyInput_fwv (s : State) (e : EnvInput) : (s.applyInput e).fwv = s.fwv := rfl
@[simp] theorem State.applyInput_rc (s : State) (e : EnvInput) : (s.applyInput e).rc = (if s.busy then s.rc else e.rc.getD s.rc) := rfl
@[simp] theorem State.applyInput_rxq (s : State) (e : EnvInput) : (s.applyInput e).rxq = s.rxq ++ e.arrives := rfl
@[simp] theorem State.applyInput_txlog (s : State) (e : EnvInput) : (s.applyInput e).txlog = s.txlog := rfl
@[simp] theorem State.applyInput_now (s : State) (e : EnvInput) : (s.applyInput e).now = s.now + e.advance := rfl
@[simp] theorem State.applyInput_accept (s : State) (e : EnvInput) : (s.applyInput e).accept = e.accepts := rfl
@[simp] theorem State.applyInput_env (s : State) (e : EnvInput) : (s.applyInput e).env = s.env.tail := rfl
@[simp] theorem State.applyInput_draws (s : State) (e : EnvInput) : (s.applyInput e).draws = s.draws + 1 := rfl
@[simp] theorem State.applyInput_port (s : State) (e : EnvInput) : (s.applyInput e).port = s.port := rfl

@[simp] theorem State.takeInput_params (s : State) : (s.takeInput).params = s.params := rfl
@[simp] theorem State.takeInput_cfgTimeoutMs (s : State) : (s.takeInput).cfgTimeoutMs = s.cfgTimeoutMs := rfl
@[simp] theorem State.takeInput_cfgBound (s : State) : (s.takeInput).cfgBound = s.cfgBound := rfl
@[simp] theorem State.takeInput_status (s : State) : (s.takeInput).status = s.status := rfl
@[simp] theorem State.takeInput_result (s : State) : (s.takeInput).result = s.result := rfl
@[simp] theorem State.takeInput_returns (s : State) : (s.takeInput).returns = s.returns := rfl
@[simp] theorem State.takeInput_call (s : State) : (s.takeInput).call = s.call := rfl
@[simp] theorem State.takeInput_rxs (s : State) : (s.takeInput).rxs = s.rxs := rfl
@[simp] theorem State.takeInput_rxbuf (s : State) : (s.takeInput).rxbuf = s.rxbuf := rfl
@[simp] theorem State.takeInput_rxcnt (s : State) : (s.takeInput).rxcnt = s.rxcnt := rfl
@[simp] theorem State.takeInput_rxend (s : State) : (s.takeInput).rxend = s.rxend := rfl
@[simp] theorem State.takeInput_rxlen (s : State) : (s.takeInput).rxlen = s.rxlen := rfl
@[simp] theorem State.takeInput_rxmk (s : State) : (s.takeInput).rxmk = s.rxmk := rfl
@[simp] theorem State.takeInput_rxdl (s : State) : (s.takeInput).rxdl = s.rxdl := rfl
@[simp] theorem State.takeInput_fbuf (s : State) : (s.takeInput).fbuf = s.fbuf := rfl
@[simp] theorem State.takeInput_flen (s : State) : (s.takeInput).flen = s.flen := rfl
@[simp] theorem State.takeInput_cur (s : State) : (s.takeInput).cur = s.cur := rfl
@[simp] theorem State.takeInput_crc (s : State) : (s.takeInput).crc = s.crc := rfl
@[simp] theorem State.takeInput_paybuf (s : State) : (s.takeInput).paybuf = s.paybuf := rfl
@[simp] theorem State.takeInput_paylen (s : State) : (s.takeInput).paylen = s.paylen := rfl
@[simp] theorem State.takeInput_txbuf (s : State) : (s.takeInput).txbuf = s.txbuf := rfl
@[simp] theorem State.takeInput_snap (s : State) : (s.takeInput).snap = s.snap := rfl
@[simp] theorem State.takeInput_fwv (s : State) : (s.takeInput).fwv = s.fwv := rfl
@[simp] theorem State.takeInput_rc (s : State) : (s.takeInput).rc = (if s.busy then s.rc else s.nextInput.rc.getD s.rc) := rfl
@[simp] theorem State.takeInput_rxq (s : State) : (s.takeInput).rxq = s.rxq ++ s.nextInput.arrives := rfl
@[simp] theorem State.takeInput_txlog (s : State) : (s.takeInput).txlog = s.txlog := rfl
@[simp] theorem State.takeInput_now (s : State) : (s.takeInput).now = s.now + s.nextInput.advance := rfl
@[simp] theorem State.takeInput_accept (s : State) : (s.takeInput).accept = s.nextInput.accepts := rfl
@[simp] theorem State.takeInput_env (s : State) : (s.takeInput).env = s.env.tail := rfl
@[simp] theorem State.takeInput_draws (s : State) : (s.takeInput).draws = s.draws + 1 := rfl
@[simp] theorem State.takeInput_port (s : State) : (s.takeInput).port = s.port := rfl

@[simp] theorem State.advance_params (s : State) (n : Nat) : (s.advance n).params = s.params := rfl
@[simp] theorem State.advance_cfgTimeoutMs (s : State) (n : Nat) : (s.advance n).cfgTimeoutMs = s.cfgTimeoutMs := rfl
@[simp] theorem State.advance_cfgBound (s : State) (n : Nat) : (s.advance n).cfgBound = s.cfgBound := rfl
@[simp] theorem State.advance_status (s : State) (n : Nat) : (s.advance n).status = s.status := rfl
@[simp] theorem State.advance_result (s : State) (n : Nat) : (s.advance n).result = s.result := rfl
@[simp] theorem State.advance_returns (s : State) (n : Nat) : (s.advance n).returns = s.returns := rfl
@[simp] theorem State.advance_call (s : State) (n : Nat) : (s.advance n).call = s.call := rfl
@[simp] theorem State.advance_rxs (s : State) (n : Nat) : (s.advance n).rxs = s.rxs := rfl
@[simp] theorem State.advance_rxbuf (s : State) (n : Nat) : (s.advance n).rxbuf = s.rxbuf := rfl
@[simp] theorem State.advance_rxcnt (s : State) (n : Nat) : (s.advance n).rxcnt = s.rxcnt := rfl
@[simp] theorem State.advance_rxend (s : State) (n : Nat) : (s.advance n).rxend = s.rxend := rfl
@[simp] theorem State.advance_rxlen (s : State) (n : Nat) : (s.advance n).rxlen = s.rxlen := rfl
@[simp] theorem State.advance_rxmk (s : State) (n : Nat) : (s.advance n).rxmk = s.rxmk := rfl
@[simp] theorem State.advance_rxdl (s : State) (n : Nat) : (s.advance n).rxdl = s.rxdl := rfl
@[simp] theorem State.advance_fbuf (s : State) (n : Nat) : (s.advance n).fbuf = s.fbuf := rfl
@[simp] theorem State.advance_flen (s : State) (n : Nat) : (s.advance n).flen = s.flen := rfl
@[simp] theorem State.advance_cur (s : State) (n : Nat) : (s.advance n).cur = s.cur + n := rfl
@[simp] theorem State.advance_crc (s : State) (n : Nat) : (s.advance n).crc = s.crc := rfl
@[simp] theorem State.advance_paybuf (s : State) (n : Nat) : (s.advance n).paybuf = s.paybuf := rfl
@[simp] theorem State.advance_paylen (s : State) (n : Nat) : (s.advance n).paylen = s.paylen := rfl
@[simp] theorem State.advance_txbuf (s : State) (n : Nat) : (s.advance n).txbuf = s.txbuf := rfl
@[simp] theorem State.advance_snap (s : State) (n : Nat) : (s.advance n).snap = s.snap := rfl
@[simp] theorem State.advance_fwv (s : State) (n : Nat) : (s.advance n).fwv = s.fwv := rfl
@[simp] theorem State.advance_rc (s : State) (n : Nat) : (s.advance n).rc = s.rc := rfl
@[simp] theorem State.advance_rxq (s : State) (n : Nat) : (s.advance n).rxq = s.rxq := rfl
@[simp] theorem State.advance_txlog (s : State) (n : Nat) : (s.advance n).txlog = s.txlog := rfl
@[simp] theorem State.advance_now (s : State) (n : Nat) : (s.advance n).now = s.now := rfl
@[simp] theorem State.advance_accept (s : State) (n : Nat) : (s.advance n).accept = s.accept := rfl
@[simp] theorem State.advance_env (s : State) (n : Nat) : (s.advance n).env = s.env := rfl
@[simp] theorem State.advance_draws (s : State) (n : Nat) : (s.advance n).draws = s.draws := rfl
@[simp] theorem State.advance_port (s : State) (n : Nat) : (s.advance n).port = s.port := rfl

@[simp] theorem State.bind_params (s : State) (buf : List Byte) (len : Nat) : (s.bind buf len).params = s.params := rfl
@[simp] theorem State.bind_cfgTimeoutMs (s : State) (buf : List Byte) (len : Nat) : (s.bind buf len).cfgTimeoutMs = s.cfgTimeoutMs := rfl
@[simp] theorem State.bind_cfgBound (s : State) (buf : List Byte) (len : Nat) : (s.bind buf len).cfgBound = s.cfgBound := rfl
@[simp] theorem State.bind_status (s : State) (buf : List Byte) (len : Nat) : (s.bind buf len).status = s.status := rfl
@[simp] theorem State.bind_result (s : State) (buf : List Byte) (len : Nat) : (s.bind buf len).result = s.result := rfl
@[simp] theorem State.bind_returns (s : State) (buf : List Byte) (len : Nat) : (s.bind buf len).returns = s.returns := rfl
@[simp] theorem State.bind_call (s : State) (buf : List Byte) (len : Nat) : (s.bind buf len).call = s.call := rfl
@[simp] theorem State.bind_rxs (s : State) (buf : List Byte) (len : Nat) : (s.bind buf len).rxs = s.rxs := rfl
@[simp] theorem State.bind_rxbuf (s : State) (buf : List Byte) (len : Nat) : (s.bind buf len).rxbuf = s.rxbuf := rfl
@[simp] theorem State.bind_rxcnt (s : State) (buf : List Byte) (len : Nat) : (s.bind buf len).rxcnt = s.rxcnt := rfl
@[simp] theorem State.bind_rxend (s : State) (buf : List Byte) (len : Nat) : (s.bind buf len).rxend = s.rxend := rfl
@[simp] theorem State.bind_rxlen (s : State) (buf : List Byte) (len : Nat) : (s.bind buf len).rxlen = s.rxlen := rfl
@[simp] theorem State.bind_rxmk (s : State) (buf : List Byte) (len : Nat) : (s.bind buf len).rxmk = s.rxmk := rfl
@[simp] theorem State.bind_rxdl (s : State) (buf : List Byte) (len : Nat) : (s.bind buf len).rxdl = s.rxdl := rfl
@[simp] theorem State.bind_fbuf (s : State) (buf : List Byte) (len : Nat) : (s.bind buf len).fbuf = Memory.ofBytes (buf.take len) := rfl
@[simp] theorem State.bind_flen (s : State) (buf : List Byte) (len : Nat) : (s.bind buf len).flen = len := rfl
@[simp] theorem State.bind_cur (s : State) (buf : List Byte) (len : Nat) : (s.bind buf len).cur = 0 := rfl
@[simp] theorem State.bind_crc (s : State) (buf : List Byte) (len : Nat) : (s.bind buf len).crc = s.crc := rfl
@[simp] theorem State.bind_paybuf (s : State) (buf : List Byte) (len : Nat) : (s.bind buf len).paybuf = s.paybuf := rfl
@[simp] theorem State.bind_paylen (s : State) (buf : List Byte) (len : Nat) : (s.bind buf len).paylen = s.paylen := rfl
@[simp] theorem State.bind_txbuf (s : State) (buf : List Byte) (len : Nat) : (s.bind buf len).txbuf = s.txbuf := rfl
@[simp] theorem State.bind_snap (s : State) (buf : List Byte) (len : Nat) : (s.bind buf len).snap = s.snap := rfl
@[simp] theorem State.bind_fwv (s : State) (buf : List Byte) (len : Nat) : (s.bind buf len).fwv = s.fwv := rfl
@[simp] theorem State.bind_rc (s : State) (buf : List Byte) (len : Nat) : (s.bind buf len).rc = s.rc := rfl
@[simp] theorem State.bind_rxq (s : State) (buf : List Byte) (len : Nat) : (s.bind buf len).rxq = s.rxq := rfl
@[simp] theorem State.bind_txlog (s : State) (buf : List Byte) (len : Nat) : (s.bind buf len).txlog = s.txlog := rfl
@[simp] theorem State.bind_now (s : State) (buf : List Byte) (len : Nat) : (s.bind buf len).now = s.now := rfl
@[simp] theorem State.bind_accept (s : State) (buf : List Byte) (len : Nat) : (s.bind buf len).accept = s.accept := rfl
@[simp] theorem State.bind_env (s : State) (buf : List Byte) (len : Nat) : (s.bind buf len).env = s.env := rfl
@[simp] theorem State.bind_draws (s : State) (buf : List Byte) (len : Nat) : (s.bind buf len).draws = s.draws := rfl
@[simp] theorem State.bind_port (s : State) (buf : List Byte) (len : Nat) : (s.bind buf len).port = s.port := rfl

@[simp] theorem State.withCrc_params (s : State) (bs : List Byte) : (s.withCrc bs).params = s.params := rfl
@[simp] theorem State.withCrc_cfgTimeoutMs (s : State) (bs : List Byte) : (s.withCrc bs).cfgTimeoutMs = s.cfgTimeoutMs := rfl
@[simp] theorem State.withCrc_cfgBound (s : State) (bs : List Byte) : (s.withCrc bs).cfgBound = s.cfgBound := rfl
@[simp] theorem State.withCrc_status (s : State) (bs : List Byte) : (s.withCrc bs).status = s.status := rfl
@[simp] theorem State.withCrc_result (s : State) (bs : List Byte) : (s.withCrc bs).result = s.result := rfl
@[simp] theorem State.withCrc_returns (s : State) (bs : List Byte) : (s.withCrc bs).returns = s.returns := rfl
@[simp] theorem State.withCrc_call (s : State) (bs : List Byte) : (s.withCrc bs).call = s.call := rfl
@[simp] theorem State.withCrc_rxs (s : State) (bs : List Byte) : (s.withCrc bs).rxs = s.rxs := rfl
@[simp] theorem State.withCrc_rxbuf (s : State) (bs : List Byte) : (s.withCrc bs).rxbuf = s.rxbuf := rfl
@[simp] theorem State.withCrc_rxcnt (s : State) (bs : List Byte) : (s.withCrc bs).rxcnt = s.rxcnt := rfl
@[simp] theorem State.withCrc_rxend (s : State) (bs : List Byte) : (s.withCrc bs).rxend = s.rxend := rfl
@[simp] theorem State.withCrc_rxlen (s : State) (bs : List Byte) : (s.withCrc bs).rxlen = s.rxlen := rfl
@[simp] theorem State.withCrc_rxmk (s : State) (bs : List Byte) : (s.withCrc bs).rxmk = s.rxmk := rfl
@[simp] theorem State.withCrc_rxdl (s : State) (bs : List Byte) : (s.withCrc bs).rxdl = s.rxdl := rfl
@[simp] theorem State.withCrc_fbuf (s : State) (bs : List Byte) : (s.withCrc bs).fbuf = s.fbuf := rfl
@[simp] theorem State.withCrc_flen (s : State) (bs : List Byte) : (s.withCrc bs).flen = s.flen := rfl
@[simp] theorem State.withCrc_cur (s : State) (bs : List Byte) : (s.withCrc bs).cur = s.cur := rfl
@[simp] theorem State.withCrc_crc (s : State) (bs : List Byte) : (s.withCrc bs).crc = crc16 bs := rfl
@[simp] theorem State.withCrc_paybuf (s : State) (bs : List Byte) : (s.withCrc bs).paybuf = s.paybuf := rfl
@[simp] theorem State.withCrc_paylen (s : State) (bs : List Byte) : (s.withCrc bs).paylen = s.paylen := rfl
@[simp] theorem State.withCrc_txbuf (s : State) (bs : List Byte) : (s.withCrc bs).txbuf = s.txbuf := rfl
@[simp] theorem State.withCrc_snap (s : State) (bs : List Byte) : (s.withCrc bs).snap = s.snap := rfl
@[simp] theorem State.withCrc_fwv (s : State) (bs : List Byte) : (s.withCrc bs).fwv = s.fwv := rfl
@[simp] theorem State.withCrc_rc (s : State) (bs : List Byte) : (s.withCrc bs).rc = s.rc := rfl
@[simp] theorem State.withCrc_rxq (s : State) (bs : List Byte) : (s.withCrc bs).rxq = s.rxq := rfl
@[simp] theorem State.withCrc_txlog (s : State) (bs : List Byte) : (s.withCrc bs).txlog = s.txlog := rfl
@[simp] theorem State.withCrc_now (s : State) (bs : List Byte) : (s.withCrc bs).now = s.now := rfl
@[simp] theorem State.withCrc_accept (s : State) (bs : List Byte) : (s.withCrc bs).accept = s.accept := rfl
@[simp] theorem State.withCrc_env (s : State) (bs : List Byte) : (s.withCrc bs).env = s.env := rfl
@[simp] theorem State.withCrc_draws (s : State) (bs : List Byte) : (s.withCrc bs).draws = s.draws := rfl
@[simp] theorem State.withCrc_port (s : State) (bs : List Byte) : (s.withCrc bs).port = s.port := rfl

@[simp] theorem buildFrame_params (s : State) (q : List Byte) : (buildFrame s q).params = s.params := rfl
@[simp] theorem buildFrame_cfgTimeoutMs (s : State) (q : List Byte) : (buildFrame s q).cfgTimeoutMs = s.cfgTimeoutMs := rfl
@[simp] theorem buildFrame_cfgBound (s : State) (q : List Byte) : (buildFrame s q).cfgBound = s.cfgBound := rfl
@[simp] theorem buildFrame_status (s : State) (q : List Byte) : (buildFrame s q).status = s.status := rfl
@[simp] theorem buildFrame_result (s : State) (q : List Byte) : (buildFrame s q).result = s.result := rfl
@[simp] theorem buildFrame_returns (s : State) (q : List Byte) : (buildFrame s q).returns = s.returns := rfl
@[simp] theorem buildFrame_call (s : State) (q : List Byte) : (buildFrame s q).call = s.call := rfl
@[simp] theorem buildFrame_rxs (s : State) (q : List Byte) : (buildFrame s q).rxs = s.rxs := rfl
@[simp] theorem buildFrame_rxbuf (s : State) (q : List Byte) : (buildFrame s q).rxbuf = s.rxbuf := rfl
@[simp] theorem buildFrame_rxcnt (s : State) (q : List Byte) : (buildFrame s q).rxcnt = s.rxcnt := rfl
@[simp] theorem buildFrame_rxend (s : State) (q : List Byte) : (buildFrame s q).rxend = s.rxend := rfl
@[simp] theorem buildFrame_rxlen (s : State) (q : List Byte) : (buildFrame s q).rxlen = s.rxlen := rfl
@[simp] theorem buildFrame_rxmk (s : State) (q : List Byte) : (buildFrame s q).rxmk = s.rxmk := rfl
@[simp] theorem buildFrame_rxdl (s : State) (q : List Byte) : (buildFrame s q).rxdl = s.rxdl := rfl
@[simp] theorem buildFrame_fbuf (s : State) (q : List Byte) : (buildFrame s q).fbuf = s.fbuf := rfl
@[simp] theorem buildFrame_flen (s : State) (q : List Byte) : (buildFrame s q).flen = s.flen := rfl
@[simp] theorem buildFrame_cur (s : State) (q : List Byte) : (buildFrame s q).cur = s.cur := rfl
@[simp] theorem buildFrame_crc (s : State) (q : List Byte) : (buildFrame s q).crc = crc16 q := rfl
@[simp] theorem buildFrame_paybuf (s : State) (q : List Byte) : (buildFrame s q).paybuf = s.paybuf := rfl
@[simp] theorem buildFrame_paylen (s : State) (q : List Byte) : (buildFrame s q).paylen = s.paylen := rfl
@[simp] theorem buildFrame_txbuf (s : State) (q : List Byte) : (buildFrame s q).txbuf = frameOf q := rfl
@[simp] theorem buildFrame_snap (s : State) (q : List Byte) : (buildFrame s q).snap = s.snap := rfl
@[simp] theorem buildFrame_fwv (s : State) (q : List Byte) : (buildFrame s q).fwv = s.fwv := rfl
@[simp] theorem buildFrame_rc (s : State) (q : List Byte) : (buildFrame s q).rc = s.rc := rfl
@[simp] theorem buildFrame_rxq (s : State) (q : List Byte) : (buildFrame s q).rxq = s.rxq := rfl
@[simp] theorem buildFrame_txlog (s : State) (q : List Byte) : (buildFrame s q).txlog = s.txlog := rfl
@[simp] theorem buildFrame_now (s : State) (q : List Byte) : (buildFrame s q).now = s.now := rfl
@[simp] theorem buildFrame_accept (s : State) (q : List Byte) : (buildFrame s q).accept = s.accept := rfl
@[simp] theorem buildFrame_env (s : State) (q : List Byte) : (buildFrame s q).env = s.env := rfl
@[simp] theorem buildFrame_draws (s : State) (q : List Byte) : (buildFrame s q).draws = s.draws := rfl
@[simp] theorem buildFrame_port (s : State) (q : List Byte) : (buildFrame s q).port = s.port := rfl

@[simp] theorem rxBegin_params (s : State) : (rxBegin s).params = s.params := rfl
@[simp] theorem rxBegin_cfgTimeoutMs (s : State) : (rxBegin s).cfgTimeoutMs = s.cfgTimeoutMs := rfl
@[simp] theorem rxBegin_cfgBound (s : State) : (rxBegin s).cfgBound = s.cfgBound := rfl
@[simp] theorem rxBegin_status (s : State) : (rxBegin s).status = .ok := rfl
@[simp] theorem rxBegin_result (s : State) : (rxBegin s).result = s.result := rfl
@[simp] theorem rxBegin_returns (s : State) : (rxBegin s).returns = s.returns := rfl
@[simp] theorem rxBegin_call (s : State) : (rxBegin s).call = s.call := rfl
@[simp] theorem rxBegin_rxs (s : State) : (rxBegin s).rxs = .awaitLength := rfl
@[simp] theorem rxBegin_rxbuf (s : State) : (rxBegin s).rxbuf = s.rxbuf := rfl
@[simp] theorem rxBegin_rxcnt (s : State) : (rxBegin s).rxcnt = 0 := rfl
@[simp] theorem rxBegin_rxend (s : State) : (rxBegin s).rxend = none := rfl
@[simp] theorem rxBegin_rxlen (s : State) : (rxBegin s).rxlen = 0 := rfl
@[simp] theorem rxBegin_rxmk (s : State) : (rxBegin s).rxmk = .unread := rfl
@[simp] theorem rxBegin_rxdl (s : State) : (rxBegin s).rxdl = s.now + s.cfgTimeoutMs := rfl
@[simp] theorem rxBegin_fbuf (s : State) : (rxBegin s).fbuf = s.fbuf := rfl
@[simp] theorem rxBegin_flen (s : State) : (rxBegin s).flen = s.flen := rfl
@[simp] theorem rxBegin_cur (s : State) : (rxBegin s).cur = s.cur := rfl
@[simp] theorem rxBegin_crc (s : State) : (rxBegin s).crc = s.crc := rfl
@[simp] theorem rxBegin_paybuf (s : State) : (rxBegin s).paybuf = s.paybuf := rfl
@[simp] theorem rxBegin_paylen (s : State) : (rxBegin s).paylen = s.paylen := rfl
@[simp] theorem rxBegin_txbuf (s : State) : (rxBegin s).txbuf = s.txbuf := rfl
@[simp] theorem rxBegin_snap (s : State) : (rxBegin s).snap = s.snap := rfl
@[simp] theorem rxBegin_fwv (s : State) : (rxBegin s).fwv = s.fwv := rfl
@[simp] theorem rxBegin_rc (s : State) : (rxBegin s).rc = s.rc := rfl
@[simp] theorem rxBegin_rxq (s : State) : (rxBegin s).rxq = s.rxq := rfl
@[simp] theorem rxBegin_txlog (s : State) : (rxBegin s).txlog = s.txlog := rfl
@[simp] theorem rxBegin_now (s : State) : (rxBegin s).now = s.now := rfl
@[simp] theorem rxBegin_accept (s : State) : (rxBegin s).accept = s.accept := rfl
@[simp] theorem rxBegin_env (s : State) : (rxBegin s).env = s.env := rfl
@[simp] theorem rxBegin_draws (s : State) : (rxBegin s).draws = s.draws := rfl
@[simp] theorem rxBegin_port (s : State) : (rxBegin s).port = s.port := rfl

@[simp] theorem rxBuffer_params (s : State) (b : Byte) (queue : List Byte) : (rxBuffer s b queue).params = s.params := rfl
@[simp] theorem rxBuffer_cfgTimeoutMs (s : State) (b : Byte) (queue : List Byte) : (rxBuffer s b queue).cfgTimeoutMs = s.cfgTimeoutMs := rfl
@[simp] theorem rxBuffer_cfgBound (s : State) (b : Byte) (queue : List Byte) : (rxBuffer s b queue).cfgBound = s.cfgBound := rfl
@[simp] theorem rxBuffer_status (s : State) (b : Byte) (queue : List Byte) : (rxBuffer s b queue).status = s.status := rfl
@[simp] theorem rxBuffer_result (s : State) (b : Byte) (queue : List Byte) : (rxBuffer s b queue).result = s.result := rfl
@[simp] theorem rxBuffer_returns (s : State) (b : Byte) (queue : List Byte) : (rxBuffer s b queue).returns = s.returns := rfl
@[simp] theorem rxBuffer_call (s : State) (b : Byte) (queue : List Byte) : (rxBuffer s b queue).call = s.call := rfl
@[simp] theorem rxBuffer_rxs (s : State) (b : Byte) (queue : List Byte) : (rxBuffer s b queue).rxs = s.rxs := rfl
@[simp] theorem rxBuffer_rxbuf (s : State) (b : Byte) (queue : List Byte) : (rxBuffer s b queue).rxbuf = Memory.write s.rxbuf s.rxcnt b := rfl
@[simp] theorem rxBuffer_rxcnt (s : State) (b : Byte) (queue : List Byte) : (rxBuffer s b queue).rxcnt = s.rxcnt + 1 := rfl
@[simp] theorem rxBuffer_rxend (s : State) (b : Byte) (queue : List Byte) : (rxBuffer s b queue).rxend = s.rxend := rfl
@[simp] theorem rxBuffer_rxlen (s : State) (b : Byte) (queue : List Byte) : (rxBuffer s b queue).rxlen = s.rxlen := rfl
@[simp] theorem rxBuffer_rxmk (s : State) (b : Byte) (queue : List Byte) : (rxBuffer s b queue).rxmk = s.rxmk := rfl
@[simp] theorem rxBuffer_rxdl (s : State) (b : Byte) (queue : List Byte) : (rxBuffer s b queue).rxdl = s.rxdl := rfl
@[simp] theorem rxBuffer_fbuf (s : State) (b : Byte) (queue : List Byte) : (rxBuffer s b queue).fbuf = s.fbuf := rfl
@[simp] theorem rxBuffer_flen (s : State) (b : Byte) (queue : List Byte) : (rxBuffer s b queue).flen = s.flen := rfl
@[simp] theorem rxBuffer_cur (s : State) (b : Byte) (queue : List Byte) : (rxBuffer s b queue).cur = s.cur := rfl
@[simp] theorem rxBuffer_crc (s : State) (b : Byte) (queue : List Byte) : (rxBuffer s b queue).crc = s.crc := rfl
@[simp] theorem rxBuffer_paybuf (s : State) (b : Byte) (queue : List Byte) : (rxBuffer s b queue).paybuf = s.paybuf := rfl
@[simp] theorem rxBuffer_paylen (s : State) (b : Byte) (queue : List Byte) : (rxBuffer s b queue).paylen = s.paylen := rfl
@[simp] theorem rxBuffer_txbuf (s : State) (b : Byte) (queue : List Byte) : (rxBuffer s b queue).txbuf = s.txbuf := rfl
@[simp] theorem rxBuffer_snap (s : State) (b : Byte) (queue : List Byte) : (rxBuffer s b queue).snap = s.snap := rfl
@[simp] theorem rxBuffer_fwv (s : State) (b : Byte) (queue : List Byte) : (rxBuffer s b queue).fwv = s.fwv := rfl
@[simp] theorem rxBuffer_rc (s : State) (b : Byte) (queue : List Byte) : (rxBuffer s b queue).rc = s.rc := rfl
@[simp] theorem rxBuffer_rxq (s : State) (b : Byte) (queue : List Byte) : (rxBuffer s b queue).rxq = queue := rfl
@[simp] theorem rxBuffer_txlog (s : State) (b : Byte) (queue : List Byte) : (rxBuffer s b queue).txlog = s.txlog := rfl
@[simp] theorem rxBuffer_now (s : State) (b : Byte) (queue : List Byte) : (rxBuffer s b queue).now = s.now := rfl
@[simp] theorem rxBuffer_accept (s : State) (b : Byte) (queue : List Byte) : (rxBuffer s b queue).accept = s.accept := rfl
@[simp] theorem rxBuffer_env (s : State) (b : Byte) (queue : List Byte) : (rxBuffer s b queue).env = s.env := rfl
@[simp] theorem rxBuffer_draws (s : State) (b : Byte) (queue : List Byte) : (rxBuffer s b queue).draws = s.draws := rfl
@[simp] theorem rxBuffer_port (s : State) (b : Byte) (queue : List Byte) : (rxBuffer s b queue).port = s.port := rfl

end Sys2Proof.Machine
end

