-- ==== Sys2Proof/Laws/Codec.lean ====
section
/-! SUPPORT. What the codec's shared operations do, said once: arithmetic, laying a field, picking one up, laying a payload. -/

namespace Sys2Proof.Machine

@[simp] theorem busy_eq_false_iff (s : State) : s.busy = false ↔ s.call = .none := by
  simp [State.busy]

theorem whenIdle_of_idle (s : State) (k : Host.Outcome State Fault Refusal) (h : s.busy = false) : whenIdle s k = k := by
  simp [whenIdle, h]

theorem whenIdle_of_busy (s : State) (k : Host.Outcome State Fault Refusal) (h : s.busy = true) :
    whenIdle s k = .refused .busy := by
  simp [whenIdle, h]

/-- An operation that goes through `whenIdle` answers a next state only from an idle state. -/
theorem whenIdle_next (s t : State) (k : Host.Outcome State Fault Refusal) (h : whenIdle s k = .next t) :
    s.call = .none ∧ k = .next t := by
  unfold whenIdle at h
  split at h
  · cases h
  · rename_i hb; exact ⟨by simpa [State.busy] using hb, h⟩

@[simp] theorem scaleOf_nat (n : Nat) (h : 0 < n) : scaleOf (.fin (n : Rat)) = some n := by
  simp [scaleOf, h]

theorem withScale_nat (n : Nat) (h : 0 < n) (k : Nat → Host.Outcome State Fault Refusal) :
    withScale (.fin (n : Rat)) k = k n := by
  simp [withScale, h]

@[simp] theorem withFinite_fin (q : Rat) (k : Rat → Host.Outcome State Fault Refusal) : withFinite (.fin q) k = k q := rfl

/-- `ROUND` of a fraction is its nearest integer, ties away from zero (R103, D16). -/
theorem roundAway_rounds (n : Int) (d : Nat) (hd : 0 < d) : Rounds ((n : Rat) / d) (roundAway n d) := by
  have hdq : (0 : Rat) < d := by exact_mod_cast hd
  have hpos : ∀ m : Int, 0 ≤ m → Rounds ((m : Rat) / d) ((2 * m + d) / (2 * d)) := by
    intro m hm
    set r : Int := (2 * m + d) / (2 * d) with hr
    have h2 : (0 : Int) < 2 * d := by omega
    have hlow : 2 * d * r ≤ 2 * m + d := by
      have := Int.mul_ediv_self_le (x := 2 * m + d) (k := 2 * (d : Int)) (by omega)
      simpa [hr] using this
    have hhigh : 2 * m + d < 2 * d * r + 2 * d := Int.lt_mul_ediv_self_add h2
    have hlowq : (2 * d * r : Rat) ≤ 2 * m + d := by exact_mod_cast hlow
    have hhighq : (2 * m + d : Rat) < 2 * d * r + 2 * d := by exact_mod_cast hhigh
    have hr0 : 0 ≤ r := Int.ediv_nonneg (by omega) (by omega)
    have hv : (m : Rat) / d * d = m := by field_simp
    set v : Rat := (m : Rat) / d with hvdef
    have hv0 : 0 ≤ v := by positivity
    have h1 : (r : Rat) ≤ v + 1 / 2 := by nlinarith
    have h2' : v < r + 1 / 2 := by nlinarith
    refine ⟨abs_le.mpr ⟨by linarith, by linarith⟩, fun ht => ?_⟩
    have hr0q : (0 : Rat) ≤ r := by exact_mod_cast hr0
    rw [abs_of_nonneg hv0, abs_of_nonneg hr0q]
    rcases abs_cases (v - r) with ⟨h, -⟩ | ⟨h, -⟩ <;> linarith
  unfold roundAway
  split
  · exact hpos n ‹_›
  · obtain ⟨h1, h2⟩ := hpos (-n) (by omega)
    have e1 : -(2 * n) = 2 * -n := by ring
    rw [e1]
    set r : Int := (2 * -n + d) / (2 * d)
    have hneg : (n : Rat) / d - ((-r : Int) : Rat) = -(((-n : Int) : Rat) / d - r) := by push_cast; ring
    have habs : |(n : Rat) / d| = |((-n : Int) : Rat) / d| := by push_cast; rw [neg_div, abs_neg]
    refine ⟨by rw [hneg, abs_neg]; exact h1, fun ht => ?_⟩
    rw [hneg, abs_neg] at ht
    have := h2 ht
    rw [habs]
    push_cast
    rw [abs_neg]
    exact this

/-- What `quantise` rounds is the exact product (R103). -/
theorem quantise_rounds (q : Rat) (scale : Nat) : Rounds (q * scale) (roundAway (q.num * scale) q.den) := by
  have h := roundAway_rounds (q.num * scale) q.den q.den_pos
  have e : ((q.num * scale : Int) : Rat) / q.den = q * scale := by
    push_cast
    rw [mul_div_right_comm, Rat.num_div_den]
  rwa [e] at h

/-- An integer is its own rounding. -/
theorem rounds_int (m n : Int) (h : Rounds (m : Rat) n) : n = m := by
  obtain ⟨h1, -⟩ := h
  have h2 : |((m - n : Int) : Rat)| ≤ 1 / 2 := by push_cast; exact h1
  have h3 : |m - n| < 1 := by
    have : ((|m - n| : Int) : Rat) < 1 := by push_cast at h2 ⊢; linarith
    exact_mod_cast this
  have := Int.abs_lt_one_iff.mp h3
  omega

/-- The rounding of a number is unique. -/
theorem rounds_unique (v : Rat) (m n : Int) (hm : Rounds v m) (hn : Rounds v n) : m = n := by
  obtain ⟨hm1, hm2⟩ := hm
  obtain ⟨hn1, hn2⟩ := hn
  by_contra hne
  wlog hlt : m < n generalizing m n
  · exact this n m hn1 hn2 hm1 hm2 (Ne.symm hne) (by omega)
  have hm3 := abs_le.mp hm1
  have hn3 := abs_le.mp hn1
  have h1 : (m : Rat) + 1 ≤ n := by exact_mod_cast hlt
  have e1 : v = m + 1 / 2 := by linarith [hm3.2, hn3.1]
  have e2 : (n : Rat) = m + 1 := by linarith [hm3.2, hn3.1]
  have a1 := hm2 (by rw [e1]; norm_num)
  have a2 := hn2 (by rw [e1, e2]; norm_num)
  rw [e1] at a1 a2
  rw [e2] at a2
  rcases le_or_gt 0 m with h | h
  · have h' : (0 : Rat) ≤ m := by exact_mod_cast h
    rw [abs_of_nonneg (by linarith), abs_of_nonneg h'] at a1
    linarith
  · have h' : (m : Rat) + 1 ≤ 0 := by exact_mod_cast h
    rw [abs_of_nonpos (by linarith), abs_of_nonpos h'] at a2
    linarith

theorem sint_eq_toInt (w u : Nat) (hw : 0 < w) (hu : u < 2 ^ w) : sint w u = (BitVec.ofNat w u).toInt := by
  obtain ⟨k, rfl⟩ : ∃ k, w = k + 1 := ⟨w - 1, by omega⟩
  have hu' : (BitVec.ofNat (k + 1) u).toNat = u := by simp [Nat.mod_eq_of_lt hu]
  have hc : ((2 ^ k * 2 : Nat) : Int) = (2 : Int) ^ k * 2 := by push_cast; ring
  simp only [sint, BitVec.toInt_eq_toNat_cond, hu', Nat.add_sub_cancel, pow_succ, hc]
  split <;> split <;> first | rfl | omega

theorem scaled_eq (w u scale : Nat) : scaled w u scale = (sint w u : Rat) / scale := by
  simp [scaled, Rat.mkRat_eq_div]

theorem halfBytes_eq (v : Half) : halfBytes v = [v.extractLsb' 8 8, v.extractLsb' 0 8] := by
  simp only [halfBytes, beBytes, List.cons.injEq, and_true]
  constructor <;> apply BitVec.eq_of_toNat_eq <;> simp [BitVec.extractLsb'_toNat, Nat.shiftRight_eq_div_pow]

theorem wordBytes_eq (v : Word) :
    wordBytes v = [v.extractLsb' 24 8, v.extractLsb' 16 8, v.extractLsb' 8 8, v.extractLsb' 0 8] := by
  simp only [wordBytes, beBytes, List.cons.injEq, and_true]
  refine ⟨?_, ?_, ?_, ?_⟩ <;> apply BitVec.eq_of_toNat_eq <;>
    simp [BitVec.extractLsb'_toNat, Nat.shiftRight_eq_div_pow]

@[simp] theorem halfBytes_length (v : Half) : (halfBytes v).length = 2 := beBytes_length _ _

@[simp] theorem wordBytes_length (v : Word) : (wordBytes v).length = 4 := beBytes_length _ _

theorem readNat_lt (m : Memory) (a n : Nat) : Memory.readNat m a n < 256 ^ n := by
  simpa [Memory.readNat] using beNat_lt (Memory.readBytes m a n)

/-! ### Laying and picking up -/

theorem putField_fits (s : State) (bs : List Byte) (h : s.cur + bs.length ≤ s.flen) :
    putField s bs =
      ({ s with fbuf := Memory.writeBytes s.fbuf s.cur bs, cur := s.cur + bs.length }, .ok) := by
  simp [putField, State.fits, h, State.advance]

theorem putField_overrun (s : State) (bs : List Byte) (h : s.flen < s.cur + bs.length) :
    putField s bs = ({ s with cur := s.cur + bs.length }, .codecOverrun) := by
  simp [putField, State.fits, State.advance, Nat.not_le.mpr h]

theorem getField_fits (s : State) (n : Nat) (h : s.cur + n ≤ s.flen) :
    getField s n = ({ s with cur := s.cur + n }, some (Memory.readNat s.fbuf s.cur n)) := by
  simp [getField, State.fits, State.advance, h]

theorem getField_overrun (s : State) (n : Nat) (h : s.flen < s.cur + n) :
    getField s n = ({ s with cur := s.cur + n }, none) := by
  simp [getField, State.fits, State.advance, Nat.not_le.mpr h]

/-- A `PUT_*` that fits lays its field (R104 to R108). -/
theorem putOutcome_laid (s : State) (bs : List Byte) (hwf : Memory.wf s.fbuf) (h : s.cur + bs.length ≤ s.flen) :
    ∃ t, putOutcome s bs = .next t ∧ FieldLaid s t bs := by
  refine ⟨_, rfl, ?_⟩
  rw [putField_fits s bs h]
  refine ⟨rfl, fun i hi => ?_, fun a ha => ?_⟩
  · exact Memory.read_writeBytes_inside s.fbuf hwf s.cur i bs hi
  · exact Memory.read_writeBytes_outside _ _ _ _ ha

theorem halfBytes_ofInt (n : Int) : halfBytes (BitVec.ofInt 16 n) = [BitVec.ofInt 8 (n / 256), BitVec.ofInt 8 n] := by
  rw [halfBytes_eq]
  simp only [List.cons.injEq, and_true]
  constructor <;> apply BitVec.eq_of_toNat_eq <;>
    simp [BitVec.extractLsb'_toNat, Nat.shiftRight_eq_div_pow, BitVec.toNat_ofInt] <;> omega

theorem wordBytes_ofInt (n : Int) : wordBytes (BitVec.ofInt 32 n) = [BitVec.ofInt 8 (n / 16777216), BitVec.ofInt 8 (n / 65536), BitVec.ofInt 8 (n / 256), BitVec.ofInt 8 n] := by
  rw [wordBytes_eq]
  simp only [List.cons.injEq, and_true]
  refine ⟨?_, ?_, ?_, ?_⟩ <;> apply BitVec.eq_of_toNat_eq <;>
    simp [BitVec.extractLsb'_toNat, Nat.shiftRight_eq_div_pow, BitVec.toNat_ofInt] <;> omega

/-- A `PUT_*` that does not fit only moves the cursor (R102). -/
theorem putOutcome_overrun (s : State) (bs : List Byte) (h : s.flen < s.cur + bs.length) : ∃ t, putOutcome s bs = .next t ∧ t = { s with cur := s.cur + bs.length, status := .codecOverrun, result := .empty, returns := t.returns } := by
  refine ⟨_, rfl, ?_⟩; rw [putField_overrun s bs h]; rfl

/-- A `GET_*` that does not fit only moves the cursor and returns no value (R102). -/
theorem getOutcome_overrun (s : State) (n : Nat) (f) (h : s.flen < s.cur + n) : ∃ t, getOutcome s n f = .next t ∧ t = { s with cur := s.cur + n, status := .codecOverrun, result := .empty, returns := t.returns } := by
  unfold getOutcome; rw [getField_overrun s n h]; exact ⟨_, rfl, rfl⟩

/-- A `GET_*` that fits returns its view of the number at the cursor (R109 to R113). -/
theorem getOutcome_read (s : State) (n : Nat) (f) (h : s.cur + n ≤ s.flen) : ∃ t, getOutcome s n f = .next t ∧ FieldRead s t n (f (Memory.readNat s.fbuf s.cur n)) := by
  unfold getOutcome; rw [getField_fits s n h]; exact ⟨_, rfl, rfl⟩

theorem readNat_two (m : Memory) (a : Nat) : Memory.readNat m a 2 = (Memory.read m a).toNat * 256 + (Memory.read m (a+1)).toNat := by
  simp [Memory.readNat, Memory.readBytes, beNat]

theorem readNat_four (m : Memory) (a : Nat) : Memory.readNat m a 4 = (Memory.read m a).toNat * 16777216 + (Memory.read m (a+1)).toNat * 65536 + (Memory.read m (a+2)).toNat * 256 + (Memory.read m (a+3)).toNat := by
  simp [Memory.readNat, Memory.readBytes, beNat]; ring

theorem sint_half (u : Nat) (hu : u < 65536) : -32768 ≤ sint 16 u ∧ sint 16 u ≤ 32767 ∧ sint 16 u % 65536 = u := by
  unfold sint; split <;> omega

theorem sint_word (u : Nat) (hu : u < 4294967296) : -2147483648 ≤ sint 32 u ∧ sint 32 u ≤ 2147483647 ∧ sint 32 u % 4294967296 = u := by
  unfold sint; split <;> omega

/-! ### The payload built -/

@[simp] theorem openBytes_length (byteAt : Nat → Byte) (a n : Nat) : (openBytes byteAt a n).length = n := by
  induction n generalizing a with
  | zero => rfl
  | succ n ih => simp [openBytes, ih]

@[simp] theorem Memory.viewBytes_length (m : Memory) (known total : Nat) (byteAt : Nat → Byte) :
    (Memory.viewBytes m known total byteAt).length = total := by
  simp [Memory.viewBytes]; omega

/-- A view whose bytes all have a defined value is the buffer's. -/
theorem Memory.viewBytes_of_le (m : Memory) (known total : Nat) (byteAt : Nat → Byte) (h : total ≤ known) :
    Memory.viewBytes m known total byteAt = Memory.readBytes m 0 total := by
  simp [Memory.viewBytes, h, Nat.sub_eq_zero_of_le h, openBytes]

/-- Every byte of a view that has a defined value is the buffer's. -/
theorem Memory.viewBytes_getElem? (m : Memory) (known total : Nat) (byteAt : Nat → Byte) (a : Nat) (ht : a < total)
    (hk : a < known) : (Memory.viewBytes m known total byteAt)[a]? = some (Memory.read m a) := by
  have h : a < (Memory.readBytes m 0 (min total known)).length := by simp; omega
  rw [Memory.viewBytes, List.getElem?_append_left h, List.getElem?_eq_getElem h, Memory.getElem_readBytes, Nat.zero_add]

/-- The payload built has as many bytes as the cursor says (R101). -/
@[simp] theorem State.built_length (s : State) : s.built.length = s.cur := Memory.viewBytes_length _ _ _ _

/-- As long as nothing overran, the payload built is what stands in `FBUF` (R101). -/
theorem State.built_of_le (s : State) (h : s.cur ≤ s.flen) : s.built = Memory.readBytes s.fbuf 0 s.cur :=
  Memory.viewBytes_of_le _ _ _ _ h

/-- Every byte of the payload built that lies inside `FBUF` is the one that stands there (R101). -/
theorem State.built_getElem? (s : State) (a : Nat) (hc : a < s.cur) (hf : a < s.flen) :
    s.built[a]? = some (Memory.read s.fbuf a) := Memory.viewBytes_getElem? _ _ _ _ a hc hf

@[simp] theorem State.rxBytes_length (s : State) : s.rxBytes.length = 256 := Memory.viewBytes_length _ _ _ _

/-- Every byte of `RXBUF` that this read has buffered is the one that stands there (R17, R18). -/
theorem State.rxBytes_getElem? (s : State) (a : Nat) (h : a < 256) (hc : a < s.rxcnt) :
    s.rxBytes[a]? = some (Memory.read s.rxbuf a) := Memory.viewBytes_getElem? _ _ _ _ a h hc

/-- Bytes of `RXBUF` that this read has buffered, from one offset on (R17, R18). -/
theorem State.rxBytes_slice (s : State) (a n : Nat) (h : a + n ≤ 256) (hc : a + n ≤ s.rxcnt) :
    (s.rxBytes.drop a).take n = Memory.readBytes s.rxbuf a n := by
  refine List.ext_getElem (by simp; omega) fun i hi hj => ?_
  have hi' : i < n := by simpa using hj
  have e := s.rxBytes_getElem? (a + i) (by omega) (by omega)
  rw [List.getElem_take, List.getElem_drop, Memory.getElem_readBytes]
  rw [List.getElem?_eq_getElem (by simp; omega)] at e
  exact Option.some.inj e

/-- A field laid where it fits is read back: rebinding the bytes built so far keeps every byte of them (R101, R114). -/
theorem readsBack_put (s t : State) (bs : List Byte) (get : Instr) (view : Nat → Result) (hi : s.busy = false)
    (hwf : Memory.wf s.fbuf) (h : s.cur + bs.length ≤ s.flen) (hp : putOutcome s bs = .next t)
    (hget : ∀ v : State, v.busy = false → exec get v = getOutcome v bs.length view) :
    ReadsBack s t get (view (beNat bs)) := by
  have ht : t = ({ s with fbuf := Memory.writeBytes s.fbuf s.cur bs, cur := s.cur + bs.length } : State).ret .ok .empty := by
    simp only [putOutcome, putField_fits s bs h, Host.Outcome.next.injEq] at hp
    exact hp.symm
  have hc : t.cur = s.cur + bs.length := by rw [ht]; rfl
  have hf : t.fbuf = Memory.writeBytes s.fbuf s.cur bs := by rw [ht]; rfl
  have hb : t.busy = false := by rw [ht]; exact hi
  have hfl : t.flen = s.flen := by rw [ht]; rfl
  have hu : exec (.curReset .built t.cur) t = .next ((t.bind t.built t.cur).ret .ok .empty) := by
    exact whenIdle_of_idle _ _ hb
  set u : State := (t.bind t.built t.cur).ret .ok .empty with hue
  have hv : exec (.skip s.cur) u = .next ((u.advance s.cur).ret .ok .empty) := whenIdle_of_idle _ _ hb
  set v : State := (u.advance s.cur).ret .ok .empty with hve
  have hvc : v.cur = s.cur := Nat.zero_add _
  have hvf : v.flen = s.cur + bs.length := hc
  have hread : Memory.readBytes v.fbuf v.cur bs.length = bs := by
    have e : v.fbuf = Memory.ofBytes t.built := by
      show Memory.ofBytes (t.built.take t.cur) = _
      rw [List.take_of_length_le (by simp)]
    have e2 : t.built = Memory.readBytes t.fbuf 0 s.cur ++ bs := by
      rw [State.built_of_le _ (by rw [hc, hfl]; exact h), hc, Memory.readBytes_append, Nat.zero_add, hf, Memory.readBytes_writeBytes _ hwf]
    have e3 := Memory.readBytes_ofBytes t.built
    rw [e2, List.length_append, Memory.readBytes_append, Memory.readBytes_length] at e3
    have := (List.append_inj e3 (by simp)).2
    rw [e, hvc, e2]
    simpa using this
  have hget' := hget v hb
  rw [getOutcome, getField_fits v bs.length (by rw [hvc, hvf])] at hget'
  refine ⟨u, v, _, hu, hv, hget', ?_⟩
  show view (Memory.readNat v.fbuf v.cur bs.length) = _
  rw [Memory.readNat, hread]

/-- The payload laid down by fields that fit is their concatenation (R121). -/
theorem putFields_spec (s : State) (fields : List (List Byte)) (hwf : Memory.wf s.fbuf)
    (h : s.cur + fields.flatten.length ≤ s.flen) :
    putFields s fields =
        { s with fbuf := (putFields s fields).fbuf, cur := s.cur + fields.flatten.length } ∧
      Memory.wf (putFields s fields).fbuf ∧
      Memory.readBytes (putFields s fields).fbuf s.cur fields.flatten.length = fields.flatten ∧
      (∀ a, a < s.cur → Memory.read (putFields s fields).fbuf a = Memory.read s.fbuf a) ∧
      (∀ n, Memory.below s.fbuf n → s.cur + fields.flatten.length ≤ n → Memory.below (putFields s fields).fbuf n) := by
  induction fields generalizing s with
  | nil => exact ⟨by simp [putFields], hwf, rfl, fun _ _ => rfl, fun n h _ => h⟩
  | cons bs rest ih =>
    simp only [List.flatten_cons, List.length_append] at h
    simp only [putFields]
    rw [putField_fits s bs (by omega)]
    set s' : State := { s with fbuf := Memory.writeBytes s.fbuf s.cur bs, cur := s.cur + bs.length } with hs'
    obtain ⟨h1, h2, h3, h4, h5⟩ := ih s' (Memory.wf_writeBytes _ hwf _ _)
      (by show s.cur + bs.length + rest.flatten.length ≤ s.flen; omega)
    refine ⟨?_, h2, ?_, fun a ha => ?_, fun n hb hn => ?_⟩
    · rw [h1]; simp [hs', Nat.add_assoc]
    · simp only [List.flatten_cons, List.length_append]
      rw [Memory.readBytes_append]
      have e3 : Memory.readBytes (putFields s' rest).fbuf (s.cur + bs.length) rest.flatten.length = rest.flatten := h3
      rw [e3]
      congr 1
      rw [Memory.readBytes_congr _ (Memory.writeBytes s.fbuf s.cur bs) _ _ fun i hi => h4 (s.cur + i) (by simp [hs']; omega)]
      exact Memory.readBytes_writeBytes _ hwf _ _
    · rw [h4 a (by simp [hs']; omega)]
      exact Memory.read_writeBytes_outside _ _ _ _ (by omega)
    · simp only [List.flatten_cons, List.length_append] at hn
      exact h5 n (Memory.below_writeBytes _ _ _ _ hb (by omega))
        (by show s.cur + bs.length + rest.flatten.length ≤ n; omega)

/-- A payload laid down from its start stands in `FBUF`, with the cursor at its end (R200). -/
theorem layOut_spec (s : State) (fields : List (List Byte)) :
    layOut s fields =
        { s with
          fbuf := (layOut s fields).fbuf
          flen := fields.flatten.length
          cur := fields.flatten.length } ∧
      Memory.wf (layOut s fields).fbuf ∧ Memory.below (layOut s fields).fbuf fields.flatten.length ∧
      Memory.readBytes (layOut s fields).fbuf 0 fields.flatten.length = fields.flatten := by
  have hbind : (s.bind [] fields.flatten.length).fbuf = [] := by
    simp [State.bind, Memory.ofBytes, Memory.writeBytes]
  obtain ⟨h1, h2, h3, -, h5⟩ :=
    putFields_spec (s.bind [] fields.flatten.length) fields (by rw [hbind]; exact Memory.wf_nil)
      (by simp)
  refine ⟨?_, h2, h5 _ (by rw [hbind]; exact Memory.below_nil _) (by simp), h3⟩
  have e : layOut s fields = putFields (s.bind [] fields.flatten.length) fields := rfl
  rw [e, h1]
  simp [State.bind]

/-- The payload built after laying one down is that payload: what a wrapper hands to `SEND` (R200). -/
theorem layOut_built (s : State) (fields : List (List Byte)) : (layOut s fields).built = fields.flatten := by
  obtain ⟨h1, -, -, h4⟩ := layOut_spec s fields
  have hc : (layOut s fields).cur = fields.flatten.length := by rw [h1]
  have hf : (layOut s fields).flen = fields.flatten.length := by rw [h1]
  rw [State.built_of_le _ (by rw [hc, hf]), hc, h4]

/-- The same with the buffer named, to rewrite with. -/
theorem layOut_eq (s : State) (fields : List (List Byte)) :
    ∃ buf, layOut s fields = { s with fbuf := buf, flen := fields.flatten.length, cur := fields.flatten.length } ∧
      Memory.wf buf ∧ Memory.below buf fields.flatten.length ∧
      Memory.readBytes buf 0 fields.flatten.length = fields.flatten := by
  obtain ⟨h1, h2, h3, h4⟩ := layOut_spec s fields
  exact ⟨_, h1, h2, h3, h4⟩

end Sys2Proof.Machine
end

