-- ==== Sys2Proof/Laws/Command.lean ====
section
/-! SUPPORT. What the codec reads inside a layout give when the field area holds them, and the two layouts as wholes. -/

namespace Sys2Proof.Machine

/-- A signed scaled 16-bit field (R109). -/
theorem si16_fits (s : State) (k : Nat) (h : s.cur + 2 ≤ s.flen) :
    Layout.si16 k s =
      ({ s with cur := s.cur + 2 }, some (((BitVec.ofNat 16 (Memory.readNat s.fbuf s.cur 2)).toInt : Rat) / k)) := by
  simp only [Layout.si16, getField_fits s 2 h, Option.map_some, scaled_eq]
  rw [sint_eq_toInt 16 _ (by omega) (readNat_lt _ _ _)]

/-- A signed scaled 32-bit field (R110). -/
theorem si32_fits (s : State) (k : Nat) (h : s.cur + 4 ≤ s.flen) :
    Layout.si32 k s =
      ({ s with cur := s.cur + 4 }, some (((BitVec.ofNat 32 (Memory.readNat s.fbuf s.cur 4)).toInt : Rat) / k)) := by
  simp only [Layout.si32, getField_fits s 4 h, Option.map_some, scaled_eq]
  rw [sint_eq_toInt 32 _ (by omega) (readNat_lt _ _ _)]

/-- A signed 32-bit field (R111). -/
theorem i32_fits (s : State) (h : s.cur + 4 ≤ s.flen) :
    Layout.i32 s = ({ s with cur := s.cur + 4 }, some ((BitVec.ofNat 32 (Memory.readNat s.fbuf s.cur 4)).toInt)) := by
  simp only [Layout.i32, getField_fits s 4 h, Option.map_some]
  rw [sint_eq_toInt 32 _ (by omega) (readNat_lt _ _ _)]

/-- A byte field (R113). -/
theorem u8_fits (s : State) (h : s.cur + 1 ≤ s.flen) :
    Layout.u8 s = ({ s with cur := s.cur + 1 }, some (Memory.read s.fbuf s.cur)) := by
  simp only [Layout.u8, getField_fits s 1 h, Option.map_some]
  simp [Memory.readNat, Memory.readBytes, beNat]

/-- A sequence goes on behind a read that gave a value. -/
theorem andThen_some {α β : Type} (m : Layout α) (k : α → Layout β) (s s' : State) (a : α) (h : m s = (s', some a)) :
    m.andThen k s = k a s' := by simp [Layout.andThen, h]

/-- Layout L-FWVER read from the start of a field area that holds it whole (R188). -/
theorem layoutFwver_fits (s : State) (hc : s.cur = 0) (h : 2 ≤ s.flen) :
    layoutFwver s = ({ s with cur := 2 }, some ⟨Memory.read s.fbuf 0, Memory.read s.fbuf 1⟩) := by
  unfold layoutFwver
  rw [andThen_some _ _ _ _ _ (u8_fits s (by omega))]
  simp only [hc, Nat.zero_add]
  rw [andThen_some _ _ _ _ _ (u8_fits _ (by simp only; omega))]
  rfl

/-- Layout L-TELEM read from the start of a field area that holds it whole: every field from its place (R189). -/
theorem layoutTelem_fits (s : State) (p : Params) (hc : s.cur = 0) (h : 58 ≤ s.flen) :
    let i16 : Nat → Int := fun a => (BitVec.ofNat 16 (Memory.readNat s.fbuf a 2)).toInt
    let i32 : Nat → Int := fun a => (BitVec.ofNat 32 (Memory.readNat s.fbuf a 4)).toInt
    layoutTelem p s =
      ({ s with cur := 58 }, some
        { tempMotor := (i16 0 : Rat) / p.scTemp
          tempController := (i16 2 : Rat) / p.scTemp
          avgMotorCurrent := (i32 4 : Rat) / p.scCurrent
          avgInputCurrent := (i32 8 : Rat) / p.scCurrent
          dutyCycle := (i16 20 : Rat) / p.scDuty
          rpm := i32 22
          inputVoltage := (i16 26 : Rat) / p.scVin
          ampHours := (i32 28 : Rat) / p.scEnergy
          ampHoursCharged := (i32 32 : Rat) / p.scEnergy
          wattHours := (i32 36 : Rat) / p.scEnergy
          wattHoursCharged := (i32 40 : Rat) / p.scEnergy
          tachometer := i32 44
          tachometerAbs := i32 48
          faultCode := Memory.read s.fbuf 52
          position := (i32 53 : Rat) / p.scPos
          controllerId := Memory.read s.fbuf 57 }) := by
  intro i16 i32
  unfold layoutTelem
  rw [andThen_some _ _ _ _ _ (si16_fits s _ (by omega))]
  simp only [hc, Nat.zero_add]
  rw [andThen_some _ _ _ _ _ (si16_fits _ _ (by simp only; omega))]
  rw [andThen_some _ _ _ _ _ (si32_fits _ _ (by simp only; omega))]
  rw [andThen_some _ _ _ _ _ (si32_fits _ _ (by simp only; omega))]
  rw [andThen_some _ _ _ _ _ rfl]
  rw [andThen_some _ _ _ _ _ rfl]
  rw [andThen_some _ _ _ _ _ (si16_fits _ _ (by simp only [State.advance]; omega))]
  rw [andThen_some _ _ _ _ _ (i32_fits _ (by simp only [State.advance]; omega))]
  rw [andThen_some _ _ _ _ _ (si16_fits _ _ (by simp only [State.advance]; omega))]
  rw [andThen_some _ _ _ _ _ (si32_fits _ _ (by simp only [State.advance]; omega))]
  rw [andThen_some _ _ _ _ _ (si32_fits _ _ (by simp only [State.advance]; omega))]
  rw [andThen_some _ _ _ _ _ (si32_fits _ _ (by simp only [State.advance]; omega))]
  rw [andThen_some _ _ _ _ _ (si32_fits _ _ (by simp only [State.advance]; omega))]
  rw [andThen_some _ _ _ _ _ (i32_fits _ (by simp only [State.advance]; omega))]
  rw [andThen_some _ _ _ _ _ (i32_fits _ (by simp only [State.advance]; omega))]
  rw [andThen_some _ _ _ _ _ (u8_fits _ (by simp only [State.advance]; omega))]
  rw [andThen_some _ _ _ _ _ (si32_fits _ _ (by simp only [State.advance]; omega))]
  rw [andThen_some _ _ _ _ _ (u8_fits _ (by simp only [State.advance]; omega))]
  rfl

end Sys2Proof.Machine
end

