-- ==== Sys2Proof/Laws/Crc.lean ====
section
/-! SUPPORT. The CRC update is linear and its shift loses nothing: the facts under R93 and R94. -/

namespace Sys2Proof.Machine

theorem crcShift_xor (a b : Half) : crcShift (a ^^^ b) = crcShift a ^^^ crcShift b := by
  unfold crcShift
  rw [BitVec.msb_xor, BitVec.shiftLeft_xor_distrib]
  cases a.msb <;> cases b.msb <;> simp
  · rw [BitVec.xor_assoc]
  · rw [BitVec.xor_assoc, BitVec.xor_assoc, BitVec.xor_comm (b <<< 1)]
  · generalize a <<< 1 = x
    generalize b <<< 1 = y
    rw [BitVec.xor_assoc x, ← BitVec.xor_assoc 4129#16 y, BitVec.xor_comm 4129#16 y, BitVec.xor_assoc y,
      BitVec.xor_self, BitVec.xor_zero]

theorem crcShifts_xor (n : Nat) (a b : Half) : crcShifts n (a ^^^ b) = crcShifts n a ^^^ crcShifts n b := by
  induction n generalizing a b with
  | zero => rfl
  | succ n ih => simp only [crcShifts, crcShift_xor, ih]

theorem crcShifts_zero (n : Nat) : crcShifts n 0 = 0 := by
  induction n with
  | zero => rfl
  | succ n ih => rw [crcShifts, show crcShift 0 = 0 by decide, ih]

/-- The polynomial's lowest bit is set, so a shift never loses a non-zero accumulator (R91, R94). -/
theorem crcShift_ne_zero (c : Half) (h : c ≠ 0) : crcShift c ≠ 0 := by
  unfold crcShift
  split
  · intro h0
    have := congrArg (fun x : Half => x.getLsbD 0) h0
    simp [Config.crcPoly] at this
  · rename_i hm
    intro h0
    apply h
    apply BitVec.eq_of_getLsbD_eq
    intro i hi
    rcases Nat.lt_or_ge i 15 with h15 | h15
    · have := congrArg (fun x : Half => x.getLsbD (i + 1)) h0
      simp at this
      have := this (by omega)
      simpa using this
    · have : i = 15 := by omega
      subst this
      simpa [BitVec.msb_eq_getLsbD_last] using hm

theorem crcShifts_ne_zero (n : Nat) (c : Half) (h : c ≠ 0) : crcShifts n c ≠ 0 := by
  induction n generalizing c with
  | zero => exact h
  | succ n ih => exact ih _ (crcShift_ne_zero c h)

/-- The byte update is linear in the accumulator and the byte together (R91, R93). -/
theorem crcByte_xor (c d : Half) (a b : Byte) : crcByte (c ^^^ d) (a ^^^ b) = crcByte c a ^^^ crcByte d b := by
  unfold crcByte
  rw [← crcShifts_xor, BitVec.setWidth_xor, BitVec.shiftLeft_xor_distrib]
  congr 1
  generalize BitVec.setWidth 16 a <<< 8 = x
  generalize BitVec.setWidth 16 b <<< 8 = y
  rw [BitVec.xor_assoc, BitVec.xor_assoc, ← BitVec.xor_assoc d, BitVec.xor_comm d x, BitVec.xor_assoc x]

/-- Linearity over byte sequences of equal length (R93 (c)). -/
theorem crcFold_xor (bs cs : List Byte) (c d : Half) (h : bs.length = cs.length) :
    crcFold (c ^^^ d) (List.zipWith (· ^^^ ·) bs cs) = crcFold c bs ^^^ crcFold d cs := by
  induction bs generalizing cs c d with
  | nil => cases cs <;> simp_all [crcFold]
  | cons b bs ih =>
    cases cs with
    | nil => simp at h
    | cons a cs =>
      simp only [List.length_cons, Nat.add_right_cancel_iff] at h
      simp only [List.zipWith_cons_cons, crcFold, crcByte_xor]
      exact ih cs _ _ h

theorem crcFold_append (c : Half) (bs cs : List Byte) : crcFold c (bs ++ cs) = crcFold (crcFold c bs) cs := by
  induction bs generalizing c with
  | nil => rfl
  | cons b bs ih => exact ih _

theorem crcFold_ne_zero (c : Half) (n : Nat) (h : c ≠ 0) : crcFold c (List.replicate n 0) ≠ 0 := by
  induction n generalizing c with
  | zero => exact h
  | succ n ih =>
    refine ih _ ?_
    simpa [crcByte] using crcShifts_ne_zero 8 c h

theorem crcByte_zero_zero : crcByte 0 0 = 0 := by decide

theorem crcFold_zero (n : Nat) : crcFold 0 (List.replicate n 0) = 0 := by
  induction n with
  | zero => rfl
  | succ n ih => simp only [List.replicate_succ, crcFold, crcByte_zero_zero, ih]

/-- Eight shifts of a bare byte in the low half move it to the high half (R91, R92). -/
theorem crcShifts_low (x : Byte) : crcShifts 8 (x.setWidth 16) = x.setWidth 16 <<< 8 := by
  have key : ∀ (n : Nat) (y : Half), y.toNat * 2 ^ n < 65536 → crcShifts n y = y <<< n := by
    intro n
    induction n with
    | zero => intro y _; simp [crcShifts]
    | succ n ih =>
      intro y hy
      have hp : 1 ≤ 2 ^ n := Nat.one_le_two_pow
      rw [pow_succ] at hy
      have hlt : y.toNat * 2 < 65536 := by nlinarith
      have hm : y.msb = false := by
        rw [BitVec.msb_eq_decide]
        simp only [decide_eq_false_iff_not, not_le]
        norm_num
        omega
      have e : crcShift y = y <<< 1 := by simp [crcShift, hm]
      have e2 : (y <<< 1).toNat = y.toNat * 2 := by
        rw [BitVec.toNat_shiftLeft, Nat.shiftLeft_eq]
        simp only [pow_one]
        omega
      rw [crcShifts, e, ih (y <<< 1) (by rw [e2]; nlinarith), ← BitVec.shiftLeft_add, Nat.add_comm]
  refine key 8 _ ?_
  have := x.isLt
  rw [BitVec.toNat_setWidth]
  omega

end Sys2Proof.Machine
end

