-- ==== Sys2Proof/Laws/Encoding.lean ====
section
/-! SUPPORT. Each operand reader takes back what its writer laid down, whatever stands behind it. -/

namespace Sys2Proof

theorem decNat_encNatFuel (fuel n : Nat) (h : n < fuel) (rest : List Byte) :
    decNat (encNatFuel fuel n ++ rest) = some (n, rest) := by
  induction fuel generalizing n with
  | zero => omega
  | succ fuel ih =>
    simp only [encNatFuel]
    split
    · rename_i hn
      have : (BitVec.ofNat 8 n).toNat = n := by simp; omega
      simp [decNat, this, hn]
    · rename_i hn
      have hb : (BitVec.ofNat 8 (n % 128 + 128)).toNat = n % 128 + 128 := by simp; omega
      simp only [List.cons_append, decNat, hb]
      rw [if_neg (by omega), ih (n / 128) (by omega)]
      simp only [Option.some.injEq, Prod.mk.injEq, and_true]
      omega

@[simp] theorem decNat_encNat (n : Nat) (rest : List Byte) : decNat (encNat n ++ rest) = some (n, rest) :=
  decNat_encNatFuel (n + 1) n (Nat.lt_succ_self n) rest

@[simp] theorem decInt_encInt (z : Int) (rest : List Byte) : decInt (encInt z ++ rest) = some (z, rest) := by
  simp only [decInt, encInt, decNat_encNat]
  congr 2
  split <;> split <;> omega

theorem takeBytes_append (bs rest : List Byte) : takeBytes bs.length (bs ++ rest) = some (bs, rest) := by
  simp [takeBytes]

@[simp] theorem decBytes_encBytes (bs rest : List Byte) : decBytes (encBytes bs ++ rest) = some (bs, rest) := by
  simp [decBytes, encBytes, takeBytes_append]

@[simp] theorem decValue_encValue (v : Value) (rest : List Byte) : decValue (encValue v ++ rest) = some (v, rest) := by
  cases v with
  | fin q =>
    have hd : q.den - 1 + 1 = q.den := Nat.sub_add_cancel q.den_pos
    simp [encValue, decValue, decFinite, hd, Rat.mkRat_self]
  | posInf => simp [encValue, decValue]
  | negInf => simp [encValue, decValue]
  | nan => simp [encValue, decValue]

theorem shift_fin (k : Int) (q : Rat) : (Value.fin q).shift k = .fin (q + k) := by
  simp only [Value.shift, Value.fin.injEq]
  have hd : (q.den : Rat) ≠ 0 := by exact_mod_cast q.den_ne_zero
  rw [Rat.mkRat_eq_div]
  push_cast
  rw [add_div, mul_div_assoc, div_self hd, mul_one, Rat.num_div_den]

@[simp] theorem shift_shift (v : Value) : (v.shift (-1)).shift 1 = v := by
  cases v with
  | fin q => simp [shift_fin]
  | posInf => rfl
  | negInf => rfl
  | nan => rfl

@[simp] theorem decScale_encScale (v : Value) (rest : List Byte) : decScale (encScale v ++ rest) = some (v, rest) := by
  simp [decScale, encScale]

@[simp] theorem decSrc_encSrc (s : Src) (rest : List Byte) : decSrc (encSrc s ++ rest) = some (s, rest) := by
  cases s <;> simp [encSrc, decSrc]

@[simp] theorem decFrameSrc_encFrameSrc (s : FrameSrc) (rest : List Byte) :
    decFrameSrc (encFrameSrc s ++ rest) = some (s, rest) := by
  cases s with
  | given src =>
    have h := decSrc_encSrc src rest
    cases src <;> simp_all [encFrameSrc, encSrc, decFrameSrc]
  | rxbuf => rfl

@[simp] theorem decBool_encBool (b : Bool) (rest : List Byte) : decBool (encBool b ++ rest) = some (b, rest) := by
  cases b <;> simp [encBool, decBool]

@[simp] theorem decHalf_encHalf (v : Half) (rest : List Byte) : decHalf (encHalf v ++ rest) = some (v, rest) := by
  have h := takeBytes_append (Machine.beBytes 2 v.toNat) rest
  have hv : v.toNat < 65536 := v.isLt
  rw [Machine.beBytes_length] at h
  simp [decHalf, encHalf, h, Machine.beNat_beBytes, Nat.mod_eq_of_lt hv]

@[simp] theorem decWord_encWord (v : Word) (rest : List Byte) : decWord (encWord v ++ rest) = some (v, rest) := by
  have h := takeBytes_append (Machine.beBytes 4 v.toNat) rest
  have hv : v.toNat < 4294967296 := v.isLt
  rw [Machine.beBytes_length] at h
  simp [decWord, encWord, h, Machine.beNat_beBytes, Nat.mod_eq_of_lt hv]

@[simp] theorem decByte_cons (b : Byte) (rest : List Byte) : decByte (b :: rest) = some (b, rest) := rfl

end Sys2Proof
end

