-- ==== Sys2Proof/Laws/Frame.lean ====
section
/-! SUPPORT. The bytes of a built frame, and what the validator makes of a frame buffer. -/

namespace Sys2Proof.Machine

/-- The two CRC bytes of a frame, high then low (R41). -/
theorem crcBytes_eq (bs : List Byte) : crcBytes bs = [(crc16 bs >>> 8).setWidth 8, (crc16 bs).setWidth 8] := by
  simp only [crcBytes, beBytes, List.cons.injEq, and_true]
  constructor <;> apply BitVec.eq_of_toNat_eq <;> simp [Nat.shiftRight_eq_div_pow]

@[simp] theorem crcBytes_length (bs : List Byte) : (crcBytes bs).length = 2 := beBytes_length _ _

/-- The two CRC bytes, read as a number, are the CRC (R65). -/
@[simp] theorem beNat_crcBytes (bs : List Byte) : beNat (crcBytes bs) = (crc16 bs).toNat := by
  have h : (crc16 bs).toNat < 65536 := (crc16 bs).isLt
  simp [crcBytes, beNat_beBytes, Nat.mod_eq_of_lt h]

theorem frameOf_eq (q : List Byte) : frameOf q = frameBytes q := by
  unfold frameOf frameBytes Config.shortMax
  split <;> simp [frameShort, frameLong, crcBytes_eq, beBytes, Config.markerShort, Config.markerLong, Config.terminator]

theorem frameShort_eq (q : List Byte) (h : q.length ≤ 256) : frameShort q = frameBytes q := by
  rw [← frameOf_eq, frameOf, if_pos h]

theorem framed_eq (s : State) (fwd : Byte) (payload : List Byte) :
    framed s.params fwd payload = withHeader s fwd payload := by
  unfold framed withHeader
  split <;> simp

theorem frameShort_length (q : List Byte) : (frameShort q).length = q.length + 5 := by
  simp [frameShort]

/-- The structure check accepts exactly a marker 2 with a fitting length byte (R176). -/
theorem shortFrame_iff (frame : List Byte) (n : Nat) :
    shortFrame frame n = true ↔
      frame[0]? = some 0x02 ∧ frame[1]?.map (fun len => len.toNat + 5) = some n ∧ n ≤ frame.length := by
  match frame with
  | [] => simp [shortFrame]
  | [a] => simp [shortFrame]
  | a :: b :: rest =>
    simp [shortFrame, Config.markerShort, Config.shortOverhead]
    exact fun _ _ => eq_comm

/-- What the validator leaves when the structure check passes: the payload copied over `PAYBUF`, then the verdict of the
CRC over what was copied (R175, R177). -/
theorem unpackFrame_short (s : State) (frame : List Byte) (n : Nat) (len : Byte) (hwf : Memory.wf s.paybuf)
    (h0 : frame[0]? = some 0x02) (h1 : frame[1]? = some len) (hn : n = len.toNat + 5) (hle : n ≤ frame.length) :
    unpackFrame s frame n =
      ({ s with
          paybuf := Memory.writeBytes s.paybuf 0 ((frame.drop 2).take len.toNat)
          paylen := len
          crc := crc16 ((frame.drop 2).take len.toNat) },
        if (crc16 ((frame.drop 2).take len.toNat)).toNat = beNat ((frame.drop (n - 3)).take 2) then .ok
        else .integrityFailure) := by
  have hs : shortFrame frame n = true := (shortFrame_iff frame n).mpr ⟨h0, by simp [h1, hn], hle⟩
  have hlen : frame.getD 1 0 = len := by simp [List.getD_eq_getElem?_getD, h1]
  have hl : ((frame.drop 2).take len.toNat).length = len.toNat := by simp; omega
  have hcopy : Memory.readBytes (Memory.writeBytes s.paybuf 0 ((frame.drop 2).take len.toNat)) 0 len.toNat =
      (frame.drop 2).take len.toNat := by
    have := Memory.readBytes_writeBytes s.paybuf hwf 0 ((frame.drop 2).take len.toNat)
    rwa [hl] at this
  simp only [unpackFrame, hs, if_true, hlen, hcopy]

theorem unpackFrame_bad (s : State) (frame : List Byte) (n : Nat) (h : shortFrame frame n = false) :
    unpackFrame s frame n = (s, .structuralReject) := by
  simp [unpackFrame, h]

/-- The parts of a short frame that stand at fixed places (R47). -/
theorem frameShort_parts (q : List Byte) :
    (frameShort q)[0]? = some 0x02 ∧ (frameShort q)[1]? = some (BitVec.ofNat 8 q.length) ∧
      ((frameShort q).drop 2).take q.length = q ∧
      ((frameShort q).drop (q.length + 2)).take 2 = crcBytes q ∧
      (frameShort q)[q.length + 4]? = some 0x03 := by
  have e : frameShort q = 0x02 :: BitVec.ofNat 8 q.length :: (q ++ (crcBytes q ++ [0x03])) := by
    simp [frameShort, Config.markerShort, Config.terminator]
  refine ⟨by simp [e], by simp [e], by simp [e], ?_, ?_⟩
  · rw [e, show q.length + 2 = (q.length + 1) + 1 from rfl, List.drop_succ_cons, List.drop_succ_cons,
      List.drop_left]
    exact List.take_left' (by simp)
  · rw [e]
    simp

/-- The validator accepts what the builder built (R178 (a)). -/
theorem unpackFrame_frameShort (s : State) (q : List Byte) (hwf : Memory.wf s.paybuf) (hq : q.length ≤ 255) :
    unpackFrame s (frameShort q) (q.length + 5) =
      ({ s with
          paybuf := Memory.writeBytes s.paybuf 0 q
          paylen := BitVec.ofNat 8 q.length
          crc := crc16 q }, .ok) := by
  obtain ⟨h0, h1, h2, h3, -⟩ := frameShort_parts q
  have hl : (BitVec.ofNat 8 q.length).toNat = q.length := by simp; omega
  have := unpackFrame_short s (frameShort q) (q.length + 5) _ hwf h0 h1 (by rw [hl])
    (by rw [frameShort_length])
  rw [this, hl, h2, show q.length + 5 - 3 = q.length + 2 by omega, h3]
  simp

/-- What a `SEND` comes to (R137, R138). -/
theorem sendFrame_bound (s : State) (payload : List Byte) (fwd : Byte) (hb : s.cfgBound = true)
    (h : (framed s.params fwd payload).length ≤ 65535) :
    sendFrame s payload fwd =
      .ok ((buildFrame s (framed s.params fwd payload)).transmit (frameOf (framed s.params fwd payload)), .ok,
        s.writeCount (frameOf (framed s.params fwd payload))) := by
  simp [sendFrame, hb, h]

theorem sendFrame_unbound (s : State) (payload : List Byte) (fwd : Byte) (hb : s.cfgBound = false) :
    sendFrame s payload fwd = .ok (s, .transportUnbound, 0) := by
  simp [sendFrame, hb]

theorem sendFrame_long (s : State) (payload : List Byte) (fwd : Byte) (hb : s.cfgBound = true)
    (h : 65535 < (framed s.params fwd payload).length) : sendFrame s payload fwd = .error .frameTooLong := by
  simp [sendFrame, hb, Nat.not_le.mpr h]

end Sys2Proof.Machine
end

