-- ==== Sys2Proof/Laws/Quiet.lean ====
section
/-! SUPPORT. What an operation that is one call by itself can do to the state, said once: the codec, the CRC engine, the
builder, the validator and the command codec touch their own registers and buffers and nothing else. -/

namespace Sys2Proof.Machine

/-- `t` is `s` but for the registers of the codec, the CRC engine, the validator and the builder and the two records; the
link's log has only grown, and the buffers are as canonical and as bounded as they were. -/
structure Quiet (s t : State) : Prop where
  frame : t = { s with
    fbuf := t.fbuf, flen := t.flen, cur := t.cur, crc := t.crc, paybuf := t.paybuf, paylen := t.paylen,
    txbuf := t.txbuf, txlog := t.txlog, snap := t.snap, fwv := t.fwv }
  log : ∃ sent, t.txlog = s.txlog ++ sent
  fbuf_wf : Memory.wf s.fbuf → Memory.wf t.fbuf
  fbuf_below : Memory.below s.fbuf s.flen → Memory.below t.fbuf t.flen
  paybuf_wf : Memory.wf s.paybuf → Memory.wf t.paybuf
  paybuf_below : Memory.below s.paybuf Config.payCap → Memory.below t.paybuf Config.payCap

theorem Quiet.refl (s : State) : Quiet s s := ⟨rfl, ⟨[], by simp⟩, id, id, id, id⟩

theorem Quiet.trans {s t u : State} (h : Quiet s t) (k : Quiet t u) : Quiet s u := by
  refine ⟨?_, ?_, k.fbuf_wf ∘ h.fbuf_wf, k.fbuf_below ∘ h.fbuf_below, k.paybuf_wf ∘ h.paybuf_wf,
    k.paybuf_below ∘ h.paybuf_below⟩
  · conv_lhs => rw [k.frame, h.frame]
  · obtain ⟨a, ha⟩ := h.log
    obtain ⟨b, hb⟩ := k.log
    exact ⟨a ++ b, by rw [hb, ha, List.append_assoc]⟩

/-- Both records are as they were. -/
def RecordsKept (s t : State) : Prop := t.snap = s.snap ∧ t.fwv = s.fwv

/-- What a decode does to the records (R28, R29, R190): with status `Ok` it writes one of them whole, else neither. -/
def RecordsDecoded (s t : State) (st : Status) : Prop :=
  RecordsKept s t ∨ (st = .ok ∧ ((t.snap = s.snap ∧ ∃ v, t.fwv = some v) ∨ (t.fwv = s.fwv ∧ ∃ v, t.snap = some v)))

theorem RecordsKept.refl (s : State) : RecordsKept s s := ⟨rfl, rfl⟩

theorem RecordsKept.trans {s t u : State} (h : RecordsKept s t) (k : RecordsKept t u) : RecordsKept s u :=
  ⟨k.1.trans h.1, k.2.trans h.2⟩

theorem RecordsKept.decoded {s t u : State} {st : Status} (h : RecordsKept s t) (k : RecordsDecoded t u st) :
    RecordsDecoded s u st := by
  obtain ⟨h1, h2⟩ := h
  rcases k with k | ⟨k, k' | k'⟩
  · exact .inl ⟨k.1.trans h1, k.2.trans h2⟩
  · exact .inr ⟨k, .inl ⟨k'.1.trans h1, k'.2⟩⟩
  · exact .inr ⟨k, .inr ⟨k'.1.trans h2, k'.2⟩⟩

/-! ### The codec -/

theorem advance_quiet (s : State) (n : Nat) : Quiet s (s.advance n) ∧ RecordsKept s (s.advance n) :=
  ⟨⟨rfl, ⟨[], by simp [State.advance]⟩, id, id, id, id⟩, rfl, rfl⟩

theorem putField_quiet (s : State) (bs : List Byte) : Quiet s (putField s bs).1 ∧ RecordsKept s (putField s bs).1 := by
  by_cases h : s.cur + bs.length ≤ s.flen
  · rw [putField_fits s bs h]
    exact ⟨⟨rfl, ⟨[], by simp⟩, fun hw => Memory.wf_writeBytes _ hw _ _,
      fun hb => Memory.below_writeBytes _ _ _ _ hb h, id, id⟩, rfl, rfl⟩
  · rw [putField_overrun s bs (by omega)]
    exact advance_quiet s bs.length

theorem getField_quiet (s : State) (n : Nat) : Quiet s (getField s n).1 ∧ RecordsKept s (getField s n).1 := by
  unfold getField
  split <;> exact advance_quiet s n

theorem bind_quiet (s : State) (buf : List Byte) (len : Nat) :
    Quiet s (s.bind buf len) ∧ RecordsKept s (s.bind buf len) :=
  ⟨⟨rfl, ⟨[], by simp [State.bind]⟩, fun _ => Memory.wf_ofBytes _,
    fun _ => Memory.below_ofBytes _ _ (by simp [State.bind]), id, id⟩, rfl, rfl⟩

theorem putFields_quiet (s : State) (fields : List (List Byte)) :
    Quiet s (putFields s fields) ∧ RecordsKept s (putFields s fields) := by
  induction fields generalizing s with
  | nil => exact ⟨Quiet.refl s, RecordsKept.refl s⟩
  | cons bs rest ih =>
    have h := putField_quiet s bs
    exact ⟨h.1.trans (ih _).1, h.2.trans (ih _).2⟩

theorem layOut_quiet (s : State) (fields : List (List Byte)) :
    Quiet s (layOut s fields) ∧ RecordsKept s (layOut s fields) :=
  ⟨(bind_quiet s _ _).1.trans (putFields_quiet _ _).1, (bind_quiet s _ _).2.trans (putFields_quiet _ _).2⟩

/-! ### The CRC engine, the builder, the validator -/

theorem withCrc_quiet (s : State) (bs : List Byte) : Quiet s (s.withCrc bs) ∧ RecordsKept s (s.withCrc bs) :=
  ⟨⟨rfl, ⟨[], by simp [State.withCrc]⟩, id, id, id, id⟩, rfl, rfl⟩

theorem buildFrame_quiet (s : State) (q : List Byte) : Quiet s (buildFrame s q) ∧ RecordsKept s (buildFrame s q) :=
  ⟨⟨rfl, ⟨[], by simp [buildFrame, State.withCrc]⟩, id, id, id, id⟩, rfl, rfl⟩

theorem transmit_quiet (s : State) (bs : List Byte) : Quiet s (s.transmit bs) ∧ RecordsKept s (s.transmit bs) :=
  ⟨⟨rfl, ⟨_, rfl⟩, id, id, id, id⟩, rfl, rfl⟩

theorem sendFrame_quiet (s : State) (payload : List Byte) (fwd : Byte) (r : State × Status × Nat)
    (h : sendFrame s payload fwd = .ok r) : Quiet s r.1 ∧ RecordsKept s r.1 := by
  unfold sendFrame at h
  split at h
  · split at h
    · cases h
      exact ⟨(buildFrame_quiet s _).1.trans (transmit_quiet _ _).1, (buildFrame_quiet s _).2.trans (transmit_quiet _ _).2⟩
    · cases h
  · cases h
    exact ⟨Quiet.refl s, RecordsKept.refl s⟩

theorem unpackFrame_quiet (s : State) (frame : List Byte) (n : Nat) :
    Quiet s (unpackFrame s frame n).1 ∧ RecordsKept s (unpackFrame s frame n).1 := by
  unfold unpackFrame
  split
  · refine ⟨⟨rfl, ⟨[], by simp⟩, id, id, fun hw => Memory.wf_writeBytes _ hw _ _,
      fun hb => Memory.below_writeBytes _ _ _ _ hb ?_⟩, rfl, rfl⟩
    have := (frame.getD 1 0).isLt
    rw [List.length_take]
    exact le_trans (Nat.le_of_eq (Nat.zero_add _)) (le_trans (min_le_left _ _) (by unfold Config.payCap; omega))
  · exact ⟨Quiet.refl s, RecordsKept.refl s⟩

/-! ### The command codec -/

/-- A sequence of codec reads only moves the cursor. -/
def LayoutQuiet {α : Type} (m : Layout α) : Prop := ∀ s : State, ∃ n, (m s).1 = { s with cur := n }

theorem give_quiet {α : Type} (a : α) : LayoutQuiet (Layout.give a) := fun s => ⟨s.cur, rfl⟩

theorem andThen_quiet {α β : Type} {m : Layout α} {k : α → Layout β} (hm : LayoutQuiet m) (hk : ∀ a, LayoutQuiet (k a)) :
    LayoutQuiet (m.andThen k) := by
  intro s
  obtain ⟨n, h⟩ := hm s
  unfold Layout.andThen
  rcases e : m s with ⟨s', _ | a⟩ <;> rw [e] at h <;> subst h
  · exact ⟨n, rfl⟩
  · obtain ⟨n', h'⟩ := hk a { s with cur := n }
    exact ⟨n', h'⟩

theorem getField_cursor (s : State) (n : Nat) : ∃ k, (getField s n).1 = { s with cur := k } := by
  unfold getField State.advance
  split <;> exact ⟨_, rfl⟩

theorem si16_quiet (n : Nat) : LayoutQuiet (Layout.si16 n) := fun s => getField_cursor s 2
theorem si32_quiet (n : Nat) : LayoutQuiet (Layout.si32 n) := fun s => getField_cursor s 4
theorem i32_quiet : LayoutQuiet Layout.i32 := fun s => getField_cursor s 4
theorem u8_quiet : LayoutQuiet Layout.u8 := fun s => getField_cursor s 1
theorem skip_quiet (n : Nat) : LayoutQuiet (Layout.skip n) := fun _ => ⟨_, rfl⟩

theorem layoutFwver_quiet : LayoutQuiet layoutFwver :=
  andThen_quiet u8_quiet fun _ => andThen_quiet u8_quiet fun _ => give_quiet _

theorem layoutTelem_quiet (p : Params) : LayoutQuiet (layoutTelem p) := by
  unfold layoutTelem
  repeat'
    first
    | exact give_quiet _
    | exact si16_quiet _
    | exact si32_quiet _
    | exact i32_quiet
    | exact u8_quiet
    | exact skip_quiet _
    | refine andThen_quiet ?_ fun _ => ?_

theorem cursor_quiet (s : State) (n : Nat) : Quiet s { s with cur := n } :=
  ⟨rfl, ⟨[], by simp⟩, id, id, id, id⟩

theorem decodeFwver_quiet (s : State) :
    Quiet s (decodeFwver s).1 ∧ RecordsDecoded s (decodeFwver s).1 (decodeFwver s).2 := by
  unfold decodeFwver
  split
  · exact ⟨Quiet.refl s, .inl (RecordsKept.refl s)⟩
  · obtain ⟨k, h⟩ := layoutFwver_quiet s
    rcases e : layoutFwver s with ⟨s', _ | v⟩ <;> rw [e] at h <;> subst h
    · exact ⟨cursor_quiet s _, .inl ⟨rfl, rfl⟩⟩
    · exact ⟨⟨rfl, ⟨[], by simp⟩, id, id, id, id⟩, .inr ⟨rfl, .inl ⟨rfl, _, rfl⟩⟩⟩

theorem decodeTelem_quiet (s : State) (r : State × Status) (h : decodeTelem s = .ok r) :
    Quiet s r.1 ∧ RecordsDecoded s r.1 r.2 := by
  unfold decodeTelem at h
  split at h
  · cases h; exact ⟨Quiet.refl s, .inl (RecordsKept.refl s)⟩
  · split at h
    · obtain ⟨k, hl⟩ := layoutTelem_quiet s.params s
      rcases e : layoutTelem s.params s with ⟨s', _ | v⟩ <;> rw [e] at h hl <;> subst hl <;> cases h
      · exact ⟨cursor_quiet s _, .inl ⟨rfl, rfl⟩⟩
      · exact ⟨⟨rfl, ⟨[], by simp⟩, id, id, id, id⟩, .inr ⟨rfl, .inr ⟨rfl, _, rfl⟩⟩⟩
    · cases h

theorem decodePayload_quiet (s : State) (r : State × Status) (h : decodePayload s = .ok r) :
    Quiet s r.1 ∧ RecordsDecoded s r.1 r.2 := by
  unfold decodePayload at h
  split at h
  · cases h; exact ⟨Quiet.refl s, .inl (RecordsKept.refl s)⟩
  · rename_i identifier fields _
    have hb := bind_quiet s fields fields.length
    dsimp only at h
    split at h
    · cases h
      have hd := decodeFwver_quiet (s.bind fields fields.length)
      exact ⟨hb.1.trans hd.1, hb.2.decoded hd.2⟩
    · split at h
      · have hd := decodeTelem_quiet _ _ h
        exact ⟨hb.1.trans hd.1, hb.2.decoded hd.2⟩
      · cases h
        exact ⟨hb.1, .inl hb.2⟩

end Sys2Proof.Machine
end

