-- ==== Sys2Proof/Laws/Reader.lean ====
section
/-! SUPPORT. What one poll and the end of a read can do, said once, and that a poll keeps the reader's invariants (R167). -/

namespace Sys2Proof.Machine

/-- Everything a poll can do (R149, R150). -/
theorem rxPoll_cases (s t : State) (h : rxPoll s = .next t) :
    (t = s ∧ (s.rxs.active = true → s.now < s.rxdl ∧ s.rxq = [])) ∨
    (s.rxs.active = true ∧ s.rxdl ≤ s.now ∧ t = { s with rxs := .timedOut }) ∨
    (∃ b queue, s.rxs.active = true ∧ s.now < s.rxdl ∧ s.rxq = b :: queue ∧ s.rxcnt < Config.rxCap ∧
      t = rxSettle (rxClassify (rxBuffer s b queue))) := by
  unfold rxPoll at h
  split at h
  · rename_i ha
    split at h
    · rename_i hd
      cases h
      exact .inr (.inl ⟨ha, hd, rfl⟩)
    · rename_i hd
      split at h
      · rename_i hq
        cases h
        exact .inl ⟨rfl, fun _ => ⟨by omega, hq⟩⟩
      · rename_i b queue hq
        split at h
        · rename_i hc
          cases h
          exact .inr (.inr ⟨b, queue, ha, by omega, hq, hc, rfl⟩)
        · cases h
  · rename_i ha
    cases h
    exact .inl ⟨rfl, fun h => absurd h ha⟩

/-- A poll of a terminal or idle reader changes nothing. -/
theorem rxPoll_inactive (s : State) (h : s.rxs.active = false) : rxPoll s = .next s := by simp [rxPoll, h]

/-- A poll at or past the deadline ends the read (R150, R159). -/
theorem rxPoll_timeout (s : State) (h : s.rxs.active = true) (hd : s.rxdl ≤ s.now) :
    rxPoll s = .next { s with rxs := .timedOut } := by simp [rxPoll, h, hd]

/-- A poll that finds no byte yields (R150). -/
theorem rxPoll_empty (s : State) (h : s.rxs.active = true) (hd : s.now < s.rxdl) (hq : s.rxq = []) :
    rxPoll s = .next s := by simp [rxPoll, h, hq, Nat.not_le.mpr hd]

/-- A poll that finds a byte (R149). -/
theorem rxPoll_byte (s : State) (b : Byte) (queue : List Byte) (h : s.rxs.active = true) (hd : s.now < s.rxdl)
    (hq : s.rxq = b :: queue) (hc : s.rxcnt < Config.rxCap) :
    rxPoll s = .next (rxSettle (rxClassify (rxBuffer s b queue))) := by
  simp [rxPoll, h, hq, Nat.not_le.mpr hd, hc]

/-- The classifying step does nothing to any byte but the second (R149 step 5). -/
theorem rxClassify_other (s : State) (h : s.rxcnt ≠ 2) : rxClassify s = s := by simp [rxClassify, h]

/-- The `Done` test comes before the buffer-full test (R149, R157). -/
theorem rxSettle_eq (s : State) :
    rxSettle s = { s with rxs := if rxComplete s then .done else if s.rxcnt = Config.rxCap then .rejected else s.rxs } := by
  unfold rxSettle
  split
  · rfl
  · split <;> rfl

/-- The success condition, spelled out (R157). -/
theorem rxComplete_iff (s : State) :
    rxComplete s = true ↔ s.rxend = some s.rxcnt ∧ Memory.read s.rxbuf (s.rxcnt - 1) = Config.terminator := by
  unfold rxComplete
  cases h : s.rxend with
  | none => simp
  | some e =>
    simp only [decide_eq_true_eq, Option.some.injEq]
    constructor
    · rintro ⟨h1, h2⟩; exact ⟨h1.symm, by rw [h1]; exact h2⟩
    · rintro ⟨h1, h2⟩; exact ⟨h1.symm, by rw [h1]; exact h2⟩

/-- A poll that takes any byte but the second (R149). -/
theorem rxByte_other (s : State) (b : Byte) (queue : List Byte) (hw : Memory.wf s.rxbuf) (h : s.rxcnt ≠ 1) :
    rxSettle (rxClassify (rxBuffer s b queue)) =
      { s with
        rxq := queue
        rxcnt := s.rxcnt + 1
        rxbuf := Memory.write s.rxbuf s.rxcnt b
        rxs := if s.rxend = some (s.rxcnt + 1) ∧ b = 0x03 then .done
          else if s.rxcnt + 1 = 256 then .rejected else s.rxs } := by
  rw [rxClassify_other _ (by simpa [rxBuffer] using h), rxSettle_eq]
  simp only [rxComplete_iff, rxBuffer, Nat.add_sub_cancel, Memory.read_write_self _ hw]
  rfl

/-- A poll that takes the second byte behind the short marker (R152): the frame's end is known and is not yet reached. -/
theorem rxByte_short (s : State) (b : Byte) (queue : List Byte) (hw : Memory.wf s.rxbuf) (h : s.rxcnt = 1)
    (hm : Memory.read s.rxbuf 0 = 0x02) :
    rxSettle (rxClassify (rxBuffer s b queue)) =
      { s with
        rxq := queue
        rxcnt := 2
        rxbuf := Memory.write s.rxbuf 1 b
        rxs := .awaitPayload
        rxmk := .short
        rxlen := b
        rxend := some (b.toNat + 5) } := by
  have h0 : Memory.read (Memory.write s.rxbuf 1 b) 0 = 0x02 := by rw [Memory.read_write_other _ _ _ _ (by omega), hm]
  have h1 : Memory.read (Memory.write s.rxbuf 1 b) 1 = b := Memory.read_write_self _ hw _ _
  have hc : rxClassify (rxBuffer s b queue) =
      { s with rxq := queue, rxcnt := 2, rxbuf := Memory.write s.rxbuf 1 b, rxs := .awaitPayload, rxmk := .short,
               rxlen := b, rxend := some (b.toNat + 5) } := by
    simp [rxClassify, rxBuffer, h, h0, h1, Marker.ofByte, Config.markerShort, Config.shortOverhead]
  rw [hc, rxSettle_eq]
  simp [rxComplete]

/-- A poll that takes the second byte behind any other first byte (R153, R154): the marker is flagged. -/
theorem rxByte_flagged (s : State) (b : Byte) (queue : List Byte) (hw : Memory.wf s.rxbuf) (h : s.rxcnt = 1)
    (hm : Memory.read s.rxbuf 0 ≠ 0x02) :
    rxSettle (rxClassify (rxBuffer s b queue)) =
      { s with
        rxq := queue
        rxcnt := 2
        rxbuf := Memory.write s.rxbuf 1 b
        rxs := if s.rxend = some 2 ∧ b = 0x03 then .done else .awaitPayload
        rxmk := if Memory.read s.rxbuf 0 = 0x03 then .longUnsupported else .invalid } := by
  have h0 : Memory.read (Memory.write s.rxbuf 1 b) 0 = Memory.read s.rxbuf 0 := Memory.read_write_other _ _ _ _ (by omega)
  have h1 : Memory.read (Memory.write s.rxbuf 1 b) 1 = b := Memory.read_write_self _ hw _ _
  have hk : Marker.ofByte (Memory.read s.rxbuf 0) =
      if Memory.read s.rxbuf 0 = 0x03 then .longUnsupported else .invalid := if_neg hm
  have hc : rxClassify (rxBuffer s b queue) =
      { s with rxq := queue, rxcnt := 2, rxbuf := Memory.write s.rxbuf 1 b, rxs := .awaitPayload,
               rxmk := if Memory.read s.rxbuf 0 = 0x03 then .longUnsupported else .invalid } := by
    have hne : (if Memory.read s.rxbuf 0 = 0x03 then Marker.longUnsupported else .invalid) ≠ .short := by
      split <;> simp
    have h2 : (rxBuffer s b queue).rxcnt = 2 := by simp [rxBuffer, h]
    have h3 : (rxBuffer s b queue).rxbuf = Memory.write s.rxbuf 1 b := by simp [rxBuffer, h]
    rw [rxClassify, if_pos h2, h3, h0, hk, if_neg hne]
    simp [rxBuffer, h]
  rw [hc, rxSettle_eq]
  simp only [rxComplete_iff, h1, Nat.add_one_sub_one]
  simp

/-- A poll that takes a byte, in one equation that leaves the reader's state open. -/
theorem rxByte_frame (s : State) (b : Byte) (queue : List Byte) :
    ∃ st mk len fin, rxSettle (rxClassify (rxBuffer s b queue)) =
      { s with rxq := queue, rxcnt := s.rxcnt + 1, rxbuf := Memory.write s.rxbuf s.rxcnt b, rxs := st, rxmk := mk,
               rxlen := len, rxend := fin } := by
  have h : ∀ u : State, ∃ st mk len fin, rxClassify u = { u with rxs := st, rxmk := mk, rxlen := len, rxend := fin } := by
    intro u
    unfold rxClassify
    split
    · split <;> exact ⟨_, _, _, _, rfl⟩
    · exact ⟨_, _, _, _, rfl⟩
  obtain ⟨st, mk, len, fin, e⟩ := h (rxBuffer s b queue)
  rw [rxSettle_eq, e]
  exact ⟨_, _, _, _, rfl⟩

/-- A poll leaves everything but the reader's registers and the receive queue alone. -/
theorem rxPoll_frame (s t : State) (h : rxPoll s = .next t) :
    ∃ st buf cnt mk len fin queue,
      t = { s with rxq := queue, rxcnt := cnt, rxbuf := buf, rxs := st, rxmk := mk, rxlen := len, rxend := fin } := by
  rcases rxPoll_cases s t h with ⟨rfl, -⟩ | ⟨-, -, rfl⟩ | ⟨b, queue, -, -, -, -, rfl⟩
  · exact ⟨_, _, _, _, _, _, _, rfl⟩
  · exact ⟨_, _, _, _, _, _, _, rfl⟩
  · obtain ⟨st, mk, len, fin, e⟩ := rxByte_frame s b queue
    exact ⟨_, _, _, _, _, _, _, e⟩

/-! ### The invariants of R167 -/

/-- A byte taken below the buffer's end keeps the reader's invariants. -/
theorem rxByte_sound (s : State) (b : Byte) (queue : List Byte) (hb : Memory.wf s.rxbuf) (hs : s.ReaderSound)
    (ha : s.rxs.active = true) (hc : s.rxcnt < Config.rxCap) :
    (rxSettle (rxClassify (rxBuffer s b queue))).ReaderSound := by
  obtain ⟨-, h2, h3, h4, h5, -, -, h8, h9⟩ := hs
  have hself := Memory.read_write_self s.rxbuf hb s.rxcnt b
  have hother := fun a (h : a ≠ s.rxcnt) => Memory.read_write_other s.rxbuf s.rxcnt a b h
  unfold Config.rxCap at hc
  by_cases h1 : s.rxcnt = 1
  · -- the second byte
    have hmk : s.rxmk = .unread := h8.mpr (by omega)
    have hend : s.rxend = none := by
      cases e : s.rxend with
      | none => rfl
      | some v => have := h4.mp (by simp [e]); rw [hmk] at this; cases this
    have r0 := hother 0 (by omega)
    rw [h1] at r0 hself
    by_cases hm : Memory.read s.rxbuf 0 = 0x02
    · rw [rxByte_short s b queue hb h1 hm]
      constructor <;> simp [Config.rxCap, Config.shortOverhead, hself, r0, hm, Marker.ofByte]
    · rw [rxByte_flagged s b queue hb h1 hm]
      have hk : Marker.ofByte (Memory.read s.rxbuf 0) =
          if Memory.read s.rxbuf 0 = 0x03 then .longUnsupported else .invalid := if_neg hm
      rw [← hk]
      have hs : Marker.ofByte (Memory.read s.rxbuf 0) ≠ .short := by rw [hk]; split <;> simp
      have hu : Marker.ofByte (Memory.read s.rxbuf 0) ≠ .unread := by rw [hk]; split <;> simp
      constructor <;> simp [Config.rxCap, hend, hs, hu, r0]
  · rw [rxByte_other s b queue hb h1]
    by_cases h0 : s.rxcnt = 0
    · -- the first byte
      have hmk : s.rxmk = .unread := h8.mpr (by omega)
      have hend : s.rxend = none := by
        cases e : s.rxend with
        | none => rfl
        | some v => have := h4.mp (by simp [e]); rw [hmk] at this; cases this
      have hst : s.rxs = .awaitLength := by
        cases e : s.rxs <;> rw [e] at ha <;> simp [RxState.active] at ha
        have := (h3 e).1; omega
      constructor <;> simp [h0, hmk, hend, hst]
    · have hst : s.rxs = .awaitPayload := by
        cases e : s.rxs <;> rw [e] at ha <;> simp [RxState.active] at ha
        have := h2 e; omega
      have r0 := hother 0 (by omega)
      have r1 := hother 1 (by omega)
      constructor
      · simp only [Config.rxCap]; omega
      · simp only [hst]; split
        · simp
        · split <;> simp
      · simp only [hst, Config.rxCap]; split
        · simp
        · split
          · simp
          · intro; omega
      · exact h4
      · simpa only [r1] using h5
      · simp only [hst, r0, Nat.add_sub_cancel, hself]
        split
        · rename_i hd
          have hmk : s.rxmk = .short := h4.mp (by simp [hd.1])
          intro _
          refine ⟨hmk, ?_, hd.1, hd.2⟩
          have h9' := h9 (by omega)
          rw [hmk] at h9'
          by_contra hne
          unfold Marker.ofByte at h9'
          rw [if_neg hne] at h9'
          split at h9' <;> cases h9'
        · split <;> simp
      · simp only [hst, Config.rxCap]; split
        · simp
        · split
          · intro _; assumption
          · simp
      · have := h8
        constructor
        · intro h; have := h8.mp h; omega
        · intro h; exact absurd h (by simp only; omega)
      · intro _
        simp only [r0]
        exact h9 (by omega)

/-- A poll keeps the reader's invariants (R167). -/
theorem rxPoll_sound (s t : State) (hb : Memory.wf s.rxbuf) (hs : s.ReaderSound) (h : rxPoll s = .next t) :
    t.ReaderSound := by
  rcases rxPoll_cases s t h with ⟨rfl, -⟩ | ⟨ha, -, rfl⟩ | ⟨b, queue, ha, -, -, hc, rfl⟩
  · exact hs
  · obtain ⟨h1, -, -, h4, h5, -, -, h8, h9⟩ := hs
    exact ⟨h1, by simp, by simp, h4, h5, by simp, by simp, h8, h9⟩
  · exact rxByte_sound s b queue hb hs ha hc

/-- From a sound state a poll never faults: no byte goes outside `RXBUF` (R46, R155). -/
theorem rxPoll_next (s : State) (hs : s.ReaderSound) : ∃ t, rxPoll s = .next t := by
  unfold rxPoll
  split
  · rename_i ha
    split
    · exact ⟨_, rfl⟩
    · split
      · exact ⟨_, rfl⟩
      · split
        · exact ⟨_, rfl⟩
        · rename_i hc
          exfalso
          cases e : s.rxs <;> rw [e] at ha <;> simp [RxState.active] at ha
          · have := hs.awaitLength_count e; simp [Config.rxCap] at hc; omega
          · have := (hs.awaitPayload_count e).2; omega
  · exact ⟨_, rfl⟩

/-- A poll keeps the receive buffer canonical and inside its bounds (R57, R167 (b)). -/
theorem rxPoll_buffer (s t : State) (h : rxPoll s = .next t) (hw : Memory.wf s.rxbuf)
    (hb : Memory.below s.rxbuf Config.rxCap) : Memory.wf t.rxbuf ∧ Memory.below t.rxbuf Config.rxCap := by
  rcases rxPoll_cases s t h with ⟨rfl, -⟩ | ⟨ha, -, rfl⟩ | ⟨b, queue, ha, -, -, hc, rfl⟩
  · exact ⟨hw, hb⟩
  · exact ⟨hw, hb⟩
  · obtain ⟨st, mk, len, fin, e⟩ := rxByte_frame s b queue
    rw [e]
    exact ⟨Memory.wf_write _ hw _ _, Memory.below_write _ _ _ _ hb hc⟩

/-! ### The end of a read -/

/-- Everything the end of a read can do (R160): the validator runs only on `Done`, and the call's registers stay as they
are. -/
theorem rxEnding_quiet (s : State) (r : RxEnd) (h : rxEnding s = .next r) :
    Quiet s r.state ∧ RecordsKept s r.state ∧ s.rxs.finished = true := by
  unfold rxEnding at h
  split at h
  · cases h
  · cases h
  · cases h
  · rename_i e; cases h; exact ⟨Quiet.refl s, RecordsKept.refl s, by simp [e, RxState.finished]⟩
  · rename_i e; cases h; exact ⟨Quiet.refl s, RecordsKept.refl s, by simp [e, RxState.finished]⟩
  · rename_i e
    split at h
    · cases h
    · rename_i n _
      cases h
      have hq := unpackFrame_quiet s s.rxBytes n
      exact ⟨hq.1, hq.2, by simp [e, RxState.finished]⟩

/-- From a sound state the end of a read never faults. -/
theorem rxEnding_no_fault (s : State) (f : Fault) (hs : s.ReaderSound) : rxEnding s ≠ .fault f := by
  unfold rxEnding
  split <;> try (intro h; cases h)
  rename_i e
  rw [(hs.done_means e).2.2.1]
  intro h; cases h

end Sys2Proof.Machine
end

