-- ==== Sys2Proof/Laws/Exec.lean ====
section
/-! SUPPORT. Everything an item can do when it answers a next state, said once over all constructors; and when an item
faults. The provers cite `exec_next` in place of unfolding the dispatch. -/

namespace Sys2Proof.Machine

/-- The items whose call may write a record (R28, R29, R83; the query wrappers apart). -/
def Instr.decodes : Instr → Prop := fun i =>
  i = .decode ∨ i = .decFwver ∨ i = .decTelem ∨ (∃ fs, i = .cmdFwVersion fs) ∨ (∃ fs, i = .cmdTelemetry fs)

/-- The query wrapper an item is (R201, R208). -/
def Instr.asks : Instr → Query → Prop
  | i, .fwVersion => ∃ fwd, i = .getFwVersion fwd
  | i, .values => ∃ fwd, i = .getValues fwd

/-- The ways an item can answer a next state. -/
inductive ExecNext (s : State) : Instr → State → Prop where
  /-- A frame arrives. -/
  | arrival {i : Instr} (p bs : List Byte) (hi : i = .frameS p ∨ i = .frameL p) :
      ExecNext s i { s with rxq := s.rxq ++ bs }
  /-- A call of one step ends. -/
  | call {i : Instr} (u : State) (st : Status) (r : Result) (hc : s.call = .none) (hq : Quiet s u)
      (hr : RecordsKept s u ∨ (Instr.decodes i ∧ RecordsDecoded s u st)) : ExecNext s i (u.ret st r)
  /-- A read opens. -/
  | start (hc : s.call = .none) (hb : s.cfgBound = true) :
      ExecNext s .rxStart { rxBegin s with call := .stepwise, result := .empty }
  /-- A poll of the stepwise call. -/
  | poll (t : State) (hc : s.call = .none ∨ s.call = .stepwise) (h : rxPoll s = .next t) : ExecNext s .rxStep t
  /-- A read ends: `RX_RESULT` of a finished read, or the poll of a `RECEIVE` that finished it. -/
  | finish {i : Instr} (u : State) (r : RxEnd)
      (hi : (i = .rxResult ∧ (s.call = .none ∨ s.call = .stepwise) ∧ u = s) ∨
        (i = .receive ∧ s.call = .receive ∧ rxPoll s = .next u))
      (hr : rxEnding u = .next r) :
      ExecNext s i ({ r.state with call := .none }.ret r.status (.count r.length))
  /-- A `RECEIVE` begins. -/
  | begin (hc : s.call = .none) (hb : s.cfgBound = true) :
      ExecNext s .receive { rxBegin s with call := .receive }
  /-- A poll of a `RECEIVE` that does not end the read. -/
  | wait (t : State) (hc : s.call = .receive) (h : rxPoll s = .next t) (hf : t.rxs.finished = false) :
      ExecNext s .receive t
  /-- A query's request is sent and its `RECEIVE` begins. -/
  | ask {i : Instr} (u : State) (st : Status) (r : Result) (q : Query) (hi : Instr.asks i q) (hc : s.call = .none)
      (hb : s.cfgBound = true) (hq : Quiet s u) (hr : RecordsKept s u) :
      ExecNext s i { rxBegin (u.report st r) with call := .awaiting q }
  /-- A poll of a query's `RECEIVE` that does not end the read. -/
  | askWait {i : Instr} (t : State) (q : Query) (hi : Instr.asks i q) (hc : s.call = .awaiting q)
      (h : rxPoll s = .next t) (hf : t.rxs.finished = false) : ExecNext s i t
  /-- The poll of a query's `RECEIVE` that ends the read, and what follows it. -/
  | askFinish {i : Instr} (p : State) (r : RxEnd) (u : State) (st : Status) (q : Query) (v : Result)
      (hi : Instr.asks i q) (hc : s.call = .awaiting q) (h : rxPoll s = .next p) (hr : rxEnding p = .next r)
      (hq : Quiet { r.state with call := .none } u) (hd : RecordsDecoded { r.state with call := .none } u st) :
      ExecNext s i (u.ret st v)

theorem whenStepwise_next (s t : State) (k : Host.Outcome State Fault Refusal) (h : whenStepwise s k = .next t) :
    (s.call = .none ∨ s.call = .stepwise) ∧ k = .next t := by
  unfold whenStepwise at h
  split at h <;> first | exact ⟨.inl (by assumption), h⟩ | exact ⟨.inr (by assumption), h⟩ | cases h

theorem withScale_next (v : Value) (t : State) (k : Nat → Host.Outcome State Fault Refusal)
    (h : withScale v k = .next t) : ∃ n, scaleOf v = some n ∧ k n = .next t := by
  unfold withScale at h
  split at h
  · cases h
  · exact ⟨_, by assumption, h⟩

theorem withFinite_next (v : Value) (t : State) (k : Rat → Host.Outcome State Fault Refusal)
    (h : withFinite v k = .next t) : ∃ q, finiteOf v = some q ∧ k q = .next t := by
  unfold withFinite at h
  split at h
  · cases h
  · exact ⟨_, by assumption, h⟩

/-- The end of a call with a boolean. -/
theorem flagOutcome_call (i : Instr) (s t : State) (r : State × Status) (hc : s.call = .none) (hq : Quiet s r.1)
    (hr : RecordsKept s r.1 ∨ (Instr.decodes i ∧ RecordsDecoded s r.1 r.2)) (h : flagOutcome r = .next t) :
    ExecNext s i t := by
  cases h
  exact .call _ _ _ hc hq hr

theorem putOutcome_call (i : Instr) (s t : State) (bs : List Byte) (hc : s.call = .none) (h : putOutcome s bs = .next t) :
    ExecNext s i t := by
  cases h
  exact .call _ _ _ hc (putField_quiet s bs).1 (.inl (putField_quiet s bs).2)

theorem getOutcome_call (i : Instr) (s t : State) (n : Nat) (view : Nat → Result) (hc : s.call = .none)
    (h : getOutcome s n view = .next t) : ExecNext s i t := by
  have hq := getField_quiet s n
  unfold getOutcome at h
  rcases e : getField s n with ⟨s', _ | u⟩ <;> rw [e] at h hq <;> cases h <;>
    exact .call _ _ _ hc hq.1 (.inl hq.2)

theorem sendOutcome_call (i : Instr) (s u t : State) (payload : List Byte) (fwd : Byte) (hc : s.call = .none)
    (hu : Quiet s u ∧ RecordsKept s u) (h : sendOutcome u payload fwd = .next t) : ExecNext s i t := by
  unfold sendOutcome at h
  rcases e : sendFrame u payload fwd with r | ⟨s', st, n⟩ <;> rw [e] at h <;> cases h
  have hq := sendFrame_quiet u payload fwd _ e
  exact .call _ _ _ hc (hu.1.trans hq.1) (.inl (hu.2.trans hq.2))

theorem decodeOutcome_call (i : Instr) (s u t : State) (x : Except Refusal (State × Status)) (hc : s.call = .none)
    (hu : Quiet s u ∧ RecordsKept s u) (hi : Instr.decodes i)
    (hx : ∀ r, x = .ok r → Quiet u r.1 ∧ RecordsDecoded u r.1 r.2) (h : decodeOutcome x = .next t) : ExecNext s i t := by
  unfold decodeOutcome at h
  split at h
  · cases h
  · have hq := hx _ rfl
    exact flagOutcome_call i s t _ hc (hu.1.trans hq.1) (.inr ⟨hi, hu.2.decoded hq.2⟩) h

theorem replyOutcome_call (i : Instr) (s t : State) (payload : List Byte) (hc : s.call = .none) (hi : Instr.decodes i)
    (h : replyOutcome s payload = .next t) : ExecNext s i t := by
  unfold replyOutcome at h
  have hq := unpackFrame_quiet s (frameShort payload) (payload.length + Config.shortOverhead)
  rcases e : unpackFrame s (frameShort payload) (payload.length + Config.shortOverhead) with ⟨u, st⟩
  rw [e] at h hq
  cases st <;>
    first
    | exact decodeOutcome_call i s u t _ hc hq hi (fun r hr => decodePayload_quiet u r hr) h
    | exact flagOutcome_call i s t _ hc hq.1 (.inl hq.2) h

theorem requestArg_call (i : Instr) (s t : State) (identifier : Byte) (e : Enc) (v : Value) (hc : s.call = .none)
    (h : requestArg s identifier e v = .next t) : ExecNext s i t := by
  unfold requestArg at h
  split at h
  · cases h
  · rename_i bs _
    cases h
    have hq := layOut_quiet s [[identifier], bs]
    exact .call _ _ _ hc hq.1 (.inl hq.2)

theorem requestOutcome_call (i : Instr) (s t : State) (fields : List (List Byte)) (hc : s.call = .none)
    (h : requestOutcome s fields = .next t) : ExecNext s i t := by
  cases h
  have hq := layOut_quiet s fields
  exact .call _ _ _ hc hq.1 (.inl hq.2)

theorem sendFields_call (i : Instr) (s t : State) (fields : List (List Byte)) (fwd : Byte) (hc : s.call = .none)
    (h : sendFields s fields fwd = .next t) : ExecNext s i t :=
  sendOutcome_call i s _ t _ _ hc (layOut_quiet s fields) h

theorem sendArg_call (i : Instr) (s t : State) (identifier : Byte) (e : Enc) (v : Value) (fwd : Byte)
    (hc : s.call = .none) (h : sendArg s identifier e v fwd = .next t) : ExecNext s i t := by
  unfold sendArg at h
  split at h
  · cases h
  · exact sendFields_call i s t _ fwd hc h

theorem rxReturn_next (s t : State) (h : rxReturn s = .next t) :
    ∃ r, rxEnding s = .next r ∧ t = ({ r.state with call := .none } : State).ret r.status (.count r.length) := by
  unfold rxReturn at h
  split at h
  · cases h; exact ⟨_, by assumption, rfl⟩
  · cases h
  · cases h

theorem pollThen_next (s t : State) (finish : State → Host.Outcome State Fault Refusal)
    (h : pollThen s finish = .next t) :
    ∃ u, rxPoll s = .next u ∧ ((u.rxs.finished = false ∧ t = u) ∨ (u.rxs.finished = true ∧ finish u = .next t)) := by
  unfold pollThen at h
  split at h
  · rename_i u hu
    split at h
    · exact ⟨u, hu, .inr ⟨by assumption, h⟩⟩
    · rename_i hf
      cases h
      exact ⟨_, hu, .inl ⟨by simpa using hf, rfl⟩⟩
  · cases h
  · cases h

theorem queryStep_call (i : Instr) (q : Query) (identifier fwd : Byte) (s t : State) (hi : Instr.asks i q)
    (h : queryStep q identifier fwd s = .next t) : ExecNext s i t := by
  unfold queryStep at h
  split at h
  · rename_i hc
    unfold queryAsk at h
    split at h
    · cases h
    · rename_i s' st n e
      have hl := layOut_quiet s [[identifier]]
      have hq := sendFrame_quiet _ _ _ _ e
      have hs : Quiet s s' := hl.1.trans hq.1
      split at h
      · rename_i hb
        cases h
        exact .ask s' st _ q hi hc (by rw [hs.frame] at hb; exact hb) hs (hl.2.trans hq.2)
      · cases h
        exact .call s' _ _ hc hs (.inl (hl.2.trans hq.2))
  · rename_i q' hc
    split at h
    · rename_i hqq
      subst hqq
      obtain ⟨p, hp, ⟨hf, rfl⟩ | ⟨hf, hfin⟩⟩ := pollThen_next _ _ _ h
      · exact .askWait _ _ hi hc hp hf
      · unfold queryReturn at hfin
        split at hfin
        · cases hfin
        · cases hfin
        · rename_i r hr
          split at hfin
          · split at hfin
            · cases hfin
            · rename_i s' st hd
              cases hfin
              have hq := decodePayload_quiet _ _ hd
              exact .askFinish p r s' st _ _ hi hc hp hr hq.1 hq.2
          · cases hfin
            exact .askFinish p r _ _ _ _ hi hc hp hr (Quiet.refl _) (.inl (RecordsKept.refl _))
    · cases h
  · cases h
  · cases h

/-- Everything an item can do when it answers a next state. -/
theorem exec_next (i : Instr) (s t : State) (h : exec i s = .next t) : ExecNext s i t := by
  cases i with
  | crc16 src =>
    obtain ⟨hc, h⟩ := whenIdle_next _ _ _ h
    cases h
    exact .call _ _ _ hc (withCrc_quiet s _).1 (.inl (withCrc_quiet s _).2)
  | curReset src len =>
    obtain ⟨hc, h⟩ := whenIdle_next _ _ _ h
    cases h
    exact .call _ _ _ hc (bind_quiet s _ len).1 (.inl (bind_quiet s _ len).2)
  | putSi16 value scale =>
    obtain ⟨hc, h⟩ := whenIdle_next _ _ _ h
    obtain ⟨n, -, h⟩ := withScale_next _ _ _ h
    obtain ⟨q, -, h⟩ := withFinite_next _ _ _ h
    exact putOutcome_call _ s t _ hc h
  | putSi32 value scale =>
    obtain ⟨hc, h⟩ := whenIdle_next _ _ _ h
    obtain ⟨n, -, h⟩ := withScale_next _ _ _ h
    obtain ⟨q, -, h⟩ := withFinite_next _ _ _ h
    exact putOutcome_call _ s t _ hc h
  | putI32 v => exact putOutcome_call _ s t _ (whenIdle_next _ _ _ h).1 (whenIdle_next _ _ _ h).2
  | putBool b => exact putOutcome_call _ s t _ (whenIdle_next _ _ _ h).1 (whenIdle_next _ _ _ h).2
  | putU8 v => exact putOutcome_call _ s t _ (whenIdle_next _ _ _ h).1 (whenIdle_next _ _ _ h).2
  | getSi16 scale =>
    obtain ⟨hc, h⟩ := whenIdle_next _ _ _ h
    obtain ⟨n, -, h⟩ := withScale_next _ _ _ h
    exact getOutcome_call _ s t _ _ hc h
  | getSi32 scale =>
    obtain ⟨hc, h⟩ := whenIdle_next _ _ _ h
    obtain ⟨n, -, h⟩ := withScale_next _ _ _ h
    exact getOutcome_call _ s t _ _ hc h
  | getI32 => exact getOutcome_call _ s t _ _ (whenIdle_next _ _ _ h).1 (whenIdle_next _ _ _ h).2
  | getBool => exact getOutcome_call _ s t _ _ (whenIdle_next _ _ _ h).1 (whenIdle_next _ _ _ h).2
  | getU8 => exact getOutcome_call _ s t _ _ (whenIdle_next _ _ _ h).1 (whenIdle_next _ _ _ h).2
  | skip n =>
    obtain ⟨hc, h⟩ := whenIdle_next _ _ _ h
    cases h
    exact .call _ _ _ hc (advance_quiet s n).1 (.inl (advance_quiet s n).2)
  | build src fwd =>
    obtain ⟨hc, h⟩ := whenIdle_next _ _ _ h
    unfold buildOutcome at h
    split at h
    · cases h
      exact .call _ _ _ hc (buildFrame_quiet s _).1 (.inl (buildFrame_quiet s _).2)
    · cases h
  | send src fwd =>
    obtain ⟨hc, h⟩ := whenIdle_next _ _ _ h
    exact sendOutcome_call _ s s t _ _ hc ⟨Quiet.refl s, RecordsKept.refl s⟩ h
  | rxStart =>
    obtain ⟨hc, h⟩ := whenIdle_next _ _ _ h
    split at h
    · cases h; exact .start hc (by assumption)
    · cases h; exact .call s _ _ hc (Quiet.refl s) (.inl (RecordsKept.refl s))
  | rxStep => exact .poll t (whenStepwise_next _ _ _ h).1 (whenStepwise_next _ _ _ h).2
  | rxResult =>
    obtain ⟨hc, h⟩ := whenStepwise_next _ _ _ h
    obtain ⟨r, hr, rfl⟩ := rxReturn_next _ _ h
    exact .finish s r (.inl ⟨rfl, hc, rfl⟩) hr
  | receive =>
    change execReceive s = _ at h
    unfold execReceive at h
    split at h
    · rename_i hc
      split at h
      · cases h; exact .begin hc (by assumption)
      · cases h; exact .call s _ _ hc (Quiet.refl s) (.inl (RecordsKept.refl s))
    · rename_i hc
      obtain ⟨u, hu, ⟨hf, rfl⟩ | ⟨hf, hfin⟩⟩ := pollThen_next _ _ _ h
      · exact .wait _ hc hu hf
      · obtain ⟨r, hr, rfl⟩ := rxReturn_next _ _ hfin
        exact .finish u r (.inr ⟨rfl, hc, hu⟩) hr
    · cases h
    · cases h
  | unpack src n =>
    obtain ⟨hc, h⟩ := whenIdle_next _ _ _ h
    exact flagOutcome_call _ s t _ hc (unpackFrame_quiet s _ n).1 (.inl (unpackFrame_quiet s _ n).2) h
  | decode =>
    obtain ⟨hc, h⟩ := whenIdle_next _ _ _ h
    exact decodeOutcome_call _ s s t _ hc ⟨Quiet.refl s, RecordsKept.refl s⟩ (.inl rfl)
      (fun r hr => decodePayload_quiet s r hr) h
  | decFwver =>
    obtain ⟨hc, h⟩ := whenIdle_next _ _ _ h
    exact flagOutcome_call _ s t _ hc (decodeFwver_quiet s).1 (.inr ⟨.inr (.inl rfl), (decodeFwver_quiet s).2⟩) h
  | decTelem =>
    obtain ⟨hc, h⟩ := whenIdle_next _ _ _ h
    exact decodeOutcome_call _ s s t _ hc ⟨Quiet.refl s, RecordsKept.refl s⟩ (.inr (.inr (.inl rfl)))
      (fun r hr => decodeTelem_quiet s r hr) h
  | frameS p => cases h; exact .arrival p _ (.inl rfl)
  | frameL p => cases h; exact .arrival p _ (.inr rfl)
  | cmdFwVersion fs =>
    exact replyOutcome_call _ s t _ (whenIdle_next _ _ _ h).1 (.inr (.inr (.inr (.inl ⟨fs, rfl⟩)))) (whenIdle_next _ _ _ h).2
  | cmdTelemetry fs =>
    exact replyOutcome_call _ s t _ (whenIdle_next _ _ _ h).1 (.inr (.inr (.inr (.inr ⟨fs, rfl⟩)))) (whenIdle_next _ _ _ h).2
  | cmdSetCurrent v => exact requestArg_call _ s t _ _ _ (whenIdle_next _ _ _ h).1 (whenIdle_next _ _ _ h).2
  | cmdSetBrake v => exact requestArg_call _ s t _ _ _ (whenIdle_next _ _ _ h).1 (whenIdle_next _ _ _ h).2
  | cmdSetRpm v => exact requestArg_call _ s t _ _ _ (whenIdle_next _ _ _ h).1 (whenIdle_next _ _ _ h).2
  | cmdSetDuty v => exact requestArg_call _ s t _ _ _ (whenIdle_next _ _ _ h).1 (whenIdle_next _ _ _ h).2
  | cmdSetRc => exact requestOutcome_call _ s t _ (whenIdle_next _ _ _ h).1 (whenIdle_next _ _ _ h).2
  | cmdKeepalive => exact requestOutcome_call _ s t _ (whenIdle_next _ _ _ h).1 (whenIdle_next _ _ _ h).2
  | cmdForward fwd inner => exact requestOutcome_call _ s t _ (whenIdle_next _ _ _ h).1 (whenIdle_next _ _ _ h).2
  | fieldSi16 n => exact putOutcome_call _ s t _ (whenIdle_next _ _ _ h).1 (whenIdle_next _ _ _ h).2
  | fieldSi32 n => exact putOutcome_call _ s t _ (whenIdle_next _ _ _ h).1 (whenIdle_next _ _ _ h).2
  | fieldI32 v => exact putOutcome_call _ s t _ (whenIdle_next _ _ _ h).1 (whenIdle_next _ _ _ h).2
  | fieldBool b => exact putOutcome_call _ s t _ (whenIdle_next _ _ _ h).1 (whenIdle_next _ _ _ h).2
  | fieldU8 v => exact putOutcome_call _ s t _ (whenIdle_next _ _ _ h).1 (whenIdle_next _ _ _ h).2
  | getFwVersion fwd => exact queryStep_call _ .fwVersion _ fwd s t ⟨fwd, rfl⟩ h
  | getValues fwd => exact queryStep_call _ .values _ fwd s t ⟨fwd, rfl⟩ h
  | setCurrent v fwd => exact sendArg_call _ s t _ _ _ fwd (whenIdle_next _ _ _ h).1 (whenIdle_next _ _ _ h).2
  | setBrakeCurrent v fwd => exact sendArg_call _ s t _ _ _ fwd (whenIdle_next _ _ _ h).1 (whenIdle_next _ _ _ h).2
  | setRpm v fwd => exact sendArg_call _ s t _ _ _ fwd (whenIdle_next _ _ _ h).1 (whenIdle_next _ _ _ h).2
  | setDuty v fwd => exact sendArg_call _ s t _ _ _ fwd (whenIdle_next _ _ _ h).1 (whenIdle_next _ _ _ h).2
  | setRcState fwd => exact sendFields_call _ s t _ fwd (whenIdle_next _ _ _ h).1 (whenIdle_next _ _ _ h).2
  | keepalive fwd => exact sendFields_call _ s t _ fwd (whenIdle_next _ _ _ h).1 (whenIdle_next _ _ _ h).2

/-- Everything a step can do when it answers a next state: it waits, or it runs the decoded item. -/
theorem step_next (s t : State) (h : step s = .next t) :
    (s.port = [] ∧ t = s.takeInput) ∨
      ∃ i rest u, decode s.port = .ok (i, rest) ∧ exec i s.takeInput = .next u ∧ t = u.retire rest := by
  unfold step at h
  have hp : s.takeInput.port = s.port := rfl
  rw [hp] at h
  split at h
  · rename_i e; cases h; exact .inl ⟨e, rfl⟩
  · rename_i e
    rw [← e] at h
    split at h
    · cases h
    · rename_i i rest hd
      refine .inr ⟨i, rest, ?_⟩
      cases hx : exec i s.takeInput with
      | next u => rw [hx] at h; cases h; exact ⟨u, hd, rfl, rfl⟩
      | fault => rw [hx] at h; cases h
      | refused => rw [hx] at h; cases h

/-- Retiring an item touches nothing but the port. -/
theorem retire_frame (s : State) (rest : List Byte) : ∃ p, s.retire rest = { s with port := p } := by
  unfold State.retire
  split <;> exact ⟨_, rfl⟩

end Sys2Proof.Machine
end

