-- ==== Sys2Proof/Laws/PerInstr.lean ====
section
/-! SUPPORT. One lemma per instruction: its encoding opens with a byte that the decoder takes for a selector (30_encoding.md
R80; assumption log 1). -/

namespace Sys2Proof.Laws.EncodeSelector

/-- The first byte of the instruction's encoding selects a reader of operands. -/
def Statement (i : Instr) : Prop := ((encode i).head?.bind fun b => operandsOf b.toNat).isSome = true

theorem crc16 (src : Src) : Statement (.crc16 src) := rfl
theorem curReset (src : Src) (len : Nat) : Statement (.curReset src len) := rfl
theorem putSi16 (value scale : Value) : Statement (.putSi16 value scale) := rfl
theorem putSi32 (value scale : Value) : Statement (.putSi32 value scale) := rfl
theorem putI32 (v : Word) : Statement (.putI32 v) := rfl
theorem putBool (b : Bool) : Statement (.putBool b) := rfl
theorem putU8 (v : Byte) : Statement (.putU8 v) := rfl
theorem getSi16 (scale : Value) : Statement (.getSi16 scale) := rfl
theorem getSi32 (scale : Value) : Statement (.getSi32 scale) := rfl
theorem getI32 : Statement .getI32 := rfl
theorem getBool : Statement .getBool := rfl
theorem getU8 : Statement .getU8 := rfl
theorem skip (n : Nat) : Statement (.skip n) := rfl
theorem build (src : Src) (fwd : Byte) : Statement (.build src fwd) := rfl
theorem send (src : Src) (fwd : Byte) : Statement (.send src fwd) := rfl
theorem rxStart : Statement .rxStart := rfl
theorem rxStep : Statement .rxStep := rfl
theorem rxResult : Statement .rxResult := rfl
theorem receive : Statement .receive := rfl
theorem unpack (src : FrameSrc) (n : Nat) : Statement (.unpack src n) := by
  cases src <;> rfl
theorem decode : Statement .decode := rfl
theorem decFwver : Statement .decFwver := rfl
theorem decTelem : Statement .decTelem := rfl
theorem frameS (payload : List Byte) : Statement (.frameS payload) := rfl
theorem frameL (payload : List Byte) : Statement (.frameL payload) := rfl
theorem cmdFwVersion (fields : List Byte) : Statement (.cmdFwVersion fields) := rfl
theorem cmdTelemetry (fields : List Byte) : Statement (.cmdTelemetry fields) := rfl
theorem cmdSetCurrent (v : Value) : Statement (.cmdSetCurrent v) := rfl
theorem cmdSetBrake (v : Value) : Statement (.cmdSetBrake v) := rfl
theorem cmdSetRpm (v : Value) : Statement (.cmdSetRpm v) := rfl
theorem cmdSetDuty (v : Value) : Statement (.cmdSetDuty v) := rfl
theorem cmdSetRc : Statement .cmdSetRc := rfl
theorem cmdKeepalive : Statement .cmdKeepalive := rfl
theorem cmdForward (fwd : Byte) (inner : List Byte) : Statement (.cmdForward fwd inner) := rfl
theorem fieldSi16 (n : Half) : Statement (.fieldSi16 n) := rfl
theorem fieldSi32 (n : Word) : Statement (.fieldSi32 n) := rfl
theorem fieldI32 (v : Word) : Statement (.fieldI32 v) := rfl
theorem fieldBool (b : Bool) : Statement (.fieldBool b) := rfl
theorem fieldU8 (v : Byte) : Statement (.fieldU8 v) := rfl
theorem getFwVersion (fwd : Byte) : Statement (.getFwVersion fwd) := rfl
theorem getValues (fwd : Byte) : Statement (.getValues fwd) := rfl
theorem setCurrent (v : Value) (fwd : Byte) : Statement (.setCurrent v fwd) := rfl
theorem setBrakeCurrent (v : Value) (fwd : Byte) : Statement (.setBrakeCurrent v fwd) := rfl
theorem setRpm (v : Value) (fwd : Byte) : Statement (.setRpm v fwd) := rfl
theorem setDuty (v : Value) (fwd : Byte) : Statement (.setDuty v fwd) := rfl
theorem setRcState (fwd : Byte) : Statement (.setRcState fwd) := rfl
theorem keepalive (fwd : Byte) : Statement (.keepalive fwd) := rfl

end Sys2Proof.Laws.EncodeSelector
end

