-- ==== Sys2Proof/Tests/Slice0.lean ====
section
/-! SUPPORT. Own tests: the well-formedness checks refuse, each constructor's decoding by bytes written out by hand, one step
of each instruction against the vectors of spec/95_test_vectors.md (V and P numbers) or a hand calculation from the cited
rule, and for each statement with hypotheses a named witness that meets them. -/

namespace Sys2Proof.Tests

set_option Elab.async false

open Sys2Proof Sys2Proof.Machine

/-! ### The well-formedness checks refuse what no format holds (R61, R62, R73) -/

theorem test_wf_frameS : (Instr.frameS (List.replicate 256 0)).wellFormed = false := by decide +kernel
theorem test_wf_frameS_largest : (Instr.frameS (List.replicate 255 0)).wellFormed = true := by decide +kernel
theorem test_wf_frameL : (Instr.frameL (List.replicate 65536 0)).wellFormed = false := by
  rw [Instr.wellFormed, List.length_replicate]
  decide
theorem test_wf_cmdFwVersion : (Instr.cmdFwVersion (List.replicate 255 0)).wellFormed = false := by decide +kernel
theorem test_wf_cmdTelemetry : (Instr.cmdTelemetry (List.replicate 255 0)).wellFormed = false := by decide +kernel

/-! ### Decoding, from bytes written out by hand: operation codes from R80, the rest from assumption log 1 -/

/-- The bytes are one whole item. -/
abbrev Reads (bs : List Byte) (i : Instr) : Prop := (decode bs).toOption = some (i, [])

theorem test_decode_crc16 : Reads [0x00, 0x00, 0x01, 0x04] (.crc16 (.lit [0x04])) := by decide
theorem test_decode_curReset : Reads [0x01, 0x01, 0x80, 0x02] (.curReset .built 256) := by decide
theorem test_decode_putSi16 : Reads [0x02, 0x00, 0xFA, 0x03, 0x09, 0x00, 0x12, 0x00] (.putSi16 (.fin (253 / 10)) (.fin 10)) := by decide +kernel
theorem test_decode_putSi32 : Reads [0x03, 0x00, 0x05, 0x01, 0x00, 0xCE, 0x0F, 0x00] (.putSi32 (.fin (-3 / 2)) (.fin 1000)) := by decide +kernel
theorem test_decode_putI32 : Reads [0x04, 0x80, 0x00, 0x00, 0x01] (.putI32 0x80000001) := by decide
theorem test_decode_putBool : Reads [0x05, 0x01] (.putBool true) := by decide
theorem test_decode_putU8 : Reads [0x06, 0x2A] (.putU8 0x2A) := by decide
theorem test_decode_getSi16 : Reads [0x07, 0x00, 0x12, 0x00] (.getSi16 (.fin 10)) := by decide
theorem test_decode_getSi32 : Reads [0x08, 0x03] (.getSi32 .nan) := by decide
theorem test_decode_getI32 : Reads [0x09] (.getI32) := by decide
theorem test_decode_getBool : Reads [0x0A] (.getBool) := by decide
theorem test_decode_getU8 : Reads [0x0B] (.getU8) := by decide
theorem test_decode_skip : Reads [0x0C, 0x64] (.skip 100) := by decide
theorem test_decode_build : Reads [0x0D, 0x03, 0x07] (.build .paybuf 0x07) := by decide
theorem test_decode_send : Reads [0x0E, 0x01, 0x07] (.send .built 0x07) := by decide
theorem test_decode_rxStart : Reads [0x0F] (.rxStart) := by decide
theorem test_decode_rxStep : Reads [0x10] (.rxStep) := by decide
theorem test_decode_rxResult : Reads [0x11] (.rxResult) := by decide
theorem test_decode_receive : Reads [0x12] (.receive) := by decide
theorem test_decode_unpack : Reads [0x13, 0x02, 0x06] (.unpack .rxbuf 6) := by decide
theorem test_decode_decode : Reads [0x14] (.decode) := by decide
theorem test_decode_decFwver : Reads [0x15] (.decFwver) := by decide
theorem test_decode_decTelem : Reads [0x16] (.decTelem) := by decide
theorem test_decode_getFwVersion : Reads [0x20, 0x07] (.getFwVersion 0x07) := by decide
theorem test_decode_getValues : Reads [0x21, 0x00] (.getValues 0x00) := by decide
theorem test_decode_setCurrent : Reads [0x22, 0x00, 0x06, 0x01, 0x07] (.setCurrent (.fin (3 / 2)) 0x07) := by decide +kernel
theorem test_decode_setBrakeCurrent : Reads [0x23, 0x01, 0x00] (.setBrakeCurrent .posInf 0x00) := by decide
theorem test_decode_setRpm : Reads [0x24, 0x00, 0xF0, 0x2E, 0x00, 0x00] (.setRpm (.fin 3000) 0x00) := by decide
theorem test_decode_setDuty : Reads [0x25, 0x00, 0x02, 0x03, 0x00] (.setDuty (.fin (1 / 4)) 0x00) := by decide +kernel
theorem test_decode_setRcState : Reads [0x26, 0x01] (.setRcState 0x01) := by decide
theorem test_decode_keepalive : Reads [0x27, 0xFF] (.keepalive 0xFF) := by decide
theorem test_decode_frameS : Reads [0x40, 0x01, 0x04] (.frameS [0x04]) := by decide
theorem test_decode_frameL : Reads [0x41, 0x01, 0x04] (.frameL [0x04]) := by decide
theorem test_decode_cmdFwVersion : Reads [0x60, 0x02, 0x05, 0x02] (.cmdFwVersion [0x05, 0x02]) := by decide
theorem test_decode_cmdTelemetry : Reads [0x61, 0x00] (.cmdTelemetry []) := by decide
theorem test_decode_cmdSetCurrent : Reads [0x62, 0x00, 0x06, 0x01] (.cmdSetCurrent (.fin (3 / 2))) := by decide +kernel
theorem test_decode_cmdSetBrake : Reads [0x63, 0x02] (.cmdSetBrake .negInf) := by decide
theorem test_decode_cmdSetRpm : Reads [0x64, 0x00, 0x06, 0x00] (.cmdSetRpm (.fin 3)) := by decide
theorem test_decode_cmdSetDuty : Reads [0x65, 0x00, 0x00, 0x00] (.cmdSetDuty (.fin 0)) := by decide
theorem test_decode_cmdSetRc : Reads [0x66] (.cmdSetRc) := by decide
theorem test_decode_cmdKeepalive : Reads [0x67] (.cmdKeepalive) := by decide
theorem test_decode_cmdForward : Reads [0x68, 0x07, 0x02, 0x06, 0x2A] (.cmdForward 0x07 [0x06, 0x2A]) := by decide
theorem test_decode_fieldSi16 : Reads [0x80, 0x00, 0xFD] (.fieldSi16 0x00FD) := by decide
theorem test_decode_fieldSi32 : Reads [0x81, 0xFF, 0xFF, 0xFF, 0x6A] (.fieldSi32 0xFFFFFF6A) := by decide
theorem test_decode_fieldI32 : Reads [0x82, 0x00, 0x00, 0x0B, 0xB8] (.fieldI32 0x00000BB8) := by decide
theorem test_decode_fieldBool : Reads [0x83, 0x01] (.fieldBool true) := by decide
theorem test_decode_fieldU8 : Reads [0x84, 0x2A] (.fieldU8 0x2A) := by decide

/-- U14: an unused operation code selects nothing; a length byte beyond FRAME-S is no item; an item may not be cut off. -/
theorem test_decode_refuses :
    decode [0x17, 0x00] = .error (.noOperation 0x17) ∧ decode [0x1F] = .error (.noOperation 0x1F) ∧
      decode [0x04, 0x00, 0x00] = .error .truncated := ⟨rfl, rfl, rfl⟩

/-- The table's words: OP rows decode to their operation with zero operands. -/
theorem test_table_word : decodeTableWord 8 0x0D = some (.build (.lit []) 0x00) := by decide

/-! ### One step of each instruction -/

/-- A part of the state that an instruction answers. -/
def after {α : Type} (i : Instr) (s : State) (f : State → α) : Option α :=
  match exec i s with
  | .next t => some (f t)
  | .fault _ => none
  | .refused _ => none

/-- A state with these bytes waiting at the transport, this script and these items at the port. -/
def fresh (rxq : List Byte) (env : List EnvInput) (port : List Byte) : State :=
  { State.reset with rxq := rxq, env := env, port := port, accept := 1000 }

/-- Nothing in progress, nothing waiting. -/
def idle : State := fresh [] [] []

/-- A codec buffer of `len` bytes that opens with `bs`, the cursor at `cur`. -/
def codec (bs : List Byte) (len cur : Nat) : State := { idle with fbuf := Memory.ofBytes bs, flen := len, cur := cur }

/-- A validated payload in `PAYBUF`. -/
def holding (bs : List Byte) : State :=
  { idle with paybuf := Memory.ofBytes bs, paylen := BitVec.ofNat 8 bs.length }

/-- A read with these bytes buffered. -/
def reading (bs : List Byte) (st : RxState) (mk : Marker) (fin : Option Nat) (len : Byte) (call : Call)
    (rxq : List Byte) : State :=
  { idle with rxbuf := Memory.ofBytes bs, rxcnt := bs.length, rxs := st, rxmk := mk, rxend := fin, rxlen := len,
              call := call, rxq := rxq, rxdl := 100 }

/-- The frame of V24 but for its last byte, in a stepwise call, with its last byte waiting. -/
def lastByte (b : Byte) : State :=
  reading [0x02, 0x01, 0x04, 0x40, 0x84] .awaitPayload .short (some 6) 0x01 .stepwise [b]

/-- The same read, completed. -/
def complete : State :=
  reading [0x02, 0x01, 0x04, 0x40, 0x84, 0x03] .done .short (some 6) 0x01 .stepwise []

/-- The field area of P3. -/
def p3 : List Byte :=
  [0x00, 0xFD, 0x01, 0x3D, 0xFF, 0xFF, 0xFF, 0x6A, 0x00, 0x00, 0x00, 0x4B, 0xDE, 0xAD, 0xBE, 0xEF, 0x11, 0x22, 0x33, 0x44,
   0x01, 0xC7, 0xFF, 0xFF, 0xF4, 0x48, 0x01, 0xF8, 0x00, 0x00, 0x30, 0x39, 0x00, 0x00, 0x00, 0x0C] ++
  [0x00, 0x06, 0xF8, 0x55, 0x00, 0x00, 0x13, 0x88, 0x00, 0x01, 0xE2, 0x40, 0x00, 0x09, 0xFB, 0xF1, 0x00,
   0x0A, 0xC2, 0x36, 0x20, 0x07]

-- V1, V8
theorem test_crc16 : after (.crc16 (.lit [0x04])) idle (·.result) = some (.crc 0x4084) := by decide
theorem test_crc16_check :
    after (.crc16 (.lit [0x31, 0x32, 0x33, 0x34, 0x35, 0x36, 0x37, 0x38, 0x39])) idle (·.result) = some (.crc 0x31C3) := by
  decide +kernel
-- R101
theorem test_curReset :
    after (.curReset (.lit [0x00, 0xFD, 0x01]) 3) (codec [] 9 7) (fun t => (t.cur, t.flen, t.fbuf)) =
      some (0, 3, [(1, 0xFD), (2, 0x01)]) := by decide
-- V13: the tie of -0.05 * 10 goes away from zero; V15: 4000.0 * 10 wraps to 9C 40
theorem test_putSi16_tie :
    after (.putSi16 (.fin (-1 / 20)) (.fin 10)) (codec [] 8 0) (fun t => (t.built, t.cur)) = some ([0xFF, 0xFF], 2) := by
  decide +kernel
theorem test_putSi16_wraps :
    after (.putSi16 (.fin 4000) (.fin 10)) (codec [] 8 0) (fun t => (t.built, t.status)) = some ([0x9C, 0x40], .ok) := by
  decide +kernel
-- V16, V17
theorem test_putSi32 :
    after (.putSi32 (.fin (-3 / 2)) (.fin 1000)) (codec [] 8 0) (·.built) = some [0xFF, 0xFF, 0xFA, 0x24] := by
  decide +kernel
theorem test_putSi32_wraps :
    after (.putSi32 (.fin (2147483648 / 1000)) (.fin 1000)) (codec [] 8 0) (·.built) = some [0x80, 0x00, 0x00, 0x00] := by
  decide +kernel
-- V18, V20
theorem test_putI32 : after (.putI32 0xFFFFF448) (codec [] 8 0) (·.built) = some [0xFF, 0xFF, 0xF4, 0x48] := by decide
theorem test_putI32_overrun :
    after (.putI32 1) (codec [] 3 0) (fun t => (t.fbuf, t.cur, t.status)) = some ([], 4, .codecOverrun) := by decide
-- V19
theorem test_putBool : after (.putBool true) (codec [] 8 0) (·.built) = some [0x01] := by decide
theorem test_putU8 : after (.putU8 0x2A) (codec [] 8 7) (fun t => (t.fbuf, t.cur)) = some ([(7, 0x2A)], 8) := by decide
-- V14, V12
theorem test_getSi16 : after (.getSi16 (.fin 10)) (codec [0xFF, 0xFF] 2 0) (·.result) = some (.value (-1 / 10)) := by
  decide +kernel
theorem test_getSi16_lowest :
    after (.getSi16 (.fin 10)) (codec [0x80, 0x00] 2 0) (·.result) = some (.value (-32768 / 10)) := by decide +kernel
-- V16
theorem test_getSi32 :
    after (.getSi32 (.fin 1000)) (codec [0xFF, 0xFF, 0xFA, 0x24] 4 0) (·.result) = some (.value (-3 / 2)) := by
  decide +kernel
-- V18
theorem test_getI32 : after .getI32 (codec [0x80, 0x00, 0x00, 0x00] 4 0) (·.result) = some (.int32 (-2147483648)) := by
  decide
-- V19, V20
theorem test_getBool : after .getBool (codec [0x02] 1 0) (·.result) = some (.flag true) := by decide
theorem test_getU8 : after .getU8 (codec [0xFF] 1 0) (·.result) = some (.byte 0xFF) := by decide
theorem test_getU8_overrun :
    after .getU8 (codec [0xFF] 1 1) (fun t => (t.result, t.cur, t.status)) = some (.empty, 2, .codecOverrun) := by decide
-- V21
theorem test_skip : after (.skip 100) (codec [] 24 20) (fun t => (t.cur, t.status)) = some (120, .ok) := by decide
-- R46, R101: a payload of four bytes, none of which stands in the buffer; its frame is built all the same
theorem test_build_outside : after (.build .built 0) (codec [] 0 4) (fun t => (t.txbuf.length, t.status)) = some (9, .ok) := by
  decide
-- V27
theorem test_build_forwarded :
    after (.build (.lit [0x06, 0x00, 0x00, 0x05, 0xDC]) 7) idle (·.txbuf) =
      some [0x02, 0x07, 0x22, 0x07, 0x06, 0x00, 0x00, 0x05, 0xDC, 0xFE, 0xD5, 0x03] := by decide +kernel
-- V29, V28
theorem test_send :
    after (.send (.lit [0x04]) 0) { idle with accept := 4 } (fun t => (t.txlog, t.result)) =
      some ([0x02, 0x01, 0x04, 0x40], .count 4) := by decide +kernel
-- R220: the transport is tested before anything else, here before a payload that reaches past the buffer
theorem test_send_unbound :
    after (.send .built 0) { codec [] 0 4 with cfgBound := false } (fun t => (t.txlog, t.result, t.status)) =
      some ([], .count 0, .transportUnbound) := by decide +kernel
-- P2's first row: RXDL = 1100
theorem test_rxStart :
    after .rxStart { idle with now := 1000 } (fun t => (t.rxdl, t.rxs, t.busy)) = some (1100, .awaitLength, true) := by decide
-- R272: the stepwise receive returns at RX_RESULT, not at RX_START
theorem test_rxStart_returns_nothing : after .rxStart idle (fun t => (t.status, t.returns)) = some (.ok, []) := by decide
-- V31, V33
theorem test_rxStep_done : after .rxStep (lastByte 0x03) (fun t => (t.rxs, t.rxcnt, t.rxq)) = some (.done, 6, []) := by
  decide
theorem test_rxStep_deadline :
    after .rxStep { lastByte 0x03 with now := 100 } (fun t => (t.rxs, t.rxcnt, t.rxq)) = some (.timedOut, 5, [0x03]) := by
  decide
-- V31, V34
theorem test_rxResult :
    after .rxResult complete (fun t => (t.result, t.status, t.payload, t.busy)) = some (.count 1, .ok, [0x04], false) := by
  decide +kernel
theorem test_rxResult_integrity :
    after .rxResult { complete with rxbuf := Memory.ofBytes [0x02, 0x01, 0x04, 0x40, 0x85, 0x03] }
      (fun t => (t.result, t.status, t.payload)) = some (.count 0, .integrityFailure, [0x04]) := by decide +kernel
-- R161, P2
theorem test_receive_begins : after .receive { idle with status := .timeout } (fun t => (t.rxs, t.call, t.status)) =
    some (.awaitLength, .receive, .ok) := by decide
theorem test_receive_ends :
    after .receive { lastByte 0x03 with call := .receive } (fun t => (t.result, t.status, t.busy)) =
      some (.count 1, .ok, false) := by decide +kernel
-- V46, V45
theorem test_unpack :
    after (.unpack (.given <| .lit [0x02, 0x01, 0x04, 0x40, 0x84, 0xFF]) 6) idle (fun t => (t.result, t.payload)) =
      some (.flag true, [0x04]) := by decide +kernel
theorem test_unpack_structure :
    after (.unpack (.given <| .lit [0x02, 0x01, 0x04, 0x40, 0x84, 0x03]) 7) idle (fun t => (t.result, t.status)) =
      some (.flag false, .structuralReject) := by decide +kernel
-- V47, V48
theorem test_decode :
    after .decode (holding [0x00, 0x05, 0x02]) (fun t => (t.result, t.fwv, t.cur)) = some (.flag true, some ⟨5, 2⟩, 2) := by
  decide
theorem test_decode_unknown :
    after .decode (holding [0xFF, 0x01, 0x02]) (fun t => (t.status, t.fbuf, t.cur, t.fwv)) =
      some (.unknownCommand, [(0, 0x01), (1, 0x02)], 0, none) := by decide
-- R188
theorem test_decFwver : after .decFwver (codec [0x05, 0x02, 0x09] 3 0) (fun t => (t.fwv, t.cur)) = some (some ⟨5, 2⟩, 2) := by
  decide
theorem test_decFwver_short : after .decFwver (codec [0x05] 1 0) (fun t => (t.status, t.fwv)) = some (.codecOverrun, none) := by
  decide
-- P3, V49
theorem test_decTelem :
    after .decTelem (codec p3 58 0) (fun t => t.snap.map fun v =>
      ([v.tempMotor, v.avgMotorCurrent, v.dutyCycle, v.position], [v.rpm, v.tachometerAbs], v.controllerId)) =
      some (some ([253 / 10, -3 / 2, 455 / 1000, 361 / 2], [-3000, 654321], 7)) := by decide +kernel
theorem test_decTelem_short :
    after .decTelem (codec p3 57 0) (fun t => (t.status, t.snap, t.cur)) = some (.codecOverrun, none, 0) := by decide
-- V24, V37: the bytes that arrive
theorem test_frameS : after (.frameS [0x04]) idle (·.rxq) = some [0x02, 0x01, 0x04, 0x40, 0x84, 0x03] := by decide +kernel
theorem test_frameL : after (.frameL [0x04]) idle (·.rxq) = some [0x03, 0x00, 0x01, 0x04, 0x40, 0x84, 0x03] := by
  decide +kernel
-- V47; P3
theorem test_cmdFwVersion :
    after (.cmdFwVersion [0x05, 0x02]) idle (fun t => (t.fwv, t.payload)) = some (some ⟨5, 2⟩, [0x00, 0x05, 0x02]) := by
  decide +kernel
theorem test_cmdTelemetry :
    after (.cmdTelemetry p3) idle (fun t => (t.crc, t.snap.map fun v => (v.ampHours, v.inputVoltage))) =
      some (0xAFAF, some (12345 / 10000, 504 / 10)) := by decide +kernel
-- V26
theorem test_cmdSetCurrent :
    after (.cmdSetCurrent (.fin (3 / 2))) idle (·.built) = some [0x06, 0x00, 0x00, 0x05, 0xDC] := by decide +kernel
theorem test_cmdSetBrake : after (.cmdSetBrake (.fin (3 / 2))) idle (·.built) = some [0x07, 0x00, 0x00, 0x05, 0xDC] := by
  decide +kernel
theorem test_cmdSetRpm : after (.cmdSetRpm (.fin 3000)) idle (·.built) = some [0x08, 0x00, 0x00, 0x0B, 0xB8] := by
  decide +kernel
theorem test_cmdSetDuty : after (.cmdSetDuty (.fin (1 / 4))) idle (·.built) = some [0x05, 0x00, 0x00, 0x61, 0xA8] := by
  decide +kernel
theorem test_cmdSetRc :
    after .cmdSetRc { idle with rc := ⟨128, 255, true, false⟩ } (·.built) =
      some [0x23, 0x80, 0xFF, 0x01, 0x00, 0x00, 0x00, 0x00, 0x00, 0x00, 0x00] := by decide
theorem test_cmdKeepalive : after .cmdKeepalive idle (·.built) = some [0x1E] := by decide
-- V27
theorem test_cmdForward :
    after (.cmdForward 7 [0x06, 0x00, 0x00, 0x05, 0xDC]) idle (·.built) =
      some [0x22, 0x07, 0x06, 0x00, 0x00, 0x05, 0xDC] := by decide
-- R67 to R71
theorem test_fieldSi16 : after (.fieldSi16 0x00FD) (codec [] 8 0) (·.built) = some [0x00, 0xFD] := by decide
theorem test_fieldSi32 : after (.fieldSi32 0xFFFFFF6A) (codec [] 8 0) (·.built) = some [0xFF, 0xFF, 0xFF, 0x6A] := by decide
theorem test_fieldI32 : after (.fieldI32 0x00000BB8) (codec [] 8 0) (·.built) = some [0x00, 0x00, 0x0B, 0xB8] := by decide
theorem test_fieldBool : after (.fieldBool false) (codec [0xAA] 8 0) (·.built) = some [0x00] := by decide
theorem test_fieldU8 : after (.fieldU8 0x2A) (codec [] 8 0) (·.built) = some [0x2A] := by decide
-- P1: the request of GET_VALUES, and SEND's count; R201, and R14 after an earlier call that failed
theorem test_getValues : after (.getValues 0) { idle with status := .timeout } (fun t => (t.txlog, t.status, t.result)) =
    some ([0x02, 0x01, 0x04, 0x40, 0x84, 0x03], .ok, .count 6) := by decide +kernel
theorem test_getFwVersion : after (.getFwVersion 0) idle (fun t => (t.txlog, t.call, t.rxs)) =
    some ([0x02, 0x01, 0x00, 0x00, 0x00, 0x03], .awaiting .fwVersion, .awaitLength) := by decide +kernel
-- V26, P4
theorem test_setCurrent :
    after (.setCurrent (.fin (3 / 2)) 7) idle (·.txlog) =
      some [0x02, 0x07, 0x22, 0x07, 0x06, 0x00, 0x00, 0x05, 0xDC, 0xFE, 0xD5, 0x03] := by decide +kernel
theorem test_setBrakeCurrent : after (.setBrakeCurrent (.fin (3 / 2)) 0) idle (fun t => (t.built, t.result)) =
    some ([0x07, 0x00, 0x00, 0x05, 0xDC], .count 10) := by decide +kernel
theorem test_setRpm :
    after (.setRpm (.fin 3000) 0) idle (·.txlog) = some [0x02, 0x05, 0x08, 0x00, 0x00, 0x0B, 0xB8, 0xF8, 0x04, 0x03] := by
  decide +kernel
-- R204, log 19: a speed that no raw field holds is sent all the same; its four bytes are open
theorem test_setRpm_open : after (.setRpm (.fin (1 / 2)) 0) idle (fun t => (t.txlog.take 3, t.txlog.length, t.status)) =
    some ([0x02, 0x05, 0x08], 10, .ok) := by decide +kernel
theorem test_setDuty :
    after (.setDuty (.fin (1 / 4)) 0) idle (·.txlog) =
      some [0x02, 0x05, 0x05, 0x00, 0x00, 0x61, 0xA8, 0x2F, 0xAE, 0x03] := by decide +kernel
theorem test_setRcState :
    after (.setRcState 0) { idle with rc := ⟨128, 255, true, false⟩ } (·.txlog) =
      some [0x02, 0x0B, 0x23, 0x80, 0xFF, 0x01, 0x00, 0x00, 0x00, 0x00, 0x00, 0x00, 0x00, 0xFD, 0x5A, 0x03] := by
  decide +kernel
theorem test_keepalive : after (.keepalive 0) idle (·.txlog) = some [0x02, 0x01, 0x1E, 0xF3, 0xFF, 0x03] := by
  decide +kernel

/-! ### Witnesses: states and operands that meet the hypotheses of each statement -/

/-- A quiet input: the environment does nothing in that step. -/
def quiet : EnvInput := ⟨0, [], 1000, none⟩

/-- The invariant, clause by clause, in a form that can be evaluated. -/
abbrev Checks (s : State) : Prop :=
  (Memory.wf s.rxbuf ∧ Memory.below s.rxbuf Config.rxCap ∧ Memory.wf s.paybuf ∧ Memory.below s.paybuf Config.payCap ∧
    Memory.wf s.fbuf ∧ Memory.below s.fbuf s.flen) ∧
  (s.rxcnt ≤ Config.rxCap ∧ (s.rxs = .awaitLength → s.rxcnt < 2) ∧
    (s.rxs = .awaitPayload → 2 ≤ s.rxcnt ∧ s.rxcnt < Config.rxCap) ∧ (s.rxend.isSome = true ↔ s.rxmk = .short) ∧
    (s.rxmk = .short →
      s.rxend = some ((Memory.read s.rxbuf 1).toNat + Config.shortOverhead) ∧ s.rxlen = Memory.read s.rxbuf 1) ∧
    (s.rxs = .done → s.rxmk = .short ∧ Memory.read s.rxbuf 0 = Config.markerShort ∧
      s.rxend = some s.rxcnt ∧ Memory.read s.rxbuf (s.rxcnt - 1) = Config.terminator) ∧
    (s.rxs = .rejected → s.rxcnt = Config.rxCap) ∧ (s.rxmk = .unread ↔ s.rxcnt < 2) ∧
    (2 ≤ s.rxcnt → s.rxmk = Marker.ofByte (Memory.read s.rxbuf 0))) ∧
  ((s.call = .none → s.rxs.active = false) ∧ (s.call = .stepwise → s.rxs ≠ .idle) ∧
    (s.call = .receive → s.rxs.active = true) ∧
    (∀ q ∈ [Query.fwVersion, Query.values], s.call = .awaiting q → s.rxs.active = true))

theorem inv_of_checks (s : State) (h : Checks s) : s.Inv := by
  obtain ⟨⟨a, b, c, d, e, f⟩, ⟨g, h, i, j, k, l, m, n, o⟩, p, q, r, u⟩ := h
  exact ⟨⟨a, b, c, d, e, f⟩, ⟨g, h, i, j, k, l, m, n, o⟩,
    ⟨p, q, r, fun x => u x (by cases x <;> simp)⟩⟩

theorem inv_fresh (rxq : List Byte) (env : List EnvInput) (port : List Byte) : (fresh rxq env port).Inv := by
  have h : idle.Inv := inv_of_checks _ (by decide)
  exact ⟨⟨h.1.1, h.1.2, h.1.3, h.1.4, h.1.5, h.1.6⟩,
    ⟨h.2.1, h.2.2, h.2.3, h.2.4, h.2.5, h.2.6, h.2.7, h.2.8, h.2.9⟩, ⟨h.3.1, h.3.2, h.3.3, h.3.4⟩⟩

theorem inv_lastByte : (lastByte 0x03).Inv := inv_of_checks _ (by decide)

theorem inv_complete : complete.Inv := inv_of_checks _ (by decide)

/-- A read that timed out before any byte, one that timed out behind a flagged marker, and one that filled the buffer. -/
def timedOut : State := reading [] .timedOut .unread none 0 .stepwise []
def flagged : State := reading [0x05, 0x02] .timedOut .invalid none 0 .stepwise []
def flaggedLong : State := reading [0x03, 0x00] .awaitPayload .longUnsupported none 0 .stepwise [0x01]
def full : State := reading (0x05 :: List.replicate 255 0x00) .rejected .invalid none 0 .stepwise []

theorem inv_timedOut : timedOut.Inv := inv_of_checks _ (by decide)

theorem inv_flagged : flagged.Inv := inv_of_checks _ (by decide)

theorem inv_flaggedLong : flaggedLong.Inv := inv_of_checks _ (by decide)

theorem inv_full : full.Inv := inv_of_checks _ (by decide +kernel)

theorem test_witness_EncodedItemsDecodeBack :
    (Instr.frameS (List.replicate 255 0)).wellFormed = true ∧ (Instr.cmdFwVersion []).wellFormed = true := by
  decide +kernel

theorem test_witness_DecodedItemsAreWellFormed : ∃ i rest, decode [0x40, 0x01, 0x04, 0x10] = .ok (i, rest) := ⟨_, _, rfl⟩

theorem test_witness_UnusedOperationCodesAreRefused :
    (0x17 ≤ (0x17 : Byte).toNat ∧ (0x17 : Byte).toNat ≤ 0x1F ∧ (fresh [] [quiet] [0x17]).port = 0x17 :: []) ∧
      (0x17 ≤ (0x1F : Byte).toNat ∧ (0x1F : Byte).toNat ≤ 0x1F ∧ (fresh [] [quiet] [0x1F]).port = 0x1F :: []) := by
  decide

/-- One witness for each of the four outcomes: a call that ends, a call that holds the port, a fault, a refusal. -/
theorem test_witness_StepRunsTheDecodedItem :
    (∃ i rest t, decode (fresh [] [quiet] [0x10]).port = .ok (i, rest) ∧
      exec i (fresh [] [quiet] [0x10]).takeInput = .next t ∧ t.call.holdsPort = false) ∧
    (∃ i rest t, decode (fresh [] [quiet] [0x12]).port = .ok (i, rest) ∧
      exec i (fresh [] [quiet] [0x12]).takeInput = .next t ∧ t.call.holdsPort = true) ∧
    (∃ i rest f, decode [0x10] = .ok (i, rest) ∧
      exec i ({ lastByte 0x00 with rxcnt := 256, env := [quiet], port := [0x10] } : State).takeInput = .fault f) ∧
    (∃ i rest r, decode (fresh [] [quiet] [0x11]).port = .ok (i, rest) ∧
      exec i (fresh [] [quiet] [0x11]).takeInput = .refused r) :=
  ⟨⟨_, _, _, rfl, rfl, rfl⟩, ⟨_, _, _, rfl, rfl, rfl⟩, ⟨_, _, _, rfl, rfl⟩, ⟨_, _, _, rfl, rfl⟩⟩

/-- R30, R53: the caller's record changes between calls and not inside one. -/
theorem test_rc_between_calls :
    (idle.applyInput ⟨0, [], 0, some ⟨1, 2, true, true⟩⟩).rc = ⟨1, 2, true, true⟩ ∧
      (({ idle with call := .receive } : State).applyInput ⟨0, [], 0, some ⟨1, 2, true, true⟩⟩).rc = idle.rc := by decide

theorem test_witness_EnvironmentActsBetweenSteps :
    (fresh [] [quiet] []).env = quiet :: [] ∧ (fresh [] [quiet] []).port = [] := ⟨rfl, rfl⟩

theorem test_witness_EveryStepKeepsTheInvariant :
    (fresh [] [quiet] [0x12]).Inv ∧ ∃ t, step (fresh [] [quiet] [0x12]) = .next t := ⟨inv_fresh _ _ _, _, rfl⟩

/-- A `RECEIVE` in progress at the head of the port. -/
theorem test_witness_CallsKeepTheirPort :
    ({ fresh [] [quiet] [0x12] with call := .receive } : State).PortSound ∧
      ∃ t, step { fresh [] [quiet] [0x12] with call := .receive } = .next t := ⟨⟨_, rfl⟩, _, rfl⟩

theorem test_witness_SoundStatesNeverFault : (lastByte 0x03).Inv ∧ (fresh [] [] []).Inv := ⟨inv_lastByte, inv_fresh _ _ _⟩

theorem test_witness_ItemsLeaveConfigurationAndInputsAlone : ∃ t, exec (.putU8 1) idle = .next t := ⟨_, rfl⟩

/-- A step; an item that ends its call; one that leaves a call in progress; a poll and an arriving frame. -/
theorem test_witness_ClockAndLogsOnlyGrow :
    (∃ t, step (fresh [] [quiet] [0x0A]) = .next t) ∧
    (∃ t, exec .getBool idle = .next t ∧ t.busy = false ∧ ∀ p, Instr.getBool ≠ .frameS p ∧ Instr.getBool ≠ .frameL p) ∧
    (∃ t, exec .rxStart idle = .next t ∧ t.busy = true) ∧ (∃ t, exec .rxStep idle = .next t) ∧
    ∃ t, exec (.frameL [0x04]) idle = .next t :=
  ⟨⟨_, rfl⟩, ⟨_, rfl, rfl, fun _ => ⟨nofun, nofun⟩⟩, ⟨_, rfl, rfl⟩, ⟨_, rfl⟩, _, rfl⟩

theorem test_witness_RecordsChangeOnlyByDecoding :
    ∃ t, exec .decFwver (codec [0x05, 0x02] 2 0) = .next t ∧ t.fwv ≠ (codec [0x05, 0x02] 2 0).fwv :=
  ⟨_, rfl, by decide⟩

/-- A poll that takes a byte and a frame that arrives. -/
theorem test_witness_AtMostOneByteLeavesTheQueue :
    (∃ t, exec .rxStep (lastByte 0x03) = .next t) ∧ ∃ t, exec (.frameS [0x04]) idle = .next t := ⟨⟨_, rfl⟩, ⟨_, rfl⟩⟩

/-- An item of another call while a `RECEIVE`, a stepwise call and a query are in progress. -/
theorem test_witness_BusyRefusesEveryOtherCall :
    (({ idle with call := .receive } : State).busy = true ∧ (∀ p, Instr.rxStep ≠ .frameS p ∧ Instr.rxStep ≠ .frameL p) ∧
      Instr.rxStep ≠ .receive) ∧
    (({ idle with call := .stepwise } : State).busy = true ∧ Instr.receive ≠ .rxStep ∧ Instr.receive ≠ .rxResult) ∧
    (({ idle with call := .awaiting .values } : State).busy = true ∧
      ∀ fwd, Instr.getFwVersion 0 ≠ .getValues fwd) :=
  ⟨⟨rfl, fun _ => ⟨nofun, nofun⟩, nofun⟩, ⟨rfl, nofun, nofun⟩, rfl, fun _ => nofun⟩

/-- A written-out source, and the whole of a codec buffer with the cursor at its end. -/
theorem test_witness_Crc16ReturnsTheCrc :
    (idle.busy = false ∧ idle.bytesOf (.lit [0x04]) = [0x04]) ∧
      ((codec [0x04] 1 1).busy = false ∧ (codec [0x04] 1 1).bytesOf .built = [0x04]) := ⟨⟨rfl, rfl⟩, rfl, rfl⟩

theorem test_witness_CrcLaws : ([0x04, 0x01] : List Byte).length = ([0x00, 0xFF] : List Byte).length := rfl

/-- The first and the last byte the statement covers, for payload `04` (V44), and the largest payload's length. -/
theorem test_witness_SingleBitFlipsAreCaught :
    (idle.busy = false ∧ Memory.wf idle.paybuf ∧ (frameBytes [0x04])[2]? = some 0x04) ∧
      (frameBytes [0x04])[4]? = some 0x84 ∧ 4 < ([0x04] : List Byte).length + 4 ∧
      (List.replicate 255 (0 : Byte)).length ≤ 255 := by decide +kernel

theorem test_witness_CurResetBindsTheBuffer : idle.busy = false ∧ idle.bytesOf (.lit [0x00]) = [0x00] := ⟨rfl, rfl⟩

/-- A cursor at the end of the buffer and one past it. -/
theorem test_witness_ByteSourcesReadTheirBuffer :
    ((codec [0x04] 1 1).cur = 1 ∧ (codec [0x04] 1 1).flen = 1) ∧ (codec [0x04] 1 5).flen < (codec [0x04] 1 5).cur ∧
    complete.rxcnt = 6 := by decide

/-- A buffer that the field just fits, for the two-byte, four-byte and one-byte fields: `PUT_*`, FIELD rows and `GET_*`. -/
theorem test_witness_fields :
    ((codec [] 2 0).busy = false ∧ Memory.wf (codec [] 2 0).fbuf ∧ (codec [] 2 0).cur + 2 ≤ (codec [] 2 0).flen) ∧
    ((codec [] 7 3).busy = false ∧ Memory.wf (codec [] 7 3).fbuf ∧ (codec [] 7 3).cur + 4 ≤ (codec [] 7 3).flen) ∧
    ((codec [] 1 0).busy = false ∧ Memory.wf (codec [] 1 0).fbuf ∧ (codec [] 1 0).cur + 1 ≤ (codec [] 1 0).flen) := by
  decide

theorem test_witness_PutSi16LaysTheField :
    (codec [] 2 0).busy = false ∧ Memory.wf (codec [] 2 0).fbuf ∧ 0 < 10 ∧ (codec [] 2 0).cur + 2 ≤ (codec [] 2 0).flen ∧
      (codec [] 2 1).flen < (codec [] 2 1).cur + 2 := by decide

theorem test_witness_PutSi32LaysTheField :
    (codec [] 7 3).busy = false ∧ Memory.wf (codec [] 7 3).fbuf ∧ 0 < 1 ∧ (codec [] 7 3).cur + 4 ≤ (codec [] 7 3).flen ∧
      (codec [] 7 4).flen < (codec [] 7 4).cur + 4 := by decide

theorem test_witness_UnscaledPutsLayTheField :
    (codec [] 4 0).busy = false ∧ Memory.wf (codec [] 4 0).fbuf ∧ (codec [] 4 0).cur + 4 ≤ (codec [] 4 0).flen := by decide

/-- A buffer that the field just fits, and one that is a byte short. -/
theorem test_witness_FieldRowsLayTheField :
    FieldRow (.fieldI32 0x00000BB8) [0x00, 0x00, 0x0B, 0xB8] ∧ FieldRow (.fieldBool true) [0x01] ∧
      ((codec [] 4 0).busy = false ∧ Memory.wf (codec [] 4 0).fbuf ∧ (codec [] 4 0).cur + 4 ≤ (codec [] 4 0).flen) ∧
      (codec [] 3 0).flen < (codec [] 3 0).cur + 4 := ⟨.i32 _, .bool _, by decide, by decide⟩

theorem test_witness_OverrunAdvancesWithoutAccess :
    (CodecAccess (.putI32 1) 4 ∧ (codec [] 3 0).busy = false ∧ (codec [] 3 0).flen < (codec [] 3 0).cur + 4) ∧
      CodecAccess .getU8 1 ∧ (codec [] 3 3).flen < (codec [] 3 3).cur + 1 :=
  ⟨⟨.putI32 1, rfl, by decide⟩, .getU8, by decide⟩

theorem test_witness_GetSi16ReturnsTheQuotient :
    (codec [0xFF, 0xFF] 2 0).busy = false ∧ 0 < 10 ∧ (codec [0xFF, 0xFF] 2 0).cur + 2 ≤ (codec [0xFF, 0xFF] 2 0).flen ∧
      (codec [0xFF, 0xFF] 2 1).flen < (codec [0xFF, 0xFF] 2 1).cur + 2 := by decide

theorem test_witness_GetSi32ReturnsTheQuotient :
    (codec [0xFF] 4 0).busy = false ∧ 0 < 1000 ∧ (codec [0xFF] 4 0).cur + 4 ≤ (codec [0xFF] 4 0).flen ∧
      (codec [0xFF] 4 1).flen < (codec [0xFF] 4 1).cur + 4 := by decide

theorem test_witness_UnscaledGetsReturnTheField :
    (codec [0xFF] 4 0).busy = false ∧ (codec [0xFF] 4 0).cur + 4 ≤ (codec [0xFF] 4 0).flen := by decide

theorem test_witness_SkipOnlyMovesTheCursor : (codec [] 0 7).busy = false := rfl

/-- Scale zero, a scale that is no integer, and a value that is not finite. -/
theorem test_witness_IllegalScalesAndValuesAreRefused :
    idle.busy = false ∧ (∀ n : Nat, 0 < n → Value.fin 0 ≠ .fin n) ∧ (∀ n : Nat, 0 < n → Value.nan ≠ .fin n) ∧
      (0 < 10 ∧ ∀ q, Value.posInf ≠ .fin q) := by
  refine ⟨rfl, fun n h e => ?_, fun _ _ => nofun, by decide, fun _ => nofun⟩
  injection e with e
  have : (n : Rat) = ((0 : Nat) : Rat) := by rw [← e]; rfl
  have := Nat.cast_injective this
  omega

/-- The ends of the range at the limits of the field (V14). -/
theorem test_witness_ScaledRoundTripTolerance :
    ((codec [] 4 0).busy = false ∧ Memory.wf (codec [] 4 0).fbuf ∧ 0 < 10 ∧ (codec [] 4 0).cur + 4 ≤ (codec [] 4 0).flen) ∧
    (Rounds ((-32768 / 10) * (10 : Nat)) (-32768) ∧ Rounds ((32767 / 10 : Rat) * (10 : Nat)) 32767 ∧
      Rounds ((-2147483648 / 10) * (10 : Nat)) (-2147483648)) ∧
    (∃ t, exec (.putSi16 (.fin (32767 / 10)) (.fin (10 : Nat))) (codec [] 4 0) = .next t) ∧
    (∃ t, exec (.putSi32 (.fin (-2147483648 / 10)) (.fin (10 : Nat))) (codec [] 4 0) = .next t) := by
  refine ⟨by decide, ?_, ⟨_, rfl⟩, ⟨_, rfl⟩⟩
  norm_num [Rounds]

theorem test_witness_IntegerRoundTrip :
    ((codec [] 4 0).busy = false ∧ Memory.wf (codec [] 4 0).fbuf ∧ 0 < 10 ∧ (codec [] 4 0).cur + 4 ≤ (codec [] 4 0).flen) ∧
    (∃ t, exec (.putSi16 (.fin (((-32768 : Int) : Rat) / (10 : Nat))) (.fin (10 : Nat))) (codec [] 4 0) = .next t) ∧
    (∃ t, exec (.putSi32 (.fin (((2147483647 : Int) : Rat) / (10 : Nat))) (.fin (10 : Nat))) (codec [] 4 0) = .next t) ∧
    (∃ t, exec (.putI32 0x80000000) (codec [] 4 0) = .next t) ∧ (∃ t, exec (.putU8 0xFF) (codec [] 4 0) = .next t) ∧
    (∃ t, exec (.putBool true) (codec [] 4 0) = .next t) :=
  ⟨by decide, ⟨_, rfl⟩, ⟨_, rfl⟩, ⟨_, rfl⟩, ⟨_, rfl⟩, ⟨_, rfl⟩⟩

/-- The largest framed length and the smallest that is refused (R135). -/
theorem test_witness_BuildReturnsTheFrame :
    idle.busy = false ∧ idle.bytesOf (.lit (List.replicate 65535 0)) = List.replicate 65535 0 ∧
      (withHeader idle 0 (List.replicate 65535 0)).length ≤ 65535 ∧
      65535 < (withHeader idle 1 (List.replicate 65534 0)).length := by
  refine ⟨rfl, rfl, ?_, ?_⟩
  · rw [withHeader, if_pos rfl, List.length_replicate]
  · rw [withHeader, if_neg (by decide), List.length_cons, List.length_cons, List.length_replicate]; decide

/-- The lengths at which the form changes (R132, R133). -/
theorem test_witness_BuiltFrameLengths :
    (List.replicate 256 (0 : Byte)).length ≤ 256 ∧ 257 ≤ (List.replicate 257 (0 : Byte)).length ∧ (1 : Byte) ≠ 0 := by
  refine ⟨?_, ?_, by decide⟩ <;> rw [List.length_replicate]

theorem test_witness_BuiltFrameProperties :
    (List.replicate 255 (0 : Byte)).length ≤ 255 ∧ ([] : List Byte).length ≤ 255 ∧ frameOf [] = frameOf [] ∧
      (0xFF : Byte) ≠ 0 := by
  refine ⟨?_, by decide, rfl, by decide⟩
  rw [List.length_replicate]

theorem test_witness_SendWritesTheFrame :
    (idle.busy = false ∧ idle.cfgBound = true ∧ idle.bytesOf (.lit []) = [] ∧ (withHeader idle 0 []).length ≤ 65535) ∧
    65535 < (withHeader idle 1 (List.replicate 65534 0)).length ∧
    (({ idle with cfgBound := false } : State).busy = false ∧ ({ idle with cfgBound := false } : State).cfgBound = false) := by
  refine ⟨by decide, ?_, by decide⟩
  rw [withHeader, if_neg (by decide), List.length_cons, List.length_cons, List.length_replicate]; decide

theorem test_witness_RxStartOpensARead :
    (idle.busy = false ∧ idle.cfgBound = true) ∧ ({ idle with cfgBound := false } : State).busy = false ∧
      complete.busy = true := by decide

/-- A terminal state; the deadline itself; an empty queue one tick before it; a byte at the first offset, at the second
behind each marker, and at the last offset of `RXBUF`. -/
theorem test_witness_RxStepTransitions :
    (complete.call = .stepwise ∧ Memory.wf complete.rxbuf ∧ complete.rxs ≠ .awaitLength ∧ complete.rxs ≠ .awaitPayload) ∧
    ((lastByte 3).rxs = .awaitPayload ∧ Memory.wf (lastByte 3).rxbuf ∧ (lastByte 3).rxdl ≤ { lastByte 3 with now := 100 }.now) ∧
    ({ lastByte 3 with now := 99, rxq := [] }.now < (lastByte 3).rxdl) ∧
    (let s := reading [] .awaitLength .unread none 0 .stepwise [0x02]; s.rxcnt = 0 ∧ s.now < s.rxdl ∧ s.rxq = 0x02 :: []) ∧
    (let s := reading [0x02] .awaitLength .unread none 0 .stepwise [0x01]; s.rxcnt = 1 ∧ Memory.read s.rxbuf 0 = 0x02) ∧
    (let s := reading [0x03] .awaitLength .unread none 0 .stepwise [0x01]; s.rxcnt = 1 ∧ Memory.read s.rxbuf 0 = 0x03) ∧
    (let s := reading [0x05] .awaitLength .unread none 0 .stepwise [0x01]; s.rxcnt = 1 ∧ Memory.read s.rxbuf 0 = 0x05) ∧
    (let s := reading (0x05 :: List.replicate 254 0) .awaitPayload .invalid none 0 .stepwise [0x01];
      s.rxcnt = 255 ∧ s.rxcnt < 256) := by decide +kernel

theorem test_witness_TimeoutOnlyAtTheDeadline :
    ∃ t, exec .rxStep { lastByte 3 with now := 100 } = .next t ∧ (lastByte 3).rxs ≠ .timedOut ∧ t.rxs = .timedOut :=
  ⟨_, rfl, by decide, rfl⟩

theorem test_witness_FlaggedReadsNeverComplete :
    (flaggedLong.Inv ∧ flaggedLong.rxmk = .longUnsupported ∧ ∃ t, exec .rxStep flaggedLong = .next t) ∧
    (flagged.Inv ∧ flagged.rxmk = .invalid ∧ flagged.call = .stepwise ∧ flagged.rxs = .timedOut) ∧
    (full.Inv ∧ full.rxmk = .invalid ∧ full.call = .stepwise ∧ full.rxs = .rejected) :=
  ⟨⟨inv_flaggedLong, rfl, _, rfl⟩, ⟨inv_flagged, rfl, rfl, rfl⟩, inv_full, rfl, rfl, rfl⟩

/-- V35: six bytes buffered of a six-byte frame, the terminator wrong. -/
def wrongEnd : State :=
  reading [0x02, 0x01, 0x04, 0x40, 0x84, 0x04] .awaitPayload .short (some 6) 0x01 .stepwise [0x03]

theorem test_witness_WrongTerminatorNeverCompletes :
    wrongEnd.Inv ∧ wrongEnd.rxs = .awaitPayload ∧ wrongEnd.rxend = some 6 ∧ 6 ≤ wrongEnd.rxcnt ∧
      ∃ t, polls 1 wrongEnd = .next t :=
  ⟨inv_of_checks _ (by decide), rfl, rfl, by decide, _, rfl⟩

theorem test_witness_DeliveryGroupingDoesNotMatter :
    (lastByte 3).now < (lastByte 3).rxdl ∧ 99 < (lastByte 3).rxdl ∧ (lastByte 3).rxs.active = true ∧
      ∃ t, rxPoll { lastByte 3 with rxq := [0x03] } = .next t := ⟨by decide, by decide, rfl, _, rfl⟩

theorem test_witness_RxResultEndsTheCall :
    ((fresh [] [] []).Inv ∧ (fresh [] [] []).call = .none ∧ (fresh [] [] []).rxs = .idle) ∧
    ((lastByte 3).Inv ∧ (lastByte 3).call = .stepwise ∧ (lastByte 3).rxs = .awaitPayload) ∧
    (timedOut.Inv ∧ timedOut.call = .stepwise ∧ timedOut.rxs = .timedOut) ∧
    (full.Inv ∧ full.call = .stepwise ∧ full.rxs = .rejected) ∧
    (complete.Inv ∧ complete.call = .stepwise ∧ complete.rxs = .done) :=
  ⟨⟨inv_fresh _ _ _, rfl, rfl⟩, ⟨inv_lastByte, rfl, rfl⟩, ⟨inv_timedOut, rfl, rfl⟩, ⟨inv_full, rfl, rfl⟩,
    inv_complete, rfl, rfl⟩

theorem test_witness_ReceiveIsStartPollsResult :
    (idle.call = .none ∧ idle.cfgBound = true) ∧
    (({ idle with cfgBound := false } : State).call = .none ∧ ({ idle with cfgBound := false } : State).cfgBound = false) ∧
    (∃ u, exec .rxStep { ({ lastByte 3 with call := .receive } : State) with call := .stepwise } = .next u ∧
      u.rxs.finished = true) ∧
    (∃ u, exec .rxStep { ({ lastByte 4 with call := .receive } : State) with call := .stepwise } = .next u ∧
      u.rxs.finished = false) := ⟨⟨rfl, rfl⟩, ⟨rfl, rfl⟩, ⟨_, rfl, rfl⟩, ⟨_, rfl, rfl⟩⟩

/-- A `RECEIVE` that awaits its last byte, behind a CRC that matches and behind one that does not. -/
theorem test_witness_ReceiveIsStartPollsResult_end :
    (let s : State := { lastByte 0x03 with call := .receive };
      s.Inv ∧ s.rxs = .awaitPayload ∧ s.now < s.rxdl ∧ s.rxq = [0x03] ∧ s.rxend = some (s.rxcnt + 1) ∧
      (crc16 (Memory.readBytes s.rxbuf 2 s.rxlen.toNat)).toNat =
        (Memory.read s.rxbuf (s.rxcnt - 2)).toNat * 256 + (Memory.read s.rxbuf (s.rxcnt - 1)).toNat) ∧
    (let s : State := reading [0x02, 0x01, 0x04, 0x40, 0x85] .awaitPayload .short (some 6) 0x01 .receive [0x03];
      s.Inv ∧ s.rxend = some (s.rxcnt + 1) ∧
      (crc16 (Memory.readBytes s.rxbuf 2 s.rxlen.toNat)).toNat ≠
        (Memory.read s.rxbuf (s.rxcnt - 2)).toNat * 256 + (Memory.read s.rxbuf (s.rxcnt - 1)).toNat) :=
  ⟨⟨inv_of_checks _ (by decide), by decide +kernel⟩, inv_of_checks _ (by decide), by decide +kernel⟩

/-- The empty payload and the largest one, with a byte left behind the frame. -/
theorem test_witness_ReaderRecoversABuiltFrame :
    (let s := fresh (frameBytes [] ++ [0xAA]) [] [];
      s.Inv ∧ s.busy = false ∧ 0 < s.cfgTimeoutMs ∧ s.cfgBound = true ∧ ∃ s', exec .rxStart s = .next s') ∧
    (let s := fresh (frameBytes (List.replicate 251 0xFF) ++ [0xAA]) [] [];
      s.Inv ∧ s.busy = false ∧ 0 < s.cfgTimeoutMs ∧ s.cfgBound = true ∧ ∃ s', exec .rxStart s = .next s') ∧
    (List.replicate 251 (0xFF : Byte)).length ≤ 251 := by
  refine ⟨⟨inv_fresh _ _ _, rfl, by decide, rfl, _, rfl⟩, ⟨inv_fresh _ _ _, rfl, by decide, rfl, _, rfl⟩, ?_⟩
  rw [List.length_replicate]

/-- V45's long frame, V43's empty payload, and the longest payload a length byte can name. -/
theorem test_witness_UnpackChecksThenCopiesThenCompares :
    (idle.busy = false ∧ Memory.wf idle.paybuf ∧ idle.frameOfSrc (.given (.lit [0x02, 0x00, 0x00, 0x00, 0x03])) =
      [0x02, 0x00, 0x00, 0x00, 0x03] ∧ (complete.frameOfSrc .rxbuf)[0]? = some 0x02) ∧
    (¬ (([0x03, 0x00] : List Byte)[0]? = some 0x02 ∧
      ([0x03, 0x00] : List Byte)[1]?.map (fun len => len.toNat + 5) = some 5 ∧ 5 ≤ ([0x03, 0x00] : List Byte).length)) ∧
    (5 = (0x00 : Byte).toNat + 5 ∧ 5 ≤ ([0x02, 0x00, 0x00, 0x00, 0x03] : List Byte).length) ∧
    260 = (0xFF : Byte).toNat + 5 := by decide

theorem test_witness_UnpackInvertsBuild :
    idle.busy = false ∧ Memory.wf idle.paybuf ∧ idle.bytesOf (.lit [0x04]) = [0x04] ∧
      (withHeader idle 7 [0x04]).length ≤ 255 ∧ ∃ t, exec (.build (.lit [0x04]) 7) idle = .next t :=
  ⟨rfl, by decide, rfl, by decide, _, rfl⟩

/-- V48's empty payload and unknown identifier, and the two identifiers that have a decoder. -/
theorem test_witness_DecodeDispatchesOnTheIdentifier :
    ((holding []).busy = false ∧ (holding []).payload = []) ∧
    ((holding [0xFF, 0x01]).payload = 0xFF :: [0x01] ∧ (0xFF : Byte) ≠ (holding [0xFF, 0x01]).params.cmdFwVersion ∧
      (0xFF : Byte) ≠ 0x04) ∧
    ((holding [0x00, 0x05]).payload = 0x00 :: [0x05] ∧ (0x00 : Byte) = (holding [0x00, 0x05]).params.cmdFwVersion) ∧
    ((holding [0x04, 0x05]).payload = 0x04 :: [0x05] ∧ (0x04 : Byte) ≠ (holding [0x04, 0x05]).params.cmdFwVersion) := by
  decide

theorem test_witness_DecodeFillsTheRecord :
    ((holding [0x00, 0x05, 0x02]).busy = false ∧ (holding [0x00, 0x05, 0x02]).params.legal = true ∧
      (holding [0x00, 0x05, 0x02]).payload = 0x00 :: 0x05 :: 0x02 :: []) ∧
    ((holding (0x04 :: p3)).busy = false ∧ (holding (0x04 :: p3)).params.legal = true ∧
      (holding (0x04 :: p3)).payload = 0x04 :: p3 ∧ 58 ≤ p3.length) := by decide +kernel

theorem test_witness_DecFwverFillsTheRecord :
    ((codec [0x05, 0x02] 2 0).busy = false ∧ (codec [0x05, 0x02] 2 0).cur = 0 ∧ 2 ≤ (codec [0x05, 0x02] 2 0).flen) ∧
      ((codec [0x05] 1 0).busy = false ∧ (codec [0x05] 1 0).flen < 2) := by decide

theorem test_witness_DecTelemFillsTheSnapshot :
    ((codec p3 58 0).busy = false ∧ (codec p3 58 0).cur = 0 ∧ (codec p3 58 0).params.legal = true ∧
      58 ≤ (codec p3 58 0).flen) ∧ (codec p3 57 0).flen < 58 := by decide +kernel

theorem test_witness_FrameRowsArriveByteByByte :
    (List.replicate 255 (0 : Byte)).length ≤ 255 ∧ (List.replicate 65535 (0 : Byte)).length ≤ 65535 := by
  constructor <;> rw [List.length_replicate]

theorem test_witness_ReplyRowsFillTheirRecord :
    (idle.busy = false ∧ Memory.wf idle.paybuf ∧ idle.params.legal = true) ∧ ([0x05, 0x02] : List Byte).length ≤ 254 ∧
      58 ≤ p3.length ∧ p3.length ≤ 254 := by decide +kernel

/-- The four encoding forms take a value each. -/
theorem test_witness_RequestRowsLayTheirPayload :
    idle.busy = false ∧ (∃ bs, encodeArg idle.draws idle.params.encSetCurrent (.fin (3 / 2)) = .ok bs) ∧
      (∃ bs, encodeArg idle.draws idle.params.encSetBrake (.fin 0) = .ok bs) ∧
      (∃ bs, encodeArg idle.draws idle.params.encSetRpm (.fin 3000) = .ok bs) ∧
      (∃ bs, encodeArg idle.draws idle.params.encSetDuty (.fin (-1)) = .ok bs) := ⟨rfl, ⟨_, rfl⟩, ⟨_, rfl⟩, ⟨_, rfl⟩, _, rfl⟩

theorem test_witness_WrappersSendTheirPayload :
    idle.busy = false ∧ (∃ bs, encodeArg idle.draws idle.params.encSetCurrent (.fin (3 / 2)) = .ok bs) ∧
      (∃ bs, encodeArg idle.draws idle.params.encSetRpm (.fin 3000) = .ok bs) := ⟨rfl, ⟨_, rfl⟩, _, rfl⟩

theorem test_witness_WrapperArgumentsFollowTheirForm :
    ((codec [] 4 0).busy = false ∧ Memory.wf (codec [] 4 0).fbuf ∧ 0 < 10 ∧ (codec [] 4 0).cur + 4 ≤ (codec [] 4 0).flen) ∧
    (∃ t, exec (.putSi16 (.fin (3 / 2)) (.fin (10 : Nat))) (codec [] 4 0) = .next t) ∧
    (∃ t, exec (.putI32 5) (codec [] 4 0) = .next t) ∧ (∃ t, exec (.putBool true) (codec [] 4 0) = .next t) ∧
    (∀ r, Value.nan ≠ .fin r) ∧
    encodeArg idle.draws idle.params.encSetCurrent .nan = .error .valueDomain ∧
    encodeArg idle.draws idle.params.encSetBrake .posInf = .error .valueDomain ∧
    encodeArg idle.draws idle.params.encSetRpm .negInf = .error .valueDomain ∧
    encodeArg 0 (.si32 0) (.fin 1) = .error .scaleDomain :=
  ⟨by decide, ⟨_, rfl⟩, ⟨_, rfl⟩, ⟨_, rfl⟩, fun _ => nofun, rfl, rfl, rfl, rfl⟩

/-- Each part of a query: idle with and without a transport, a poll that ends the read and one that does not. -/
theorem test_witness_QueriesSendReceiveDecode :
    (idle.call = .none ∧ idle.cfgBound = true) ∧ ({ idle with cfgBound := false } : State).cfgBound = false ∧
    (∃ u, exec .rxStep { ({ lastByte 3 with call := .awaiting .values } : State) with call := .stepwise } = .next u ∧
      u.rxs.finished = true ∧
      after .rxResult u (fun v => (v.result, v.status, after .decode v (·.result))) =
        some (.count 1, .ok, some (.flag false))) ∧
    (after .rxResult { lastByte 3 with rxs := .rejected } (fun v => (v.result, v.status)) =
      some (.count 0, .structuralReject)) ∧
    (∃ u, exec .rxStep { ({ lastByte 4 with call := .awaiting .values } : State) with call := .stepwise } = .next u ∧
      u.rxs.finished = false) :=
  ⟨⟨rfl, rfl⟩, rfl, ⟨_, rfl, rfl, by decide +kernel⟩, by decide, _, rfl, rfl⟩

/-- V47's version reply and P3's telemetry reply, each but for its last byte. -/
def versionReply : State :=
  reading [0x02, 0x03, 0x00, 0x05, 0x02, 0xDF, 0xB7] .awaitPayload .short (some 8) 0x03 (.awaiting .fwVersion) [0x03]
def telemetryReply : State :=
  reading ([0x02, 0x3B, 0x04] ++ p3 ++ [0xAF, 0xAF]) .awaitPayload .short (some 64) 0x3B (.awaiting .values) [0x03]

theorem inv_versionReply : versionReply.Inv := inv_of_checks _ (by decide)

theorem inv_telemetryReply : telemetryReply.Inv := inv_of_checks _ (by decide +kernel)

theorem test_witness_QueryEndsWithItsReply :
    (let s := versionReply;
      s.Inv ∧ s.params.legal = true ∧ s.rxs = .awaitPayload ∧ s.now < s.rxdl ∧ s.rxq = 0x03 :: [] ∧
      s.rxend = some (s.rxcnt + 1) ∧
      (crc16 (Memory.readBytes s.rxbuf 2 s.rxlen.toNat)).toNat =
        (Memory.read s.rxbuf (s.rxcnt - 2)).toNat * 256 + (Memory.read s.rxbuf (s.rxcnt - 1)).toNat ∧
      s.call = .awaiting .fwVersion ∧ Memory.read s.rxbuf 2 = s.params.cmdFwVersion ∧ 3 ≤ s.rxlen.toNat) ∧
    (let s := telemetryReply;
      s.Inv ∧ s.params.legal = true ∧ s.rxs = .awaitPayload ∧ s.now < s.rxdl ∧ s.rxq = 0x03 :: [] ∧
      s.rxend = some (s.rxcnt + 1) ∧
      (crc16 (Memory.readBytes s.rxbuf 2 s.rxlen.toNat)).toNat =
        (Memory.read s.rxbuf (s.rxcnt - 2)).toNat * 256 + (Memory.read s.rxbuf (s.rxcnt - 1)).toNat ∧
      s.call = .awaiting .values ∧ Memory.read s.rxbuf 2 = 0x04 ∧ 59 ≤ s.rxlen.toNat) :=
  ⟨⟨inv_versionReply, by decide +kernel⟩, inv_telemetryReply, by decide +kernel⟩

/-- Not a witness but the statement's conclusion on P3's reply: the query returns true, 59, and the controller id. -/
theorem test_getValues_ends :
    after (.getValues 0) telemetryReply (fun t => (t.result, t.busy, t.snap.map (·.controllerId))) =
      some (.flagLen true 59, false, some 7) := by decide +kernel
theorem test_getFwVersion_ends :
    after (.getFwVersion 0) versionReply (fun t => (t.result, t.busy, t.fwv)) =
      some (.flag true, false, some ⟨5, 2⟩) := by decide +kernel


end Sys2Proof.Tests
end

/-! Proofs of the statements about the state: construction, what no item changes, when the records change, and what a byte
source is (spec/10_state.md). -/

namespace Sys2Proof.Machine

/-! ### Construction (R33, R250) -/

/-- Nothing is listed in a constructed instance's buffers (R33), so they are canonical and inside any bounds. -/
theorem construct_buffersSound (params : Params) (timeoutMs : Nat) (bound : Bool) (rc : RcState)
    (rxq txlog : List Byte) (now : Nat) :
    (State.construct params timeoutMs bound rc rxq txlog now).BuffersSound where
  rxbuf_wf := Memory.wf_nil
  rxbuf_below := Memory.below_nil _
  paybuf_wf := Memory.wf_nil
  paybuf_below := Memory.below_nil _
  fbuf_wf := Memory.wf_nil
  fbuf_below := Memory.below_nil _

/-- A constructed instance's reader is `Idle` with no byte counted and no marker read, so most clauses of R167 say nothing
of it. -/
theorem construct_readerSound (params : Params) (timeoutMs : Nat) (bound : Bool) (rc : RcState)
    (rxq txlog : List Byte) (now : Nat) :
    (State.construct params timeoutMs bound rc rxq txlog now).ReaderSound where
  count_range := Nat.zero_le _
  awaitLength_count := nofun
  awaitPayload_count := nofun
  end_iff_short := ⟨nofun, nofun⟩
  end_value := nofun
  done_means := nofun
  rejected_means := nofun
  unread_iff := ⟨fun _ => Nat.zero_lt_two, fun _ => rfl⟩
  classified := fun h => absurd h (by simp [State.construct])

/-- No call is in progress in a constructed instance (R15, R33), and its reader is not active. -/
theorem construct_callSound (params : Params) (timeoutMs : Nat) (bound : Bool) (rc : RcState)
    (rxq txlog : List Byte) (now : Nat) :
    (State.construct params timeoutMs bound rc rxq txlog now).CallSound where
  free := fun _ => rfl
  stepwise := nofun
  receive := nofun
  awaiting := nofun

theorem construct_inv (params : Params) (timeoutMs : Nat) (bound : Bool) (rc : RcState)
    (rxq txlog : List Byte) (now : Nat) : (State.construct params timeoutMs bound rc rxq txlog now).Inv where
  buffers := construct_buffersSound params timeoutMs bound rc rxq txlog now
  reader := construct_readerSound params timeoutMs bound rc rxq txlog now
  call := construct_callSound params timeoutMs bound rc rxq txlog now

/-- Where no call is in progress, nothing is asked of the item at the port. -/
theorem portSound_of_no_call {s : State} (h : s.call = .none) : s.PortSound := by
  simp [State.PortSound, h]

/-- The identifiers published for the open parameters are distinct and the scales are positive (R74, R118; assumption log
6). -/
theorem publishedParams_legal : Config.publishedParams.legal = true := by decide

/-- Settles O8: each part of the invariant holds of a constructed instance, and reset is one construction. -/
theorem constructionIsSound : Obligations.ConstructionIsSound :=
  ⟨fun params timeoutMs bound rc rxq txlog now =>
      ⟨construct_inv params timeoutMs bound rc rxq txlog now, portSound_of_no_call rfl⟩,
    construct_inv _ _ _ _ _ _ _, publishedParams_legal⟩

/-! ### Byte sources (R57, R101, R185) -/

/-- Settles O21: the two buffers with open bytes are read by the laws of `State.built` and `State.rxBytes`. -/
theorem byteSourcesReadTheirBuffer : Obligations.ByteSourcesReadTheirBuffer := fun s =>
  have lit : ∀ bs, s.bytesOf (.lit bs) = bs := fun _ => rfl
  have paybuf : s.bytesOf .paybuf = Memory.readBytes s.paybuf 0 s.paylen.toNat := rfl
  have given : ∀ src, s.frameOfSrc (.given src) = s.bytesOf src := fun _ => rfl
  ⟨lit, paybuf, ⟨s.built_length, s.built_getElem?⟩, given, s.rxBytes_length, s.rxBytes_getElem?⟩

/-! ### What no item changes (R11, R12, R13, R30, R236) -/

/-- The registers that only construction, the caller or the environment write: the parameters, the timeout, the binding,
`RC`, the clock, and the ports' own inputs. -/
def State.givenInputs (s : State) : Params × Nat × Bool × RcState × Nat × Nat × List EnvInput × Nat × List Byte :=
  (s.params, s.cfgTimeoutMs, s.cfgBound, s.rc, s.now, s.accept, s.env, s.draws, s.port)

theorem givenInputs_eq_iff (s t : State) :
    t.givenInputs = s.givenInputs ↔
      t.params = s.params ∧ t.cfgTimeoutMs = s.cfgTimeoutMs ∧ t.cfgBound = s.cfgBound ∧ t.rc = s.rc ∧ t.now = s.now ∧
      t.accept = s.accept ∧ t.env = s.env ∧ t.draws = s.draws ∧ t.port = s.port := by
  simp only [State.givenInputs, Prod.mk.injEq]

theorem Quiet.givenInputs {s t : State} (h : Quiet s t) : t.givenInputs = s.givenInputs :=
  (congrArg State.givenInputs h.frame).trans rfl

theorem rxPoll_givenInputs {s t : State} (h : rxPoll s = .next t) : t.givenInputs = s.givenInputs := by
  obtain ⟨_, _, _, _, _, _, _, rfl⟩ := rxPoll_frame s t h
  rfl

theorem rxEnding_givenInputs {s : State} {r : RxEnd} (h : rxEnding s = .next r) :
    r.state.givenInputs = s.givenInputs :=
  (rxEnding_quiet s r h).1.givenInputs

/-- Every way an item can answer leaves the given inputs alone: it is a quiet operation, a poll, the end of a read, or some
of them in a row, and what it writes beside them (the status, the return value, the reader's registers, `BUSY`) is none of
the inputs. -/
theorem ExecNext.givenInputs {s t : State} {i : Instr} (h : ExecNext s i t) : t.givenInputs = s.givenInputs := by
  cases h with
  | arrival => rfl
  | call u st r hc hq hr => exact hq.givenInputs
  | start => rfl
  | poll _ hc h => exact rxPoll_givenInputs h
  | finish u r hi hr =>
    have hu : u.givenInputs = s.givenInputs := by
      obtain ⟨-, -, rfl⟩ | ⟨-, -, h⟩ := hi
      · rfl
      · exact rxPoll_givenInputs h
    exact (rxEnding_givenInputs hr).trans hu
  | begin => rfl
  | wait _ hc h hf => exact rxPoll_givenInputs h
  | ask u st r q hi hc hb hq hr => exact hq.givenInputs
  | askWait _ q hi hc h hf => exact rxPoll_givenInputs h
  | askFinish p r u st q v hi hc h hr hq hd =>
    calc u.givenInputs = r.state.givenInputs := hq.givenInputs
      _ = p.givenInputs := rxEnding_givenInputs hr
      _ = s.givenInputs := rxPoll_givenInputs h

/-- Settles O12, from the ways an item can answer a next state. -/
theorem itemsLeaveConfigurationAndInputsAlone : Obligations.ItemsLeaveConfigurationAndInputsAlone :=
  fun i s t h => (givenInputs_eq_iff s t).mp (exec_next i s t h).givenInputs

/-! ### When the records change (R28, R29, R190, R194) -/

theorem rxPoll_recordsKept {s t : State} (h : rxPoll s = .next t) : RecordsKept s t := by
  obtain ⟨_, _, _, _, _, _, _, rfl⟩ := rxPoll_frame s t h
  exact RecordsKept.refl s

theorem exists_asks_iff (i : Instr) :
    (∃ q, Instr.asks i q) ↔ (∃ fwd, i = .getFwVersion fwd) ∨ (∃ fwd, i = .getValues fwd) := by
  constructor
  · rintro ⟨_ | _, h⟩
    · exact .inl h
    · exact .inr h
  · rintro (h | h)
    · exact ⟨.fwVersion, h⟩
    · exact ⟨.values, h⟩

/-- The items whose call may write a record, the query wrappers among them. -/
theorem decodes_or_asks_iff (i : Instr) :
    (Instr.decodes i ∨ ∃ q, Instr.asks i q) ↔
      i = .decode ∨ i = .decFwver ∨ i = .decTelem ∨ (∃ fs, i = .cmdFwVersion fs) ∨ (∃ fs, i = .cmdTelemetry fs) ∨
      (∃ fwd, i = .getFwVersion fwd) ∨ (∃ fwd, i = .getValues fwd) := by
  simp only [exists_asks_iff, Instr.decodes, or_assoc]

/-- Every way an item can answer keeps the records, or is the end of a call that decodes. -/
theorem ExecNext.records {s t : State} {i : Instr} (h : ExecNext s i t) :
    RecordsKept s t ∨ ((Instr.decodes i ∨ ∃ q, Instr.asks i q) ∧ RecordsDecoded s t t.status) := by
  cases h with
  | arrival => exact .inl (RecordsKept.refl s)
  | call u st r hc hq hr => exact hr.imp id fun ⟨hi, hd⟩ => ⟨.inl hi, hd⟩
  | start => exact .inl (RecordsKept.refl s)
  | poll _ hc h => exact .inl (rxPoll_recordsKept h)
  | finish u r hi hr =>
    have hu : RecordsKept s u := by
      obtain ⟨-, -, rfl⟩ | ⟨-, -, h⟩ := hi
      · exact RecordsKept.refl u
      · exact rxPoll_recordsKept h
    obtain ⟨-, hk, -⟩ := rxEnding_quiet u r hr
    exact .inl (hu.trans hk)
  | begin => exact .inl (RecordsKept.refl s)
  | wait _ hc h hf => exact .inl (rxPoll_recordsKept h)
  | ask u st r q hi hc hb hq hr => exact .inl hr
  | askWait _ q hi hc h hf => exact .inl (rxPoll_recordsKept h)
  | askFinish p r u st q v hi hc h hr hq hd =>
    obtain ⟨-, hk, -⟩ := rxEnding_quiet p r hr
    have hend : RecordsKept s { r.state with call := .none } := (rxPoll_recordsKept h).trans hk
    exact .inr ⟨.inr ⟨q, hi⟩, hend.decoded hd⟩

/-- Settles O14: an item that changes a record is one that decodes, and its decode ended with `Ok`. -/
theorem recordsChangeOnlyByDecoding : Obligations.RecordsChangeOnlyByDecoding := by
  intro i s t h hchange
  have changed : ¬ RecordsKept s t := fun ⟨hsnap, hfwv⟩ => hchange.elim (· hsnap) (· hfwv)
  obtain hk | ⟨hi, hd⟩ := (exec_next i s t h).records
  · exact absurd hk changed
  · exact ⟨(decodes_or_asks_iff i).mp hi, hd.resolve_left changed⟩

end Sys2Proof.Machine

/-! Proofs of the statements about memory and the environment's turn: no sound state faults, so no byte goes outside a
buffer, and what a scripted input does (spec/20_memory.md). -/

namespace Sys2Proof.Machine

/-! ### When an item faults (R46, R160)

Only the frame reader raises a fault: a poll, or the end of a read. -/

/-- The reader faults with `f`: in a poll, in the end of a read, or in the end of the read that a poll has just finished. -/
inductive ReadFaults (s : State) (f : Fault) : Prop where
  | poll (h : rxPoll s = .fault f)
  | result (h : rxEnding s = .fault f)
  | pollResult (u : State) (hu : rxPoll s = .next u) (h : rxEnding u = .fault f)

section
variable {s : State} {f : Fault} {k : Host.Outcome State Fault Refusal}

theorem whenIdle_fault (h : whenIdle s k = .fault f) : k = .fault f := by
  unfold whenIdle at h
  split at h
  · cases h
  · exact h

theorem whenStepwise_fault (h : whenStepwise s k = .fault f) : k = .fault f := by
  unfold whenStepwise at h
  split at h
  · exact h
  · exact h
  · cases h
  · cases h

theorem withScale_fault {v : Value} {g : Nat → Host.Outcome State Fault Refusal} (h : withScale v g = .fault f) :
    ∃ n, g n = .fault f := by
  unfold withScale at h
  split at h
  · cases h
  · exact ⟨_, h⟩

theorem withFinite_fault {v : Value} {g : Rat → Host.Outcome State Fault Refusal} (h : withFinite v g = .fault f) :
    ∃ q, g q = .fault f := by
  unfold withFinite at h
  split at h
  · cases h
  · exact ⟨_, h⟩

end

/-! The calls of one step end with a status or are refused (R223). -/

theorem getOutcome_ne_fault (s : State) (n : Nat) (view : Nat → Result) (f : Fault) : getOutcome s n view ≠ .fault f := by
  unfold getOutcome
  split <;> nofun

theorem buildOutcome_ne_fault (s : State) (q : List Byte) (f : Fault) : buildOutcome s q ≠ .fault f := by
  unfold buildOutcome
  split <;> nofun

theorem sendOutcome_ne_fault (s : State) (payload : List Byte) (fwd : Byte) (f : Fault) :
    sendOutcome s payload fwd ≠ .fault f := by
  unfold sendOutcome
  split <;> nofun

theorem decodeOutcome_ne_fault (r : Except Refusal (State × Status)) (f : Fault) : decodeOutcome r ≠ .fault f := by
  cases r <;> nofun

theorem replyOutcome_ne_fault (s : State) (payload : List Byte) (f : Fault) : replyOutcome s payload ≠ .fault f := by
  unfold replyOutcome
  split
  · exact decodeOutcome_ne_fault _ f
  · nofun

theorem requestArg_ne_fault (s : State) (identifier : Byte) (e : Enc) (v : Value) (f : Fault) :
    requestArg s identifier e v ≠ .fault f := by
  unfold requestArg
  split <;> nofun

theorem sendArg_ne_fault (s : State) (identifier : Byte) (e : Enc) (v : Value) (fwd : Byte) (f : Fault) :
    sendArg s identifier e v fwd ≠ .fault f := by
  unfold sendArg
  split
  · nofun
  · exact sendOutcome_ne_fault _ _ fwd f

theorem queryAsk_ne_fault (q : Query) (identifier fwd : Byte) (s : State) (f : Fault) :
    queryAsk q identifier fwd s ≠ .fault f := by
  unfold queryAsk
  split
  · nofun
  · split <;> nofun

/-! The calls that read pass on the reader's faults and have none of their own. -/

section
variable {s : State} {f : Fault}

theorem rxReturn_fault (h : rxReturn s = .fault f) : rxEnding s = .fault f := by
  unfold rxReturn at h
  split at h
  · cases h
  · cases h; assumption
  · cases h

theorem queryReturn_fault {q : Query} (h : queryReturn q s = .fault f) : rxEnding s = .fault f := by
  unfold queryReturn at h
  split at h
  · cases h; assumption
  · cases h
  · split at h
    · split at h <;> cases h
    · cases h

theorem pollThen_fault {finish : State → Host.Outcome State Fault Refusal}
    (hfinish : ∀ u, finish u = .fault f → rxEnding u = .fault f) (h : pollThen s finish = .fault f) :
    ReadFaults s f := by
  unfold pollThen at h
  split at h
  · rename_i u hu
    split at h
    · exact .pollResult u hu (hfinish u h)
    · cases h
  · cases h; exact .poll (by assumption)
  · cases h

theorem execReceive_fault (h : execReceive s = .fault f) : ReadFaults s f := by
  unfold execReceive at h
  split at h
  · split at h <;> cases h
  · exact pollThen_fault (fun _ => rxReturn_fault) h
  · cases h
  · cases h

theorem queryStep_fault {q : Query} {identifier fwd : Byte} (h : queryStep q identifier fwd s = .fault f) :
    ReadFaults s f := by
  unfold queryStep at h
  split at h
  · exact absurd h (queryAsk_ne_fault q identifier fwd s f)
  · split at h
    · exact pollThen_fault (fun _ => queryReturn_fault) h
    · cases h
  · cases h
  · cases h

/-- An item faults only where the reader does. -/
theorem exec_fault {i : Instr} (h : exec i s = .fault f) : ReadFaults s f := by
  cases i with
  | rxStep => exact .poll (whenStepwise_fault h)
  | rxResult => exact .result (rxReturn_fault (whenStepwise_fault h))
  | receive => exact execReceive_fault h
  | getFwVersion | getValues => exact queryStep_fault h
  | frameS | frameL => cases h
  | crc16 | curReset | skip | unpack | decFwver | cmdSetRc | cmdKeepalive | cmdForward => cases whenIdle_fault h
  | putI32 | putBool | putU8 | fieldSi16 | fieldSi32 | fieldI32 | fieldBool | fieldU8 => cases whenIdle_fault h
  | putSi16 | putSi32 =>
    obtain ⟨n, h⟩ := withScale_fault (whenIdle_fault h)
    obtain ⟨q, h⟩ := withFinite_fault h
    cases h
  | getSi16 | getSi32 =>
    obtain ⟨n, h⟩ := withScale_fault (whenIdle_fault h)
    exact absurd h (getOutcome_ne_fault _ _ _ _)
  | getI32 | getBool | getU8 => exact absurd (whenIdle_fault h) (getOutcome_ne_fault _ _ _ _)
  | build => exact absurd (whenIdle_fault h) (buildOutcome_ne_fault _ _ _)
  | send | setRcState | keepalive => exact absurd (whenIdle_fault h) (sendOutcome_ne_fault _ _ _ _)
  | rxStart =>
    have h := whenIdle_fault h
    split at h <;> cases h
  | decode | decTelem => exact absurd (whenIdle_fault h) (decodeOutcome_ne_fault _ _)
  | cmdFwVersion | cmdTelemetry => exact absurd (whenIdle_fault h) (replyOutcome_ne_fault _ _ _)
  | cmdSetCurrent | cmdSetBrake | cmdSetRpm | cmdSetDuty =>
    exact absurd (whenIdle_fault h) (requestArg_ne_fault _ _ _ _ _)
  | setCurrent | setBrakeCurrent | setRpm | setDuty => exact absurd (whenIdle_fault h) (sendArg_ne_fault _ _ _ _ _ _)

/-- A step faults only where the item at the port does, after the environment's turn. -/
theorem step_fault (h : step s = .fault f) :
    ∃ i rest, decode s.port = .ok (i, rest) ∧ exec i s.takeInput = .fault f := by
  unfold step at h
  rw [State.takeInput_port] at h
  split at h
  · cases h
  · rename_i e
    rw [← e] at h
    split at h
    · cases h
    · rename_i i rest hd
      refine ⟨i, rest, hd, ?_⟩
      cases hx : exec i s.takeInput <;> rw [hx] at h <;> cases h
      rfl

/-! ### Sound states do not fault (R167, R223) -/

/-- The reader's invariants rule its faults out: below its end there is room for a byte, and a read that is `Done` has its
length; and a poll keeps them (R167). -/
theorem State.ReaderSound.not_readFaults (hs : s.ReaderSound) (hw : Memory.wf s.rxbuf) : ¬ ReadFaults s f := by
  rintro (h | h | ⟨u, hu, h⟩)
  · obtain ⟨t, ht⟩ := rxPoll_next s hs
    cases ht.symm.trans h
  · exact rxEnding_no_fault s f hs h
  · exact rxEnding_no_fault u f (rxPoll_sound s u hw hs hu) h

/-- The environment writes no register of the reader (R53). -/
theorem State.ReaderSound.takeInput (hs : s.ReaderSound) : s.takeInput.ReaderSound :=
  { hs with }

end

/-- Settles O11: only the reader faults, and not where its invariants hold, which the environment's turn keeps. -/
theorem soundStatesNeverFault : Obligations.SoundStatesNeverFault := by
  intro s f hs h
  obtain ⟨i, rest, -, hx⟩ := step_fault h
  exact hs.reader.takeInput.not_readFaults hs.buffers.rxbuf_wf (exec_fault hx)

/-! ### The environment's turn (R51, R53, R236, R273) -/

theorem nextInput_of_env_cons {s : State} {e : EnvInput} {es : List EnvInput} (h : s.env = e :: es) :
    s.nextInput = e := by
  rw [State.nextInput, h]

/-- With nothing at the port the environment's turn is the whole step (R251). -/
theorem step_of_port_nil {s : State} (h : s.port = []) : step s = .next s.takeInput := by
  rw [step, State.takeInput_port, h]

/-- Settles O6: the head of the script is the input that is applied, and its tail is what is left. -/
theorem environmentActsBetweenSteps : Obligations.EnvironmentActsBetweenSteps := by
  intro s e es h
  refine ⟨?_, step_of_port_nil⟩
  rw [State.takeInput, nextInput_of_env_cons h, State.applyInput, h, List.tail_cons]

end Sys2Proof.Machine

/-! Proofs of the statements about the command port's encoding and the format rows (spec/30_encoding.md). -/

namespace Sys2Proof

/-! ### Items come back from their bytes (R80, R61, R62; assumption log 1) -/

/-- What the decoder accepts: a selector that selects a reader of operands, and a well-formed item that it reads. -/
theorem decode_eq_ok_iff (bs : List Byte) (i : Instr) (rest : List Byte) :
    decode bs = .ok (i, rest) ↔
      ∃ selector operands reader, bs = selector :: operands ∧ operandsOf selector.toNat = some reader ∧
        reader operands = some (i, rest) ∧ i.wellFormed = true := by
  constructor
  · intro h
    unfold decode at h
    split at h
    · cases h
    · rename_i selector operands
      split at h
      · cases h
      · rename_i reader hreader
        split at h
        · cases h
        · rename_i j tail hread
          split at h
          · rename_i hwf
            cases h
            exact ⟨selector, operands, reader, rfl, hreader, hread, hwf⟩
          · cases h
  · rintro ⟨selector, operands, reader, rfl, hreader, hread, hwf⟩
    simp only [decode, hreader, hread, hwf, if_true]

/-- The reader takes `a` back from the bytes `bs`, whatever stands behind them. -/
def TakesBack {α : Type} (read : Reader α) (bs : List Byte) (a : α) : Prop :=
  ∀ rest, read (bs ++ rest) = some (a, rest)

theorem args0_takesBack (i : Instr) : TakesBack (args0 i) [] i := fun _ => rfl

theorem args1_takesBack {α : Type} {p : Reader α} {mk : α → Instr} {as : List Byte} {a : α} (hp : TakesBack p as a) :
    TakesBack (args1 p mk) as (mk a) := fun rest => by
  simp only [args1, hp rest]

theorem args2_takesBack {α β : Type} {p : Reader α} {q : Reader β} {mk : α → β → Instr} {as bs : List Byte} {a : α}
    {b : β} (hp : TakesBack p as a) (hq : TakesBack q bs b) : TakesBack (args2 p q mk) (as ++ bs) (mk a b) :=
  fun rest => by
    simp only [args2, List.append_assoc, hp (bs ++ rest), hq rest]

theorem decByte_takesBack (b : Byte) : TakesBack decByte [b] b := decByte_cons b

/-- An item's bytes are a selector of its own reader and operands that this reader takes the item back from. -/
theorem encode_takesBack (i : Instr) :
    ∃ selector operands reader, encode i = selector :: operands ∧ operandsOf selector.toNat = some reader ∧
      TakesBack reader operands i := by
  cases i with
  | getI32 | getBool | getU8 | rxStart | rxStep | rxResult | receive | decode | decFwver | decTelem | cmdSetRc
  | cmdKeepalive => exact ⟨_, _, _, rfl, rfl, args0_takesBack _⟩
  | crc16 src => exact ⟨_, _, _, rfl, rfl, args1_takesBack (decSrc_encSrc src)⟩
  | skip n => exact ⟨_, _, _, rfl, rfl, args1_takesBack (decNat_encNat n)⟩
  | getSi16 v | getSi32 v => exact ⟨_, _, _, rfl, rfl, args1_takesBack (decScale_encScale v)⟩
  | cmdSetCurrent v | cmdSetBrake v | cmdSetRpm v | cmdSetDuty v =>
    exact ⟨_, _, _, rfl, rfl, args1_takesBack (decValue_encValue v)⟩
  | frameS bs | frameL bs | cmdFwVersion bs | cmdTelemetry bs =>
    exact ⟨_, _, _, rfl, rfl, args1_takesBack (decBytes_encBytes bs)⟩
  | putBool b | fieldBool b => exact ⟨_, _, _, rfl, rfl, args1_takesBack (decBool_encBool b)⟩
  | putU8 b | fieldU8 b | getFwVersion b | getValues b | setRcState b | keepalive b =>
    exact ⟨_, _, _, rfl, rfl, args1_takesBack (decByte_takesBack b)⟩
  | fieldSi16 n => exact ⟨_, _, _, rfl, rfl, args1_takesBack (decHalf_encHalf n)⟩
  | putI32 n | fieldSi32 n | fieldI32 n => exact ⟨_, _, _, rfl, rfl, args1_takesBack (decWord_encWord n)⟩
  | curReset src n => exact ⟨_, _, _, rfl, rfl, args2_takesBack (decSrc_encSrc src) (decNat_encNat n)⟩
  | unpack src n => exact ⟨_, _, _, rfl, rfl, args2_takesBack (decFrameSrc_encFrameSrc src) (decNat_encNat n)⟩
  | build src fwd | send src fwd =>
    exact ⟨_, _, _, rfl, rfl, args2_takesBack (decSrc_encSrc src) (decByte_takesBack fwd)⟩
  | putSi16 v scale | putSi32 v scale =>
    exact ⟨_, _, _, rfl, rfl, args2_takesBack (decValue_encValue v) (decScale_encScale scale)⟩
  | setCurrent v fwd | setBrakeCurrent v fwd | setRpm v fwd | setDuty v fwd =>
    exact ⟨_, _, _, rfl, rfl, args2_takesBack (decValue_encValue v) (decByte_takesBack fwd)⟩
  | cmdForward fwd bs => exact ⟨_, _, _, rfl, rfl, args2_takesBack (decByte_takesBack fwd) (decBytes_encBytes bs)⟩

/-- Settles O1: the reader that an item's selector selects takes the item back from its operands. -/
theorem encodedItemsDecodeBack : Obligations.EncodedItemsDecodeBack := by
  intro i rest hwf
  obtain ⟨selector, operands, reader, he, hreader, hback⟩ := encode_takesBack i
  rw [he]
  exact (decode_eq_ok_iff _ i rest).mpr ⟨selector, operands ++ rest, reader, rfl, hreader, hback rest, hwf⟩

/-! ### The decoder reads from the front (R80; assumption log 1) -/

/-- What a reader leaves is the end of what it was given. -/
def ReadsFront {α : Type} (read : Reader α) : Prop := ∀ bs a rest, read bs = some (a, rest) → rest <:+ bs

section
variable {α β : Type}

theorem fail_readsFront : ReadsFront (α := α) fun _ => none := nofun

theorem give_readsFront (a : α) : ReadsFront fun bs => some (a, bs) := by
  intro bs _ _ h
  cases h
  exact List.suffix_rfl

theorem ite_readsFront {c : Prop} [Decidable c] {p q : Reader α} (hp : ReadsFront p) (hq : ReadsFront q) :
    ReadsFront fun bs => if c then p bs else q bs := by
  by_cases hc : c
  · simpa only [hc, if_true] using hp
  · simpa only [hc, if_false] using hq

/-- A reader that looks at one byte first. -/
theorem readsFront_of_cons {read : Reader α} (hnil : read [] = none)
    (hcons : ∀ b, ReadsFront fun bs => read (b :: bs)) : ReadsFront read := by
  intro bs a rest h
  cases bs with
  | nil => cases hnil.symm.trans h
  | cons b bs => exact (hcons b bs a rest h).trans (List.suffix_cons b bs)

end

@[simp] theorem decNat_readsFront : ReadsFront decNat := by
  intro bs
  induction bs with
  | nil => nofun
  | cons b bs ih =>
    intro n rest h
    unfold decNat at h
    split at h
    · cases h
      exact List.suffix_cons b bs
    · split at h
      · cases h
      next hm =>
        cases h
        exact (ih _ _ hm).trans (List.suffix_cons b bs)

theorem takeBytes_readsFront (n : Nat) : ReadsFront (takeBytes n) := by
  intro bs a rest h
  unfold takeBytes at h
  split at h
  · cases h
    exact List.drop_suffix n bs
  · cases h

theorem decInt_readsFront : ReadsFront decInt := by
  intro bs z rest h
  unfold decInt at h
  split at h
  · cases h
  next hn =>
    cases h
    exact decNat_readsFront bs _ _ hn

@[simp] theorem decBytes_readsFront : ReadsFront decBytes := by
  intro bs a rest h
  unfold decBytes at h
  split at h
  · cases h
  next hn => exact (takeBytes_readsFront _ _ a rest h).trans (decNat_readsFront bs _ _ hn)

theorem decFinite_readsFront : ReadsFront decFinite := by
  intro bs v rest h
  unfold decFinite at h
  split at h
  · cases h
  next hnum =>
    split at h
    · cases h
    next hd =>
      cases h
      exact (decNat_readsFront _ _ _ hd).trans (decInt_readsFront bs _ _ hnum)

@[simp] theorem decValue_readsFront : ReadsFront decValue :=
  readsFront_of_cons rfl fun _ =>
    ite_readsFront decFinite_readsFront <| ite_readsFront (give_readsFront _) <|
      ite_readsFront (give_readsFront _) <| ite_readsFront (give_readsFront _) fail_readsFront

@[simp] theorem decScale_readsFront : ReadsFront decScale := by
  intro bs v rest h
  unfold decScale at h
  split at h
  · cases h
  next hw =>
    cases h
    exact decValue_readsFront bs _ _ hw

@[simp] theorem decByte_readsFront : ReadsFront decByte := readsFront_of_cons rfl give_readsFront

@[simp] theorem decBool_readsFront : ReadsFront decBool :=
  readsFront_of_cons rfl fun _ =>
    ite_readsFront (give_readsFront _) <| ite_readsFront (give_readsFront _) fail_readsFront

@[simp] theorem decHalf_readsFront : ReadsFront decHalf := by
  intro bs v rest h
  unfold decHalf at h
  split at h
  · cases h
  next hv =>
    cases h
    exact takeBytes_readsFront 2 bs _ _ hv

@[simp] theorem decWord_readsFront : ReadsFront decWord := by
  intro bs v rest h
  unfold decWord at h
  split at h
  · cases h
  next hv =>
    cases h
    exact takeBytes_readsFront 4 bs _ _ hv

@[simp] theorem args0_readsFront (i : Instr) : ReadsFront (args0 i) := give_readsFront i

@[simp] theorem args1_readsFront {α : Type} {p : Reader α} {mk : α → Instr} (hp : ReadsFront p) :
    ReadsFront (args1 p mk) := by
  intro bs i rest h
  unfold args1 at h
  split at h
  · cases h
  next ha =>
    cases h
    exact hp bs _ _ ha

@[simp] theorem args2_readsFront {α β : Type} {p : Reader α} {q : Reader β} {mk : α → β → Instr} (hp : ReadsFront p)
    (hq : ReadsFront q) : ReadsFront (args2 p q mk) := by
  intro bs i rest h
  unfold args2 at h
  split at h
  · cases h
  next ha =>
    split at h
    · cases h
    next hb =>
      cases h
      exact (hq _ _ _ hb).trans (hp bs _ _ ha)

@[simp] theorem decSrc_readsFront : ReadsFront decSrc :=
  readsFront_of_cons rfl fun _ => by
    unfold decSrc
    refine ite_readsFront (fun bs src rest h => ?_) <|
      ite_readsFront (give_readsFront _) <| ite_readsFront (give_readsFront _) fail_readsFront
    split at h
    · cases h
    next hlit =>
      cases h
      exact decBytes_readsFront bs _ _ hlit

/-- The operand of `UNPACK` is its own tag, or a byte source read from the tag on. -/
@[simp] theorem decFrameSrc_readsFront : ReadsFront decFrameSrc := by
  intro bs src rest h
  unfold decFrameSrc at h
  split at h
  · cases h
  · split at h
    · cases h
      exact List.suffix_cons _ _
    · split at h
      · cases h
      next hgiven =>
        cases h
        exact decSrc_readsFront _ _ _ hgiven

/-- Every selector's reader is made of operand readers, each of which reads from the front. -/
theorem operandsOf_readsFront {n : Nat} {reader : Reader Instr} (h : operandsOf n = some reader) :
    ReadsFront reader := by
  unfold operandsOf at h
  split at h <;> cases h <;> simp

/-- Settles O2: the used bytes are the selector and what its reader took from the operands. -/
theorem decodedItemsAreWellFormed : Obligations.DecodedItemsAreWellFormed := by
  intro bs i rest h
  obtain ⟨selector, operands, reader, rfl, hreader, hread, hwf⟩ := (decode_eq_ok_iff bs i rest).mp h
  obtain ⟨used, rfl⟩ := operandsOf_readsFront hreader operands i rest hread
  exact ⟨hwf, selector :: used, List.cons_ne_nil _ _, rfl⟩

/-! ### Items written out by hand (R80; assumption log 1) -/

/-- Settles O4: each is one evaluation of the decoder. -/
theorem handWrittenItemsDecode : Obligations.HandWrittenItemsDecode := by
  repeat' apply And.intro
  all_goals rfl

/-! ### Codes without an operation (R80, U14) -/

theorem operandsOf_unused {n : Nat} (hlow : 0x17 ≤ n) (hhigh : n ≤ 0x1F) : operandsOf n = none := by
  interval_cases n <;> rfl

theorem decode_noOperation {selector : Byte} (h : operandsOf selector.toNat = none) (operands : List Byte) :
    decode (selector :: operands) = .error (.noOperation selector) := by
  simp only [decode, h]

end Sys2Proof

namespace Sys2Proof.Machine

/-- A step at whose port stands no item is refused, whatever the environment did. -/
theorem step_of_decode_error {s : State} {b : Byte} {bs : List Byte} {e : DecodeErr} (hport : s.port = b :: bs)
    (h : decode (b :: bs) = .error e) : step s = .refused (.undecodable e) := by
  rw [step, State.takeInput_port, hport]
  simp only [h]

/-- Settles O3: none of these codes selects a reader of operands. -/
theorem unusedOperationCodesAreRefused : Obligations.UnusedOperationCodesAreRefused :=
  fun _ rest _ hlow hhigh hport =>
    step_of_decode_error hport (decode_noOperation (operandsOf_unused hlow hhigh) rest)

/-! ### Field rows (R67 to R71, R102; assumption log 4) -/

/-- A FIELD row lays the bytes of its field, as a `PUT_*` does. -/
theorem FieldRow.exec_eq {i : Instr} {bs : List Byte} (h : FieldRow i bs) {s : State} (hidle : s.busy = false) :
    exec i s = putOutcome s bs := by
  cases h with
  | si16 n => exact (whenIdle_of_idle s _ hidle).trans (congrArg (putOutcome s) (halfBytes_eq n))
  | si32 n | i32 n => exact (whenIdle_of_idle s _ hidle).trans (congrArg (putOutcome s) (wordBytes_eq n))
  | bool b | u8 b => exact whenIdle_of_idle s _ hidle

/-- Settles O26: the row is a `PUT_*` of its field's bytes, which fits or overruns. -/
theorem fieldRowsLayTheField : Obligations.FieldRowsLayTheField := by
  intro s i bs hrow hidle hwf
  rw [hrow.exec_eq hidle]
  exact ⟨putOutcome_laid s bs hwf, putOutcome_overrun s bs⟩

/-! ### Frame rows (R61, R62; assumption log 2) -/

theorem frameShort_bytes (payload : List Byte) :
    frameShort payload = [0x02, BitVec.ofNat 8 payload.length] ++ payload ++
      [(crc16 payload >>> 8).setWidth 8, (crc16 payload).setWidth 8, 0x03] := by
  simp only [frameShort, crcBytes_eq, List.append_assoc, List.cons_append, List.nil_append]

theorem frameLong_bytes (payload : List Byte) :
    frameLong payload = [0x03, BitVec.ofNat 8 (payload.length / 256), BitVec.ofNat 8 payload.length] ++ payload ++
      [(crc16 payload >>> 8).setWidth 8, (crc16 payload).setWidth 8, 0x03] := by
  simp [frameLong, crcBytes_eq, beBytes]

/-- Settles O54: the bytes that arrive are those of the two formats, whatever the payload's length. -/
theorem frameRowsArriveByteByByte : Obligations.FrameRowsArriveByteByByte :=
  have short (s : State) (payload : List Byte) :
      exec (.frameS payload) s = .next { s with rxq := s.rxq ++ frameShort payload } := rfl
  have long (s : State) (payload : List Byte) :
      exec (.frameL payload) s = .next { s with rxq := s.rxq ++ frameLong payload } := rfl
  ⟨fun s payload _ => by rw [short, frameShort_bytes], fun s payload _ => by rw [long, frameLong_bytes]⟩

/-! ### Request rows (R77, R131, R202 to R207; assumption log 3) -/

/-- A request row ends with its fields, one behind the other, laid in `FBUF`. -/
theorem requestOutcome_laid (s : State) (fields : List (List Byte)) :
    ∃ t, requestOutcome s fields = .next t ∧ PayloadLaid s t fields.flatten := by
  obtain ⟨heq, -, -, hread⟩ := layOut_spec s fields
  refine ⟨_, rfl, ?_, hread⟩
  rw [heq]
  rfl

theorem requestArg_laid {s : State} {e : Enc} {v : Value} {bs : List Byte} (identifier : Byte)
    (h : encodeArg s.draws e v = .ok bs) :
    ∃ t, requestArg s identifier e v = .next t ∧ PayloadLaid s t (identifier :: bs) := by
  rw [requestArg, h]
  simpa using requestOutcome_laid s [[identifier], bs]

theorem whenIdle_exists_next {s : State} {k : Host.Outcome State Fault Refusal} {P : State → Prop}
    (hidle : s.busy = false) (h : ∃ t, k = .next t ∧ P t) : ∃ t, whenIdle s k = .next t ∧ P t := by
  rwa [whenIdle_of_idle s k hidle]

/-- Settles O56: each row lays its own fields, and the flattened fields are the payload. -/
theorem requestRowsLayTheirPayload : Obligations.RequestRowsLayTheirPayload := by
  intro s hidle
  have forward (fwd : Byte) (inner : List Byte) : [framed s.params fwd inner].flatten = withHeader s fwd inner := by
    simp [framed_eq]
  exact
    ⟨fun _ _ h => whenIdle_exists_next hidle (requestArg_laid _ h),
      fun _ _ h => whenIdle_exists_next hidle (requestArg_laid _ h),
      fun _ _ h => whenIdle_exists_next hidle (requestArg_laid _ h),
      fun _ _ h => whenIdle_exists_next hidle (requestArg_laid _ h),
      whenIdle_exists_next hidle (requestOutcome_laid s (rcFields s.params s.rc)),
      whenIdle_exists_next hidle (requestOutcome_laid s [[s.params.cmdKeepalive]]),
      fun fwd inner => whenIdle_exists_next hidle (forward fwd inner ▸ requestOutcome_laid s _)⟩

/-! ### Reply rows (R75, R76, R175, R185; assumption log 3) -/

/-- A legal parameter set has no other identifier for telemetry and no scale of 0 (R74, R118). -/
theorem Params.legal_telemetry {p : Params} (h : p.legal = true) :
    Config.cmdTelemetry ≠ p.cmdFwVersion ∧ Params.scalesLegal p = true := by
  simp only [Params.legal, Bool.and_eq_true, decide_eq_true_eq] at h
  obtain ⟨⟨hnodup, hscales⟩, -⟩ := h
  refine ⟨fun heq => ?_, hscales⟩
  simp [Params.identifiers, heq] at hnodup

/-- The snapshot depends on the 58 bytes of its layout alone. -/
theorem telemAt_congr (p : Params) {m m' : Memory} {a b : Nat}
    (h : ∀ i, i < 58 → Memory.read m (a + i) = Memory.read m' (b + i)) : telemAt p m a = telemAt p m' b := by
  have hn : ∀ k n, k + n ≤ 58 → Memory.readNat m (a + k) n = Memory.readNat m' (b + k) n := by
    intro k n hk
    refine congrArg beNat (List.ext_getElem (by simp) fun i hi _ => ?_)
    have hi : i < n := by simpa using hi
    simpa [Nat.add_assoc] using h (k + i) (by omega)
  simp (disch := decide) only [telemAt, h, hn]

/-- Each byte of the payload `UNPACK` left stands in `PAYBUF` at its own offset (R185). -/
theorem State.read_paybuf {s : State} {bs : List Byte} (h : s.payload = bs) {i : Nat} (hi : i < bs.length) :
    Memory.read s.paybuf i = bs[i] := by
  subst h
  simp [State.payload]

theorem Memory.read_ofBytes {bs : List Byte} {i : Nat} (hi : i < bs.length) : Memory.read (Memory.ofBytes bs) i = bs[i] := by
  rw [← Memory.read_writeBytes_inside [] Memory.wf_nil 0 i bs hi, Nat.zero_add, Memory.ofBytes]

theorem decodeFwver_fits (s : State) (hc : s.cur = 0) (h : 2 ≤ s.flen) :
    decodeFwver s = ({ s with cur := 2, fwv := some ⟨Memory.read s.fbuf 0, Memory.read s.fbuf 1⟩ }, .ok) := by
  rw [decodeFwver, if_neg (Nat.not_lt.mpr h), layoutFwver_fits s hc h]

theorem decodeTelem_fits (s : State) (hc : s.cur = 0) (h : 58 ≤ s.flen) (hp : Params.scalesLegal s.params = true) :
    decodeTelem s = .ok ({ s with cur := 58, snap := some (telemAt s.params s.fbuf 0) }, .ok) := by
  rw [decodeTelem, if_neg (Nat.not_lt.mpr h), if_pos hp, layoutTelem_fits s _ hc h]
  simp [telemAt]

theorem bind_whole (s : State) (bs : List Byte) :
    s.bind bs bs.length = { s with fbuf := Memory.ofBytes bs, flen := bs.length, cur := 0 } := by
  rw [State.bind, List.take_length]

/-- `DECODE` binds the codec to the bytes behind the identifier and runs that identifier's decoder (R185, R187). -/
theorem decodePayload_fwver {s : State} {fields : List Byte} (h : s.payload = s.params.cmdFwVersion :: fields) :
    decodePayload s =
      .ok (decodeFwver { s with fbuf := Memory.ofBytes fields, flen := fields.length, cur := 0 }) := by
  rw [decodePayload, h, ← bind_whole]
  exact if_pos rfl

theorem decodePayload_telem {s : State} {fields : List Byte} (h : s.payload = Config.cmdTelemetry :: fields)
    (hid : Config.cmdTelemetry ≠ s.params.cmdFwVersion) :
    decodePayload s = decodeTelem { s with fbuf := Memory.ofBytes fields, flen := fields.length, cur := 0 } := by
  rw [decodePayload, h, ← bind_whole]
  exact (if_neg hid).trans (if_pos rfl)

/-- The version record is filled from the first two bytes behind the identifier (R188). -/
theorem decodePayload_fills_fwv {s : State} {major minor : Byte} {tail : List Byte}
    (h : s.payload = s.params.cmdFwVersion :: major :: minor :: tail) :
    decodePayload s =
      .ok ({ s with
              fbuf := Memory.ofBytes (major :: minor :: tail)
              flen := tail.length + 2
              cur := 2
              fwv := some ⟨major, minor⟩ }, .ok) := by
  have hmajor : Memory.read (Memory.ofBytes (major :: minor :: tail)) 0 = major := Memory.read_ofBytes (by simp)
  have hminor : Memory.read (Memory.ofBytes (major :: minor :: tail)) 1 = minor := Memory.read_ofBytes (by simp)
  rw [decodePayload_fwver h, decodeFwver_fits _ (by rfl) (by simp)]
  simp only [hmajor, hminor, List.length_cons]

/-- The snapshot is filled from the layout that begins at `PAYBUF[1]` (R189, R190). -/
theorem decodePayload_fills_snap {s : State} {fields : List Byte} (h : s.payload = Config.cmdTelemetry :: fields)
    (hlen : 58 ≤ fields.length) (hlegal : s.params.legal = true) :
    decodePayload s =
      .ok ({ s with
              fbuf := Memory.ofBytes fields
              flen := fields.length
              cur := 58
              snap := some (telemAt s.params s.paybuf 1) }, .ok) := by
  obtain ⟨hid, hscales⟩ := Params.legal_telemetry hlegal
  have hsnap : telemAt s.params s.paybuf 1 = telemAt s.params (Memory.ofBytes fields) 0 :=
    telemAt_congr _ fun i hi => by
      rw [State.read_paybuf h (by simp; omega), Nat.zero_add, Memory.read_ofBytes (by omega)]
      simp [Nat.add_comm 1 i]
  rw [decodePayload_telem h hid, hsnap]
  exact decodeTelem_fits _ rfl hlen hscales

/-- A reply payload that its short frame can hold is accepted by the validator, which leaves it in `PAYBUF`, and goes on to
`DECODE` (R175, R178 (a)). -/
theorem replyOutcome_accepted (s : State) (payload : List Byte) (hwf : Memory.wf s.paybuf)
    (hlen : payload.length ≤ 255) :
    ∃ buf len crc, State.payload { s with paybuf := buf, paylen := len, crc := crc } = payload ∧
      replyOutcome s payload = decodeOutcome (decodePayload { s with paybuf := buf, paylen := len, crc := crc }) := by
  refine ⟨Memory.writeBytes s.paybuf 0 payload, BitVec.ofNat 8 payload.length, crc16 payload, ?_, ?_⟩
  · have hl : (BitVec.ofNat 8 payload.length).toNat = payload.length := by simp; omega
    simp only [State.payload, hl, Memory.readBytes_writeBytes _ hwf]
  · rw [replyOutcome, unpackFrame_frameShort s payload hwf hlen]

/-- Settles O55: the validator hands the payload to `DECODE`, which fills the record its identifier names. -/
theorem replyRowsFillTheirRecord : Obligations.ReplyRowsFillTheirRecord := by
  intro s fields hidle hwf hlegal hlen
  refine ⟨fun major minor tail hfields => ?_, fun hfit => ?_⟩
  · subst hfields
    obtain ⟨buf, len, crc, hpay, hreply⟩ :=
      replyOutcome_accepted s (s.params.cmdFwVersion :: major :: minor :: tail) hwf (Nat.succ_le_succ hlen)
    rw [decodePayload_fills_fwv hpay] at hreply
    exact ⟨_, (whenIdle_of_idle s _ hidle).trans hreply, rfl, rfl, rfl, hpay, rfl⟩
  · obtain ⟨buf, len, crc, hpay, hreply⟩ :=
      replyOutcome_accepted s (Config.cmdTelemetry :: fields) hwf (Nat.succ_le_succ hlen)
    rw [decodePayload_fills_snap hpay hfit hlegal] at hreply
    exact ⟨_, (whenIdle_of_idle s _ hidle).trans hreply, rfl, rfl, rfl, hpay, rfl⟩

end Sys2Proof.Machine

/-! Proofs of the statements about the CRC-16 generator (spec/40_crc.md). -/

namespace Sys2Proof.Machine

/-! ### The table form (R92 (a)) -/

/-- A 16-bit value is its upper byte, moved up, and its lower byte. -/
theorem half_eq_upper_xor_lower (c : Half) :
    c = ((c >>> 8).setWidth 8).setWidth 16 <<< 8 ^^^ (c.setWidth 8).setWidth 16 := by
  apply BitVec.eq_of_getLsbD_eq
  intro i hi
  rcases Nat.lt_or_ge i 8 with h | h
  · simp [h, hi]
  · have h8 : i - 8 < 8 := by omega
    simp [Nat.not_lt.mpr h, hi, h8, Nat.add_sub_cancel' h]

/-- Shifting by a byte drops the upper one. -/
theorem half_lower_shiftLeft (c : Half) : (c.setWidth 8).setWidth 16 <<< 8 = c <<< 8 := by
  apply BitVec.eq_of_getLsbD_eq
  intro i hi
  have h8 : i - 8 < 8 := by omega
  have h16 : i - 8 < 16 := by omega
  simp [h8, h16]

/-- A byte moved up can be read back. -/
theorem upper_of_shiftLeft (b : Byte) : ((b.setWidth 16 <<< 8) >>> 8).setWidth 8 = b := by
  apply BitVec.eq_of_getLsbD_eq
  intro i hi
  have hup : 8 + i < 16 := by omega
  simp [hi, hup]

/-- The update is a lookup by the upper byte and the byte taken in, XORed with the lower byte moved up: the shifts act on
the two halves apart, and lose nothing of the lower one. -/
theorem crcByte_eq_tableEntry (c : Half) (b : Byte) :
    crcByte c b = crcByte 0 ((c >>> 8).setWidth 8 ^^^ b) ^^^ c <<< 8 := by
  generalize hu : (c >>> 8).setWidth 8 = upper
  have halves : c ^^^ b.setWidth 16 <<< 8 = (upper ^^^ b).setWidth 16 <<< 8 ^^^ (c.setWidth 8).setWidth 16 := by
    conv_lhs => rw [half_eq_upper_xor_lower c, hu]
    rw [BitVec.setWidth_xor, BitVec.shiftLeft_xor_distrib]
    ac_rfl
  calc crcByte c b
      = crcShifts 8 ((upper ^^^ b).setWidth 16 <<< 8) ^^^ c <<< 8 := by
        rw [crcByte, halves, crcShifts_xor, crcShifts_low, half_lower_shiftLeft]
    _ = crcByte 0 (upper ^^^ b) ^^^ c <<< 8 := by simp [crcByte]

/-- Settles O19: the update splits along the accumulator's two bytes, and the printed entries are evaluations of it. -/
theorem crcTableForm : Obligations.CrcTableForm :=
  ⟨crcByte_eq_tableEntry, by decide, by decide, by decide⟩

/-! ### The laws of the CRC (R93) -/

/-- Taking in the accumulator's own upper byte leaves the lower byte alone, moved up. -/
theorem crcByte_upper (c : Half) : crcByte c ((c >>> 8).setWidth 8) = c <<< 8 := by
  have entry : crcByte 0 ((c >>> 8).setWidth 8 ^^^ (c >>> 8).setWidth 8) = 0 :=
    (congrArg (crcByte 0) BitVec.xor_self).trans crcByte_zero_zero
  rw [crcByte_eq_tableEntry, entry]
  exact BitVec.zero_xor

/-- The accumulator's own two bytes, high byte first, bring it to 0. -/
theorem crcFold_own_bytes (c : Half) : crcFold c [(c >>> 8).setWidth 8, c.setWidth 8] = 0 := by
  have lower : ((c <<< 8) >>> 8).setWidth 8 = c.setWidth 8 := by
    rw [← half_lower_shiftLeft, upper_of_shiftLeft]
  have gone : c <<< 8 <<< 8 = 0 := by
    rw [← BitVec.shiftLeft_add]
    exact BitVec.shiftLeft_eq_zero le_rfl
  calc crcFold c [(c >>> 8).setWidth 8, c.setWidth 8]
      = crcByte (c <<< 8) (((c <<< 8) >>> 8).setWidth 8) := by simp only [crcFold, crcByte_upper, lower]
    _ = 0 := by rw [crcByte_upper, gone]

/-- The residue law (R93). -/
theorem crc16_append_own (bs : List Byte) :
    crc16 (bs ++ [(crc16 bs >>> 8).setWidth 8, (crc16 bs).setWidth 8]) = 0 := by
  simpa only [crc16, crcFold_append] using crcFold_own_bytes (crc16 bs)

/-- Settles O18: from the initial accumulator 0, which zero bytes keep and along which the fold is linear. -/
theorem crcLaws : Obligations.CrcLaws :=
  have leadingZero (bs : List Byte) : crc16 (0x00 :: bs) = crc16 bs := by
    simp only [crc16, crcFold, Config.crcInit, crcByte_zero_zero]
  have linear (bs cs : List Byte) (h : bs.length = cs.length) :
      crc16 (List.zipWith (· ^^^ ·) bs cs) = crc16 bs ^^^ crc16 cs := crcFold_xor bs cs 0 0 h
  ⟨rfl, leadingZero, crcFold_zero, linear, crc16_append_own⟩

/-! ### `CRC16` (R90, R91) -/

/-- Settles O17: the call ends with the CRC of its bytes, and the two values are evaluations. -/
theorem crc16ReturnsTheCrc : Obligations.Crc16ReturnsTheCrc :=
  ⟨fun s _ hidle => ⟨_, whenIdle_of_idle s _ hidle, rfl, rfl⟩, by decide, by decide +kernel⟩

/-! ### Single-bit errors in a short frame (R94) -/

theorem crcShifts_injective (n : Nat) : Function.Injective (crcShifts n) := by
  intro c d h
  by_contra hne
  have lost : crcShifts n (c ^^^ d) = 0 := (crcShifts_xor n c d).trans (BitVec.xor_eq_zero_iff.mpr h)
  exact crcShifts_ne_zero n (c ^^^ d) (mt BitVec.xor_eq_zero_iff.mp hne) lost

theorem crcByte_left_injective (b : Byte) : Function.Injective (crcByte · b) := fun _ _ h =>
  (BitVec.xor_left_inj _).mp (crcShifts_injective 8 h)

theorem crcByte_right_injective (c : Half) : Function.Injective (crcByte c) := by
  intro a b h
  have shifted : a.setWidth 16 <<< 8 = b.setWidth 16 <<< 8 := (BitVec.xor_right_inj c).mp (crcShifts_injective 8 h)
  rw [← upper_of_shiftLeft a, shifted, upper_of_shiftLeft]

theorem crcFold_injective (bs : List Byte) : Function.Injective (crcFold · bs) := by
  induction bs with
  | nil => exact Function.injective_id
  | cons b bs ih => exact ih.comp (crcByte_left_injective b)

/-- One changed byte changes the accumulator, whatever follows it. -/
theorem crcFold_set_ne {bs : List Byte} {j : Nat} {b b' : Byte} (hb : bs[j]? = some b) (hne : b' ≠ b) (c : Half) :
    crcFold c (bs.set j b') ≠ crcFold c bs := by
  induction bs generalizing c j with
  | nil => cases hb
  | cons a bs ih =>
    cases j with
    | zero =>
      cases hb
      exact fun h => hne (crcByte_right_injective c (crcFold_injective bs h))
    | succ j => exact ih hb (crcByte c a)

/-- The residue law, for the CRC bytes of a frame. -/
theorem crc16_append_crcBytes (bs : List Byte) : crc16 (bs ++ crcBytes bs) = 0 := by
  rw [crcBytes_eq, crc16_append_own]

/-- Where the validator finds the CRC that it expects, the checked region (payload and CRC bytes) has CRC 0. -/
theorem crc16_append_of_toNat_eq {p c : List Byte} (hc : c.length = 2) (h : (crc16 p).toNat = beNat c) :
    crc16 (p ++ c) = 0 := by
  have own : c = crcBytes p := by rw [crcBytes, h, ← hc, beBytes_beNat]
  rw [own, crc16_append_crcBytes]

/-- A short frame whose checked region has another CRC than 0 fails the comparison (R177). -/
theorem unpackFrame_integrityFailure (s : State) (len : Nat) (region : List Byte) (hwf : Memory.wf s.paybuf)
    (hlen : len ≤ 255) (hregion : region.length = len + 2) (hcrc : crc16 region ≠ 0) :
    (unpackFrame s (0x02 :: BitVec.ofNat 8 len :: (region ++ [0x03])) (len + 5)).2 = .integrityFailure := by
  have hl : (BitVec.ofNat 8 len).toNat = len := by simp; omega
  have payload : (region ++ [0x03]).take len = region.take len := List.take_append_of_le_length (by omega)
  have received : ((region ++ [0x03]).drop len).take 2 = region.drop len := by
    rw [List.drop_append_of_le_length (by omega)]
    exact List.take_left' (by simp; omega)
  have differs : (crc16 (region.take len)).toNat ≠ beNat (region.drop len) := fun h =>
    hcrc (by simpa using crc16_append_of_toNat_eq (by simp; omega) h)
  rw [unpackFrame_short s _ (len + 5) _ hwf rfl rfl (by rw [hl]) (by simp; omega)]
  simp only [hl, show len + 5 - 3 = len + 2 by omega, List.drop_succ_cons, List.drop_zero, payload, received,
    if_neg differs]

/-- A short frame is its two leading bytes, the checked region and the terminator (R61). -/
theorem frameBytes_eq_region {payload : List Byte} (h : payload.length ≤ 255) :
    frameBytes payload = 0x02 :: BitVec.ofNat 8 payload.length :: (payload ++ crcBytes payload ++ [0x03]) := by
  rw [← frameShort_eq payload (by omega), frameShort_bytes, crcBytes_eq]
  simp

theorem xor_bit_ne (b : Byte) {k : Nat} (hk : k < 8) : b ^^^ BitVec.ofNat 8 (2 ^ k) ≠ b := by
  have bit : BitVec.ofNat 8 (2 ^ k) ≠ 0 := by interval_cases k <;> decide
  intro h
  exact bit ((BitVec.xor_right_inj b).mp (h.trans BitVec.xor_zero.symm))

/-- Settles O20: the checked region of a built frame has CRC 0, so with one byte changed it has another. -/
theorem singleBitFlipsAreCaught : Obligations.SingleBitFlipsAreCaught := by
  intro s payload i k b hidle hwf hlen hlow hhigh hk hb
  obtain ⟨j, rfl⟩ := Nat.exists_eq_add_of_le' hlow
  have hregion : (payload ++ crcBytes payload).length = payload.length + 2 := by simp
  rw [frameBytes_eq_region hlen] at hb ⊢
  simp only [List.getElem?_cons_succ, List.set_cons_succ] at hb ⊢
  rw [List.getElem?_append_left (by omega)] at hb
  rw [List.set_append_left _ _ (by omega)]
  have changed : crc16 ((payload ++ crcBytes payload).set j (b ^^^ BitVec.ofNat 8 (2 ^ k))) ≠ 0 :=
    crc16_append_crcBytes payload ▸ crcFold_set_ne hb (xor_bit_ne b hk) Config.crcInit
  have status := unpackFrame_integrityFailure s payload.length _ hwf hlen (by rw [List.length_set, hregion]) changed
  refine ⟨_, whenIdle_of_idle s _ hidle, ?_, status⟩
  exact congrArg (fun st : Status => Result.flag (decide (st = .ok))) status

end Sys2Proof.Machine

/-! Proofs of the statements about the fixed-point field codec (spec/41_field_codec.md). -/

namespace Sys2Proof.Machine

/-! ### Binding and moving the cursor (R101, R114) -/

/-- Settles O22: the bytes below the length are all of the source that is bound, each at its own offset. -/
theorem curResetBindsTheBuffer : Obligations.CurResetBindsTheBuffer := by
  intro s src len hidle
  refine ⟨_, whenIdle_of_idle s _ hidle, rfl, fun i hi hlen => ?_⟩
  have hbound : i < ((s.bytesOf src).take len).length := by simp [hi, hlen]
  exact (Memory.read_ofBytes hbound).trans List.getElem_take

/-- Settles O31: the call's next state is the old one with the cursor moved on, wherever it then stands. -/
theorem skipOnlyMovesTheCursor : Obligations.SkipOnlyMovesTheCursor :=
  fun s _ hidle => ⟨_, whenIdle_of_idle s _ hidle, rfl⟩

/-! ### Operands outside their domain (R118; assumption log 27) -/

/-- The domain of a scale is the positive integers. -/
theorem scaleOf_eq_none {v : Value} (h : ∀ n : Nat, 0 < n → v ≠ .fin n) : scaleOf v = none := by
  cases v with
  | fin q =>
    refine if_neg fun ⟨hden, hpos⟩ => ?_
    have hnum : ((q.num.toNat : Int) : Rat) = q := by
      rw [Int.toNat_of_nonneg hpos.le, Rat.coe_int_num_of_den_eq_one hden]
    exact h q.num.toNat (by omega) (congrArg Value.fin hnum.symm)
  | posInf | negInf | nan => rfl

theorem finiteOf_eq_none {v : Value} (h : ∀ q, v ≠ .fin q) : finiteOf v = none := by
  cases v with
  | fin q => exact absurd rfl (h q)
  | posInf | negInf | nan => rfl

theorem withScale_refused {v : Value} (h : ∀ n : Nat, 0 < n → v ≠ .fin n)
    (k : Nat → Host.Outcome State Fault Refusal) : withScale v k = .refused .scaleDomain := by
  rw [withScale, scaleOf_eq_none h]

theorem withFinite_refused {v : Value} (h : ∀ q, v ≠ .fin q) (k : Rat → Host.Outcome State Fault Refusal) :
    withFinite v k = .refused .valueDomain := by
  rw [withFinite, finiteOf_eq_none h]

/-- Settles O32: the operands are looked at before anything else, the scale first. -/
theorem illegalScalesAndValuesAreRefused : Obligations.IllegalScalesAndValuesAreRefused := by
  intro s v scale hidle
  refine ⟨fun hscale => ?_, fun n hn hv => ?_⟩
  · have refused (k) : whenIdle s (withScale scale k) = .refused .scaleDomain :=
      (whenIdle_of_idle s _ hidle).trans (withScale_refused hscale k)
    exact ⟨refused _, refused _, refused _, refused _⟩
  · have refused (k : Nat → Rat → Host.Outcome State Fault Refusal) :
        whenIdle s (withScale (.fin n) fun m => withFinite v (k m)) = .refused .valueDomain :=
      ((whenIdle_of_idle s _ hidle).trans (withScale_nat n hn _)).trans (withFinite_refused hv _)
    exact ⟨refused _, refused _⟩

/-! ### The scaled operations, of both widths (R104, R105, R109, R110) -/

/-- The scaled encode with its decode, for each width in bytes, at one scale. -/
inductive ScaledPair (scale : Nat) : Nat → (Rat → Instr) → Instr → Prop where
  | si16 : ScaledPair scale 2 (fun q => .putSi16 (.fin q) (.fin scale)) (.getSi16 (.fin scale))
  | si32 : ScaledPair scale 4 (fun q => .putSi32 (.fin q) (.fin scale)) (.getSi32 (.fin scale))

section
variable {scale k : Nat} {put : Rat → Instr} {get : Instr} {s : State}

theorem ScaledPair.width_pos (h : ScaledPair scale k put get) : 0 < 8 * k := by
  cases h <;> decide

/-- R103 fixes the integer of which a scaled encode keeps the low bits. -/
theorem quantise_of_rounds {q : Rat} {n : Int} (w : Nat) (hn : Rounds (q * scale) n) :
    quantise w q scale = BitVec.ofInt w n := by
  rw [quantise, rounds_unique _ _ _ (quantise_rounds q scale) hn]

theorem ScaledPair.exec_put (h : ScaledPair scale k put get) (hscale : 0 < scale) (hidle : s.busy = false) {q : Rat}
    {n : Int} (hn : Rounds (q * scale) n) :
    exec (put q) s = putOutcome s (beBytes k (BitVec.ofInt (8 * k) n).toNat) := by
  rw [← quantise_of_rounds _ hn]
  cases h with
  | si16 | si32 => exact (whenIdle_of_idle s _ hidle).trans (withScale_nat scale hscale _)

theorem ScaledPair.exec_get (h : ScaledPair scale k put get) (hscale : 0 < scale) (hidle : s.busy = false) :
    exec get s = getOutcome s k fun u => .value ((sint (8 * k) u : Rat) / scale) := by
  simp only [← scaled_eq]
  cases h with
  | si16 | si32 => exact (whenIdle_of_idle s _ hidle).trans (withScale_nat scale hscale _)

end

/-! ### Laying a field (R104 to R108) -/

/-- Settles O23: the two low bytes of the rounded product are what the call lays. -/
theorem putSi16LaysTheField : Obligations.PutSi16LaysTheField := by
  intro s q scale hidle hwf hscale
  have hn := quantise_rounds q scale
  rw [ScaledPair.si16.exec_put hscale hidle hn]
  refine ⟨fun hfit => ?_, putOutcome_overrun s (halfBytes _)⟩
  obtain ⟨t, ht, hlaid⟩ := putOutcome_laid s (halfBytes _) hwf hfit
  exact ⟨_, t, hn, ht, halfBytes_ofInt _ ▸ hlaid⟩

/-- Settles O24: the four low bytes of the rounded product are what the call lays. -/
theorem putSi32LaysTheField : Obligations.PutSi32LaysTheField := by
  intro s q scale hidle hwf hscale
  have hn := quantise_rounds q scale
  rw [ScaledPair.si32.exec_put hscale hidle hn]
  refine ⟨fun hfit => ?_, putOutcome_overrun s (wordBytes _)⟩
  obtain ⟨t, ht, hlaid⟩ := putOutcome_laid s (wordBytes _) hwf hfit
  exact ⟨_, t, hn, ht, wordBytes_ofInt _ ▸ hlaid⟩

/-- Settles O25: each call lays the bytes of its operand. -/
theorem unscaledPutsLayTheField : Obligations.UnscaledPutsLayTheField := fun s hidle hwf =>
  ⟨fun v hfit => wordBytes_eq v ▸ whenIdle_exists_next hidle (putOutcome_laid s (wordBytes v) hwf hfit),
    fun b hfit => whenIdle_exists_next hidle (putOutcome_laid s [boolByte b] hwf hfit),
    fun v hfit => whenIdle_exists_next hidle (putOutcome_laid s [v] hwf hfit)⟩

/-! ### Picking up a field (R109 to R113) -/

theorem readNat_one (m : Memory) (a : Nat) : Memory.readNat m a 1 = (Memory.read m a).toNat := by
  simp [Memory.readNat, Memory.readBytes, beNat]

/-- The signed reading of the two bytes at an offset. -/
theorem sint_readNat_two (m : Memory) (a : Nat) :
    -32768 ≤ sint 16 (Memory.readNat m a 2) ∧ sint 16 (Memory.readNat m a 2) ≤ 32767 ∧
      sint 16 (Memory.readNat m a 2) % 65536 = (Memory.read m a).toNat * 256 + (Memory.read m (a + 1)).toNat := by
  obtain ⟨hlow, hhigh, hmod⟩ := sint_half _ (readNat_lt m a 2)
  exact ⟨hlow, hhigh, by rw [hmod, readNat_two]; push_cast; rfl⟩

/-- The signed reading of the four bytes at an offset. -/
theorem sint_readNat_four (m : Memory) (a : Nat) :
    -2147483648 ≤ sint 32 (Memory.readNat m a 4) ∧ sint 32 (Memory.readNat m a 4) ≤ 2147483647 ∧
      sint 32 (Memory.readNat m a 4) % 4294967296 = (Memory.read m a).toNat * 16777216 +
        (Memory.read m (a + 1)).toNat * 65536 + (Memory.read m (a + 2)).toNat * 256 + (Memory.read m (a + 3)).toNat := by
  obtain ⟨hlow, hhigh, hmod⟩ := sint_word _ (readNat_lt m a 4)
  exact ⟨hlow, hhigh, by rw [hmod, readNat_four]; push_cast; rfl⟩

/-- Settles O28: the number returned is the signed reading of the two bytes at the cursor. -/
theorem getSi16ReturnsTheQuotient : Obligations.GetSi16ReturnsTheQuotient := by
  intro s scale hidle hscale
  rw [ScaledPair.si16.exec_get hscale hidle]
  refine ⟨fun hfit => ?_, getOutcome_overrun s 2 _⟩
  obtain ⟨t, ht, hread⟩ := getOutcome_read s 2 _ hfit
  exact ⟨_, t, ht, hread, sint_readNat_two s.fbuf s.cur⟩

/-- Settles O29: the number returned is the signed reading of the four bytes at the cursor. -/
theorem getSi32ReturnsTheQuotient : Obligations.GetSi32ReturnsTheQuotient := by
  intro s scale hidle hscale
  rw [ScaledPair.si32.exec_get hscale hidle]
  refine ⟨fun hfit => ?_, getOutcome_overrun s 4 _⟩
  obtain ⟨t, ht, hread⟩ := getOutcome_read s 4 _ hfit
  exact ⟨_, t, ht, hread, sint_readNat_four s.fbuf s.cur⟩

/-- Settles O30: each call's view of the number at the cursor, for a word and for a single byte. -/
theorem unscaledGetsReturnTheField : Obligations.UnscaledGetsReturnTheField := by
  intro s hidle
  refine ⟨fun hfit => ?_, fun hfit => ?_, fun hfit => ?_⟩
  · obtain ⟨t, ht, hread⟩ := whenIdle_exists_next hidle (getOutcome_read s 4 (fun u => .int32 (sint 32 u)) hfit)
    exact ⟨_, t, ht, hread, sint_readNat_four s.fbuf s.cur⟩
  · obtain ⟨t, ht, hread⟩ := whenIdle_exists_next hidle (getOutcome_read s 1 (fun u => .flag (decide (u ≠ 0))) hfit)
    have hzero : Memory.readNat s.fbuf s.cur 1 ≠ 0 ↔ Memory.read s.fbuf s.cur ≠ 0x00 := by
      rw [readNat_one, ne_eq, ne_eq, BitVec.toNat_eq, BitVec.ofNat_eq_ofNat, BitVec.toNat_ofNat, Nat.zero_mod]
    exact ⟨t, ht, by rwa [decide_eq_decide.mpr hzero] at hread⟩
  · obtain ⟨t, ht, hread⟩ := whenIdle_exists_next hidle (getOutcome_read s 1 (fun u => .byte (BitVec.ofNat 8 u)) hfit)
    exact ⟨t, ht, by rwa [readNat_one, BitVec.ofNat_toNat, BitVec.setWidth_eq] at hread⟩

/-! ### Accesses that do not fit (R102) -/

/-- A codec access with operands in their domain lays, or picks up, a field of its width. -/
theorem CodecAccess.exec_eq {i : Instr} {n : Nat} (h : CodecAccess i n) {s : State} (hidle : s.busy = false) :
    (∃ bs, bs.length = n ∧ exec i s = putOutcome s bs) ∨ ∃ view, exec i s = getOutcome s n view := by
  cases h with
  | putSi16 q scale hscale =>
    exact .inl ⟨_, beBytes_length _ _, ScaledPair.si16.exec_put hscale hidle (quantise_rounds q scale)⟩
  | putSi32 q scale hscale =>
    exact .inl ⟨_, beBytes_length _ _, ScaledPair.si32.exec_put hscale hidle (quantise_rounds q scale)⟩
  | putI32 v => exact .inl ⟨_, wordBytes_length v, whenIdle_of_idle s _ hidle⟩
  | putBool b => exact .inl ⟨[boolByte b], rfl, whenIdle_of_idle s _ hidle⟩
  | putU8 v => exact .inl ⟨[v], rfl, whenIdle_of_idle s _ hidle⟩
  | getSi16 scale hscale => exact .inr ⟨_, ScaledPair.si16.exec_get hscale hidle⟩
  | getSi32 scale hscale => exact .inr ⟨_, ScaledPair.si32.exec_get hscale hidle⟩
  | getI32 | getBool | getU8 => exact .inr ⟨_, whenIdle_of_idle s _ hidle⟩

/-- Settles O27: what overruns is the laying of a field or the picking up of one. -/
theorem overrunAdvancesWithoutAccess : Obligations.OverrunAdvancesWithoutAccess := by
  intro i n s haccess hidle hover
  obtain ⟨bs, rfl, h⟩ | ⟨view, h⟩ := haccess.exec_eq hidle
  · exact h ▸ putOutcome_overrun s bs hover
  · exact h ▸ getOutcome_overrun s n view hover

/-! ### Round trips (R115, R116) -/

/-- The field a call laid down is the number of its bytes (R40). -/
theorem readNat_of_putOutcome {s t : State} {bs : List Byte} (hwf : Memory.wf s.fbuf)
    (hfit : s.cur + bs.length ≤ s.flen) (h : putOutcome s bs = .next t) :
    Memory.readNat t.fbuf s.cur bs.length = beNat bs := by
  rw [putOutcome, putField_fits s bs hfit] at h
  cases h
  exact congrArg beNat (Memory.readBytes_writeBytes s.fbuf hwf s.cur bs)

/-- The bytes of a machine word give its unsigned number back. -/
theorem beNat_beBytes_toNat {k : Nat} (v : BitVec (8 * k)) : beNat (beBytes k v.toNat) = v.toNat := by
  rw [beNat_beBytes, Nat.mod_eq_of_lt]
  exact v.isLt.trans_eq (pow_mul 2 8 k)

theorem sint_toNat {w : Nat} (hw : 0 < w) (v : BitVec w) : sint w v.toNat = v.toInt := by
  rw [sint_eq_toInt w _ hw v.isLt, BitVec.ofNat_toNat, BitVec.setWidth_eq]

theorem toNat_ofInt_eq_emod (w : Nat) (n : Int) : ((BitVec.ofInt w n).toNat : Int) = n % 2 ^ w := by
  rw [BitVec.toNat_ofInt, Int.toNat_of_nonneg (Int.emod_nonneg _ (by positivity)), Nat.cast_pow, Nat.cast_ofNat]

/-- A scaled encode whose rounded product is in the field's range stores that integer, and the decode divides it by the
scale again. -/
theorem ScaledPair.roundTrip {scale k : Nat} {put : Rat → Instr} {get : Instr} {s t : State} {q : Rat} {n : Int}
    (h : ScaledPair scale k put get) (hidle : s.busy = false) (hwf : Memory.wf s.fbuf) (hscale : 0 < scale)
    (hn : Rounds (q * scale) n) (hfit : s.cur + k ≤ s.flen) (hlow : -2 ^ (8 * k - 1) ≤ n) (hhigh : n < 2 ^ (8 * k - 1))
    (hput : exec (put q) s = .next t) :
    (Memory.readNat t.fbuf s.cur k : Int) = n % 2 ^ (8 * k) ∧ ReadsBack s t get (.value ((n : Rat) / scale)) := by
  rw [h.exec_put hscale hidle hn] at hput
  have hlen : (beBytes k (BitVec.ofInt (8 * k) n).toNat).length = k := beBytes_length k _
  have hstored := readNat_of_putOutcome hwf (by rwa [hlen]) hput
  have hback := readsBack_put s t _ get (fun u => .value ((sint (8 * k) u : Rat) / scale)) hidle hwf (by rwa [hlen]) hput
    fun u hu => by rw [hlen, h.exec_get hscale hu]
  rw [beNat_beBytes_toNat] at hstored hback
  rw [hlen] at hstored
  constructor
  · rw [hstored, toNat_ofInt_eq_emod]
  · rwa [sint_toNat h.width_pos, BitVec.toInt_ofInt_eq_self h.width_pos hlow hhigh] at hback

/-- The nearest integer to `q * scale` is, over the scale, within half a unit of `q`. -/
theorem Rounds.abs_div_sub_le {q : Rat} {scale : Nat} {n : Int} (hn : Rounds (q * scale) n) (hscale : 0 < scale) :
    |(n : Rat) / scale - q| ≤ 1 / (2 * scale) := by
  have hpos : (0 : Rat) < scale := by exact_mod_cast hscale
  have hdiff : (n : Rat) / scale - q = -((q * scale - n) / scale) := by field_simp; ring
  calc |(n : Rat) / scale - q| = |q * scale - n| / scale := by rw [hdiff, abs_neg, abs_div, abs_of_pos hpos]
    _ ≤ 1 / 2 / scale := by gcongr; exact hn.1
    _ = 1 / (2 * scale) := by rw [div_div]

/-- Settles O33: what comes back is the rounded product over the scale. -/
theorem scaledRoundTripTolerance : Obligations.ScaledRoundTripTolerance := by
  intro s t q scale n hidle hwf hscale hn
  have hclose := hn.abs_div_sub_le hscale
  refine ⟨fun hfit hlow hhigh hput => ⟨_, ?_, hclose⟩, fun hfit hlow hhigh hput => ⟨_, ?_, hclose⟩⟩
  · exact (ScaledPair.si16.roundTrip hidle hwf hscale hn hfit hlow (Int.lt_add_one_of_le hhigh) hput).2
  · exact (ScaledPair.si32.roundTrip hidle hwf hscale hn hfit hlow (Int.lt_add_one_of_le hhigh) hput).2

/-- The product of `n / scale` and the scale is the integer `n`, which is its own rounding. -/
theorem rounds_div_mul (n : Int) {scale : Nat} (hscale : 0 < scale) : Rounds ((n : Rat) / scale * scale) n := by
  have hne : (scale : Rat) ≠ 0 := by exact_mod_cast hscale.ne'
  rw [div_mul_cancel₀ _ hne]
  simp [Rounds]

/-- An operation that lays the bytes of its operand is undone by the one whose view of their number is that operand. -/
theorem readsBack_unscaled {s t : State} {get : Instr} {r : Result} (bs : List Byte) (view : Nat → Result)
    (hidle : s.busy = false) (hwf : Memory.wf s.fbuf) (hfit : s.cur + bs.length ≤ s.flen)
    (hput : whenIdle s (putOutcome s bs) = .next t)
    (hget : ∀ v : State, exec get v = whenIdle v (getOutcome v bs.length view)) (hview : view (beNat bs) = r) :
    ReadsBack s t get r := by
  rw [whenIdle_of_idle s _ hidle] at hput
  exact hview ▸ readsBack_put s t bs get view hidle hwf hfit hput fun v hv => (hget v).trans (whenIdle_of_idle v _ hv)

/-- Settles O34: a multiple of `1 / scale` is its own rounding, and an unscaled decode views its encode's bytes as the
operand. -/
theorem integerRoundTrip : Obligations.IntegerRoundTrip := by
  intro s t scale hidle hwf hscale
  refine ⟨fun n hfit hlow hhigh hput => ?_, fun n hfit hlow hhigh hput => ?_, fun v hfit hput => ?_,
    fun v hfit hput => ?_, fun b hfit hput => ?_⟩
  · exact ScaledPair.si16.roundTrip hidle hwf hscale (rounds_div_mul n hscale) hfit hlow (Int.lt_add_one_of_le hhigh) hput
  · exact ScaledPair.si32.roundTrip hidle hwf hscale (rounds_div_mul n hscale) hfit hlow (Int.lt_add_one_of_le hhigh) hput
  · refine readsBack_unscaled (wordBytes v) (fun u => .int32 (sint 32 u)) hidle hwf hfit hput (fun _ => rfl) ?_
    rw [wordBytes, beNat_beBytes_toNat (k := 4) v, sint_toNat (by decide)]
  · refine readsBack_unscaled [v] (fun u => .byte (BitVec.ofNat 8 u)) hidle hwf hfit hput (fun _ => rfl) ?_
    simp only [beNat, List.length_nil, pow_zero, mul_one, add_zero, BitVec.ofNat_toNat, BitVec.setWidth_eq]
  · refine readsBack_unscaled [boolByte b] (fun u => .flag (decide (u ≠ 0))) hidle hwf hfit hput (fun _ => rfl) ?_
    cases b <;> rfl

end Sys2Proof.Machine

/-! Proofs of the statements about the frame builder (spec/42_frame_builder.md), with the reader's round trip. -/

namespace Sys2Proof.Machine

/-! ### The bytes of a built frame (R130 to R134, R139) -/

theorem frameBytes_length (q : List Byte) : (frameBytes q).length = q.length + if q.length ≤ 256 then 5 else 6 := by
  unfold frameBytes
  split <;> simp

/-- Settles O36: the byte-by-byte form has two or three bytes before the payload and three behind it. -/
theorem builtFrameLengths : Obligations.BuiltFrameLengths := by
  refine ⟨fun q h => ?_, fun q hlow _ => ?_, fun s fwd payload hfwd => ?_, by decide⟩
  · rw [frameOf_eq, frameBytes_length, if_pos h]
  · rw [frameOf_eq, frameBytes_length, if_neg (by omega)]
  · rw [framed_eq, withHeader, if_neg hfwd]
    simp

theorem frameBytes_head? (q : List Byte) : (frameBytes q).head? = some 0x02 ∨ (frameBytes q).head? = some 0x03 := by
  unfold frameBytes
  split
  · exact .inl rfl
  · exact .inr rfl

theorem frameBytes_getLast? (q : List Byte) : (frameBytes q).getLast? = some 0x03 := by
  simp [frameBytes]

theorem ofNat_length_toNat {q : List Byte} (h : q.length ≤ 255) : (BitVec.ofNat 8 q.length).toNat = q.length :=
  (BitVec.toNat_ofNat _ _).trans (Nat.mod_eq_of_lt (by omega))

/-- The length byte separates frames of payloads of different lengths; then the payload stands in place (R139 (d)). -/
theorem frameBytes_injective {q r : List Byte} (hq : q.length ≤ 255) (hr : r.length ≤ 255)
    (h : frameBytes q = frameBytes r) : q = r := by
  rw [frameBytes_eq_region hq, frameBytes_eq_region hr] at h
  simp only [List.cons.injEq, true_and] at h
  obtain ⟨hbyte, hregion⟩ := h
  have hlen : q.length = r.length := by rw [← ofNat_length_toNat hq, hbyte, ofNat_length_toNat hr]
  simp only [List.append_assoc] at hregion
  exact (List.append_inj hregion hlen).1

/-- Settles O37: read off the byte-by-byte form, with the residue law for the checked region. -/
theorem builtFrameProperties : Obligations.BuiltFrameProperties := by
  refine ⟨fun q => ?_, fun q hq => ?_, fun q r hq hr h => ?_, fun p fwd payload hfwd => ?_⟩
  · rw [frameOf_eq]
    exact ⟨frameBytes_head? q, frameBytes_getLast? q⟩
  · have checked : (q ++ crcBytes q ++ [0x03]).take (q.length + 2) = q ++ crcBytes q := List.take_left' (by simp)
    rw [frameOf_eq, frameBytes_eq_region hq]
    refine ⟨rfl, by simp, ?_⟩
    rw [List.drop_succ_cons, List.drop_succ_cons, List.drop_zero, checked, crc16_append_crcBytes]
  · exact frameBytes_injective hq hr (by rwa [← frameOf_eq, ← frameOf_eq])
  · rw [framed, framed, if_neg hfwd, if_pos rfl]

/-! ### `BUILD` (R130, R135) -/

theorem exec_build {s : State} (hidle : s.busy = false) (src : Src) (fwd : Byte) :
    exec (.build src fwd) s = buildOutcome s (withHeader s fwd (s.bytesOf src)) :=
  (whenIdle_of_idle s _ hidle).trans (congrArg (buildOutcome s) (framed_eq s fwd _))

/-- Settles O35: the two branches of the length test. -/
theorem buildReturnsTheFrame : Obligations.BuildReturnsTheFrame := by
  intro s src fwd hidle q
  rw [exec_build hidle]
  refine ⟨fun hlen => ⟨_, if_pos hlen, ?_, ?_⟩, fun hlong => if_neg (Nat.not_le.mpr hlong)⟩
  · exact congrArg Result.bytes (frameOf_eq q)
  · rw [← frameOf_eq]
    rfl

/-! ### `SEND` (R137, R138, R220) -/

theorem sendOutcome_next {s u : State} {payload : List Byte} {fwd : Byte} {st : Status} {n : Nat}
    (h : sendFrame s payload fwd = .ok (u, st, n)) : sendOutcome s payload fwd = .next (u.ret st (.count n)) := by
  rw [sendOutcome, h]

theorem sendOutcome_refused {s : State} {payload : List Byte} {fwd : Byte} {r : Refusal}
    (h : sendFrame s payload fwd = .error r) : sendOutcome s payload fwd = .refused r := by
  rw [sendOutcome, h]

/-- Settles O38: one clause per branch of `sendFrame`. -/
theorem sendWritesTheFrame : Obligations.SendWritesTheFrame := by
  intro s src fwd hidle
  have run : exec (.send src fwd) s = sendOutcome s (s.bytesOf src) fwd := whenIdle_of_idle s _ hidle
  rw [run, ← framed_eq]
  refine ⟨fun hbound hlen => ?_, fun hbound hlong => ?_, fun hunbound => ?_⟩
  · have sent := sendOutcome_next (sendFrame_bound s _ fwd hbound hlen)
    -- with the framed payload a variable, the frame clause compares states and does not evaluate `framed`
    generalize framed s.params fwd (s.bytesOf src) = q at sent ⊢
    exact ⟨_, sent, frameOf_eq q, rfl, rfl, rfl⟩
  · exact sendOutcome_refused (sendFrame_long s _ fwd hbound hlong)
  · exact ⟨_, sendOutcome_next (sendFrame_unbound s _ fwd hunbound), rfl⟩

/-! ### The validator on a frame with other bytes behind it (R175, R176) -/

theorem shortFrame_append {frame : List Byte} {n : Nat} (h : n ≤ frame.length) (tail : List Byte) :
    shortFrame (frame ++ tail) n = shortFrame frame n := by
  match frame, h with
  | a :: b :: frame, h =>
    have within : n ≤ (a :: b :: (frame ++ tail)).length :=
      h.trans ((List.prefix_append (a :: b :: frame) tail).length_le)
    simp only [List.cons_append, shortFrame, within, h]
  | [], h | [_], h =>
    have tooShort : ∀ len : Byte, n ≠ len.toNat + 5 := fun len => by simp at h; omega
    rw [Bool.eq_iff_iff, shortFrame_iff, shortFrame_iff]
    simp [Option.map_eq_some_iff, (tooShort _).symm]

/-- The validator looks at nothing behind the `n` bytes of the frame. -/
theorem unpackFrame_append (s : State) {frame : List Byte} {n : Nat} (h : n ≤ frame.length) (tail : List Byte) :
    unpackFrame s (frame ++ tail) n = unpackFrame s frame n := by
  cases hshort : shortFrame frame n with
  | false => rw [unpackFrame_bad s _ n hshort, unpackFrame_bad s _ n (by rw [shortFrame_append h, hshort])]
  | true =>
    obtain ⟨-, hlen, -⟩ := (shortFrame_iff frame n).mp hshort
    obtain ⟨len, byte, rfl⟩ := Option.map_eq_some_iff.mp hlen
    have lengthByte : (frame ++ tail)[1]? = some len := by rw [List.getElem?_append_left (by omega), byte]
    have slice (a k : Nat) (hk : a + k ≤ frame.length) : ((frame ++ tail).drop a).take k = (frame.drop a).take k := by
      rw [List.drop_append_of_le_length (by omega), List.take_append_of_le_length (by simp; omega)]
    simp only [unpackFrame, shortFrame_append h, List.getD_eq_getElem?_getD, lengthByte, byte, Option.getD_some,
      slice 2 len.toNat (by omega), slice (len.toNat + 5 - 3) 2 (by omega)]

/-! ### The reader on a built frame (R149, R152, R157, R163) -/

/-- A poll that takes any byte but the second (R149). -/
theorem rxPoll_other {s : State} {b : Byte} {queue : List Byte} (hactive : s.rxs.active = true) (hlive : s.now < s.rxdl)
    (hwf : Memory.wf s.rxbuf) (hqueue : s.rxq = b :: queue) (hcap : s.rxcnt < 256) (hcount : s.rxcnt ≠ 1) :
    rxPoll s = .next { s with
      rxq := queue
      rxcnt := s.rxcnt + 1
      rxbuf := Memory.write s.rxbuf s.rxcnt b
      rxs := if s.rxend = some (s.rxcnt + 1) ∧ b = 0x03 then .done
        else if s.rxcnt + 1 = 256 then .rejected else s.rxs } := by
  rw [rxPoll_byte s b queue hactive hlive hqueue hcap, rxByte_other s b queue hwf hcount]

/-- A poll that takes the second byte behind the short marker (R152). -/
theorem rxPoll_short {s : State} {b : Byte} {queue : List Byte} (hactive : s.rxs.active = true) (hlive : s.now < s.rxdl)
    (hwf : Memory.wf s.rxbuf) (hqueue : s.rxq = b :: queue) (hcount : s.rxcnt = 1)
    (hmarker : Memory.read s.rxbuf 0 = 0x02) :
    rxPoll s = .next { s with
      rxq := queue
      rxcnt := 2
      rxbuf := Memory.write s.rxbuf 1 b
      rxs := .awaitPayload
      rxmk := .short
      rxlen := b
      rxend := some (b.toNat + 5) } := by
  rw [rxPoll_byte s b queue hactive hlive hqueue (by rw [hcount]; decide), rxByte_short s b queue hwf hcount hmarker]

/-- A read that has just taken the first two bytes of a short frame: the frame's end is known (R152). -/
def State.headerTaken (s : State) (len : Byte) (queue : List Byte) : State :=
  { s with
    rxs := .awaitPayload
    rxmk := .short
    rxlen := len
    rxend := some (len.toNat + 5)
    rxq := queue
    rxcnt := 2
    rxbuf := Memory.writeBytes s.rxbuf 0 [0x02, len] }

/-- A read that has just taken the whole short frame of `payload` (R157). -/
def State.frameTaken (s : State) (payload queue : List Byte) : State :=
  { s with
    rxs := .done
    rxmk := .short
    rxlen := BitVec.ofNat 8 payload.length
    rxend := some (payload.length + 5)
    rxq := queue
    rxcnt := payload.length + 5
    rxbuf := Memory.writeBytes s.rxbuf 0 (frameBytes payload) }

theorem polls_succ {s t : State} (h : rxPoll s = .next t) (n : Nat) : polls (n + 1) s = polls n t := by
  rw [polls, h]

theorem polls_headerTaken {s : State} {len : Byte} {queue : List Byte} (hstate : s.rxs = .awaitLength)
    (hcount : s.rxcnt = 0) (hend : s.rxend = none) (hlive : s.now < s.rxdl) (hwf : Memory.wf s.rxbuf)
    (hqueue : s.rxq = 0x02 :: len :: queue) (n : Nat) : polls (n + 2) s = polls n (s.headerTaken len queue) := by
  have active : s.rxs.active = true := by rw [hstate]; rfl
  have marker := rxPoll_other active hlive hwf hqueue (by omega) (by omega)
  rw [hend, if_neg (by simp), hcount, if_neg (by decide)] at marker
  rw [polls_succ marker]
  refine polls_succ ?_ n
  exact rxPoll_short active hlive (Memory.wf_write _ hwf 0 _) rfl rfl (Memory.read_write_self _ hwf 0 _)

/-- A read whose frame's end is known takes the rest of the frame, one byte with each poll, and is then `Done`. -/
theorem polls_to_terminator {bs rest : List Byte} {s : State} {n : Nat} (hstate : s.rxs = .awaitPayload)
    (hlive : s.now < s.rxdl) (hwf : Memory.wf s.rxbuf) (hcount : 2 ≤ s.rxcnt) (hn : s.rxcnt + bs.length + 1 = n)
    (hcap : n ≤ 256) (hend : s.rxend = some n) (hqueue : s.rxq = bs ++ 0x03 :: rest) :
    polls (bs.length + 1) s = .next { s with
      rxs := .done
      rxq := rest
      rxcnt := n
      rxbuf := Memory.writeBytes s.rxbuf s.rxcnt (bs ++ [0x03]) } := by
  have active : s.rxs.active = true := by rw [hstate]; rfl
  induction bs generalizing s with
  | nil =>
    have poll := rxPoll_other active hlive hwf hqueue (by omega) (by omega)
    rw [if_pos ⟨by rw [hend, ← hn]; rfl, rfl⟩] at poll
    rw [List.length_nil, polls_succ poll, polls, ← hn]
    rfl
  | cons b bs ih =>
    have hn' : s.rxcnt + 1 + bs.length + 1 = n := by simp only [List.length_cons] at hn; omega
    have poll := rxPoll_other active hlive hwf hqueue (by omega) (by omega)
    rw [if_neg (by rw [hend, Option.some.injEq]; omega), if_neg (by omega)] at poll
    rw [List.length_cons, polls_succ poll]
    exact ih (s := { s with rxq := bs ++ 0x03 :: rest, rxcnt := s.rxcnt + 1, rxbuf := Memory.write s.rxbuf s.rxcnt b })
      hstate hlive (Memory.wf_write _ hwf _ _) (Nat.le_succ_of_le hcount) hn' hend rfl active

/-- A read that has just started completes on a built frame in as many polls as the frame has bytes (R157, R163). -/
theorem polls_frameTaken {payload rest : List Byte} {s : State} (hstate : s.rxs = .awaitLength) (hcount : s.rxcnt = 0)
    (hend : s.rxend = none) (hlive : s.now < s.rxdl) (hwf : Memory.wf s.rxbuf) (hlen : payload.length ≤ 251)
    (hqueue : s.rxq = frameBytes payload ++ rest) :
    polls (payload.length + 5) s = .next (s.frameTaken payload rest) := by
  have length : (payload ++ crcBytes payload).length = payload.length + 2 := by simp
  have toNat := ofNat_length_toNat (q := payload) (by omega)
  have frame := frameBytes_eq_region (payload := payload) (by omega)
  have queue : s.rxq = 0x02 :: BitVec.ofNat 8 payload.length :: (payload ++ crcBytes payload ++ 0x03 :: rest) := by
    simp [hqueue, frame]
  have body := polls_to_terminator (rest := rest) (s := s.headerTaken (BitVec.ofNat 8 payload.length) _) rfl hlive
    (Memory.wf_writeBytes _ hwf _ _) (Nat.le_refl 2) (n := payload.length + 5)
    (by rw [length]; exact Nat.add_comm 2 (payload.length + 2 + 1)) (by omega) (by rw [State.headerTaken, toNat]) rfl
  rw [length] at body
  rw [polls_headerTaken hstate hcount hend hlive hwf queue, body, State.frameTaken, State.headerTaken, frame, toNat]
  rfl

/-- The bytes taken are the head of the receive buffer as the validator sees it. -/
theorem State.rxBytes_eq_append {s : State} {n : Nat} (hcount : s.rxcnt = n) (hcap : n ≤ 256) :
    s.rxBytes = Memory.readBytes s.rxbuf 0 n ++ s.rxBytes.drop n := by
  rw [← s.rxBytes_slice 0 n (by omega) (by omega), List.drop_zero, List.take_append_drop]

theorem unpackFrame_frameTaken {s : State} {payload : List Byte} (rest : List Byte) (hrx : Memory.wf s.rxbuf)
    (hpay : Memory.wf s.paybuf) (hlen : payload.length ≤ 251) :
    unpackFrame (s.frameTaken payload rest) (s.frameTaken payload rest).rxBytes (payload.length + 5) =
      ({ s.frameTaken payload rest with
          paybuf := Memory.writeBytes s.paybuf 0 payload
          paylen := BitVec.ofNat 8 payload.length
          crc := crc16 payload }, .ok) := by
  have length : (frameBytes payload).length = payload.length + 5 := by rw [frameBytes_length, if_pos (by omega)]
  have taken : Memory.readBytes (s.frameTaken payload rest).rxbuf 0 (payload.length + 5) = frameBytes payload :=
    length ▸ Memory.readBytes_writeBytes s.rxbuf hrx 0 (frameBytes payload)
  rw [State.rxBytes_eq_append (n := payload.length + 5) rfl (by omega), taken, unpackFrame_append _ length.ge,
    ← frameShort_eq payload (by omega)]
  exact unpackFrame_frameShort (s.frameTaken payload rest) payload hpay (by omega)

theorem rxEnding_of_done {s : State} {n : Nat} (hstate : s.rxs = .done) (hend : s.rxend = some n) :
    rxEnding s = .next ⟨(unpackFrame s s.rxBytes n).1, (unpackFrame s s.rxBytes n).2,
      if (unpackFrame s s.rxBytes n).2 = .ok then s.rxlen.toNat else 0⟩ := by
  rw [rxEnding, hstate, hend]

/-- The read of a built frame ends with the payload, its length and `Ok` (R160). -/
theorem rxReturn_frameTaken {s : State} {payload : List Byte} (rest : List Byte) (hrx : Memory.wf s.rxbuf)
    (hpay : Memory.wf s.paybuf) (hlen : payload.length ≤ 251) :
    rxReturn (s.frameTaken payload rest) =
      .next (({ s.frameTaken payload rest with
        call := .none
        paybuf := Memory.writeBytes s.paybuf 0 payload
        paylen := BitVec.ofNat 8 payload.length
        crc := crc16 payload } : State).ret .ok (.count payload.length)) := by
  have toNat : (s.frameTaken payload rest).rxlen.toNat = payload.length := ofNat_length_toNat (by omega)
  rw [rxReturn, rxEnding_of_done (s := s.frameTaken payload rest) rfl rfl, unpackFrame_frameTaken rest hrx hpay hlen,
    if_pos rfl, toNat]

/-- Settles O47: the polls leave the frame in `RXBUF`, and the validator accepts what the builder built. -/
theorem readerRecoversABuiltFrame : Obligations.ReaderRecoversABuiltFrame := by
  intro s s' payload rest hinv hidle htimeout hlen hqueue hstart hbound
  have start : exec .rxStart s = .next { rxBegin s with call := .stepwise, result := .empty } :=
    (whenIdle_of_idle s _ hidle).trans (if_pos hbound)
  cases start.symm.trans hstart
  have rxWf := hinv.buffers.rxbuf_wf
  have payWf := hinv.buffers.paybuf_wf
  exact ⟨_, _, polls_frameTaken rfl rfl rfl (Nat.lt_add_of_pos_right htimeout) rxWf hlen hqueue, rfl, rfl,
    rxReturn_frameTaken rest rxWf payWf hlen, rfl, rfl, rfl, rfl, ofNat_length_toNat (by omega),
    Memory.readBytes_writeBytes s.paybuf payWf 0 payload⟩

end Sys2Proof.Machine

/-! Proofs of the statements about the frame reader (spec/43_frame_reader.md): what an item can do to the reader, the
invariant, one poll, the end of a read, and the calls made of these. -/

namespace Sys2Proof.Machine

/-! ### What an item can do to the reader (R148, R149, R160)

Said once over the ways an item can answer; the statements about the queue and the deadline and the invariant follow. -/

/-- The reader's registers with the receive queue: everything that a poll writes. -/
def State.readerView (s : State) : RxState × List Byte × Memory × Nat × Option Nat × Byte × Marker :=
  (s.rxs, s.rxq, s.rxbuf, s.rxcnt, s.rxend, s.rxlen, s.rxmk)

theorem readerView_eq_iff (s t : State) :
    t.readerView = s.readerView ↔
      t.rxs = s.rxs ∧ t.rxq = s.rxq ∧ t.rxbuf = s.rxbuf ∧ t.rxcnt = s.rxcnt ∧ t.rxend = s.rxend ∧ t.rxlen = s.rxlen ∧
      t.rxmk = s.rxmk := by
  simp only [State.readerView, Prod.mk.injEq]

/-- The ways an item can leave the reader: a frame joins the queue, the reader is let alone, a read opens, or it is
polled once. -/
inductive ReaderNext (s : State) (i : Instr) (t : State) : Prop where
  | arrival (p bs : List Byte) (hi : i = .frameS p ∨ i = .frameL p) (ht : t = { s with rxq := s.rxq ++ bs })
  | kept (h : t.readerView = s.readerView)
  | opened (h : t.readerView = (rxBegin s).readerView)
  | polled (u : State) (hu : rxPoll s = .next u) (h : t.readerView = u.readerView)

theorem Quiet.readerView {s t : State} (h : Quiet s t) : t.readerView = s.readerView :=
  (congrArg State.readerView h.frame).trans rfl

theorem Quiet.call {s t : State} (h : Quiet s t) : t.call = s.call :=
  (congrArg State.call h.frame).trans rfl

theorem rxBegin_readerView {s t : State} (h : t.readerView = s.readerView) :
    (rxBegin t).readerView = (rxBegin s).readerView := by
  obtain ⟨-, hqueue, hbuf, -⟩ := (readerView_eq_iff s t).mp h
  simp only [State.readerView, rxBegin, hqueue, hbuf]

/-- What follows a poll in the same step, the end of the read and a decode, leaves the reader alone. -/
theorem ExecNext.reader {s t : State} {i : Instr} (h : ExecNext s i t) : ReaderNext s i t := by
  cases h with
  | arrival p bs hi => exact .arrival p bs hi rfl
  | call u st r hc hq hr => exact .kept hq.readerView
  | start hc hb => exact .opened rfl
  | poll _ hc h => exact .polled t h rfl
  | finish u r hi hr =>
    have hend := (rxEnding_quiet u r hr).1.readerView
    obtain ⟨-, -, rfl⟩ | ⟨-, -, h⟩ := hi
    · exact .kept hend
    · exact .polled u h hend
  | begin hc hb => exact .opened rfl
  | wait _ hc h hf => exact .polled t h rfl
  | ask u st r q hi hc hb hq hr => exact .opened (rxBegin_readerView (t := u) hq.readerView)
  | askWait _ q hi hc h hf => exact .polled t h rfl
  | askFinish p r u st q v hi hc h hr hq hd =>
    exact .polled p h (hq.readerView.trans (rxEnding_quiet p r hr).1.readerView)

/-! ### The receive queue (R49, R157) -/

theorem rxPoll_queue {s t : State} (h : rxPoll s = .next t) :
    t.rxq = s.rxq ∨ ∃ b, s.rxq = b :: t.rxq ∧ s.rxs.active = true ∧ s.now < s.rxdl := by
  obtain ⟨rfl, -⟩ | ⟨-, -, rfl⟩ | ⟨b, queue, hactive, hlive, hqueue, -, rfl⟩ := rxPoll_cases s t h
  · exact .inl rfl
  · exact .inl rfl
  · obtain ⟨_, _, _, _, heq⟩ := rxByte_frame s b queue
    exact .inr ⟨b, by rw [heq]; exact hqueue, hactive, hlive⟩

/-- Settles O15: only a poll takes a byte, and only an arriving frame adds any. -/
theorem atMostOneByteLeavesTheQueue : Obligations.AtMostOneByteLeavesTheQueue := by
  intro i s t h
  cases (exec_next i s t h).reader with
  | arrival p bs hi ht => exact .inr (.inr ⟨p, hi, bs, by rw [ht]⟩)
  | kept hview => exact .inl ((readerView_eq_iff s t).mp hview).2.1
  | opened hview => exact .inl ((readerView_eq_iff (rxBegin s) t).mp hview).2.1
  | polled u hu hview =>
    obtain ⟨-, hqueue, -⟩ := (readerView_eq_iff u t).mp hview
    rw [hqueue]
    exact (rxPoll_queue hu).imp_right .inl

/-! ### The deadline (R159) -/

theorem rxClassify_rxs (s : State) : (rxClassify s).rxs = .awaitPayload ∨ (rxClassify s).rxs = s.rxs := by
  unfold rxClassify
  split
  · split <;> exact .inl rfl
  · exact .inr rfl

/-- A poll stays where it was, or finds the deadline elapsed, or the byte it took moves it on. -/
theorem rxPoll_rxs {s t : State} (h : rxPoll s = .next t) :
    t.rxs = s.rxs ∨ (s.rxdl ≤ s.now ∧ t = { s with rxs := .timedOut }) ∨
      t.rxs = .done ∨ t.rxs = .rejected ∨ t.rxs = .awaitPayload := by
  obtain ⟨rfl, -⟩ | ⟨-, hlate, rfl⟩ | ⟨b, queue, -, -, -, -, rfl⟩ := rxPoll_cases s t h
  · exact .inl rfl
  · exact .inr (.inl ⟨hlate, rfl⟩)
  · have hclassified := rxClassify_rxs (rxBuffer s b queue)
    rw [rxSettle_eq]
    dsimp only
    split
    · exact .inr (.inr (.inl rfl))
    · split
      · exact .inr (.inr (.inr (.inl rfl)))
      · exact hclassified.elim (fun hrxs => .inr (.inr (.inr (.inr hrxs)))) .inl

theorem rxPoll_timedOut {s t : State} (h : rxPoll s = .next t) (hbefore : s.rxs ≠ .timedOut)
    (hafter : t.rxs = .timedOut) : s.rxdl ≤ s.now ∧ t = { s with rxs := .timedOut } := by
  obtain hrxs | hlate | hrxs | hrxs | hrxs := rxPoll_rxs h
  · exact absurd (hrxs.symm.trans hafter) hbefore
  · exact hlate
  all_goals cases hrxs.symm.trans hafter

/-- Settles O41: only a poll enters `TimedOut`, and it is the one that tests the deadline. -/
theorem timeoutOnlyAtTheDeadline : Obligations.TimeoutOnlyAtTheDeadline := by
  intro i s t h hbefore hafter
  cases (exec_next i s t h).reader with
  | arrival p bs hi ht =>
    rw [ht] at hafter
    exact absurd hafter hbefore
  | kept hview => exact absurd (((readerView_eq_iff s t).mp hview).1.symm.trans hafter) hbefore
  | opened hview => cases ((readerView_eq_iff (rxBegin s) t).mp hview).1.symm.trans hafter
  | polled u hu hview =>
    obtain ⟨hrxs, hqueue, hbuf, hcnt, -⟩ := (readerView_eq_iff u t).mp hview
    obtain ⟨hlate, rfl⟩ := rxPoll_timedOut hu hbefore (hrxs ▸ hafter)
    exact ⟨hlate, hqueue, hbuf, hcnt⟩

/-! ### Every step keeps the invariant (R167, R57, R15) -/

/-- R167's clauses speak of the reader's registers alone. -/
theorem State.ReaderSound.congr {s t : State} (hs : s.ReaderSound) (h : t.readerView = s.readerView) :
    t.ReaderSound := by
  obtain ⟨hrxs, -, hbuf, hcnt, hend, hlen, hmk⟩ := (readerView_eq_iff s t).mp h
  constructor <;> simp only [hrxs, hbuf, hcnt, hend, hlen, hmk]
  exacts [hs.count_range, hs.awaitLength_count, hs.awaitPayload_count, hs.end_iff_short, hs.end_value, hs.done_means,
    hs.rejected_means, hs.unread_iff, hs.classified]

/-- A read that has just opened has no byte and no marker, so most clauses of R167 say nothing of it. -/
theorem rxBegin_readerSound (s : State) : (rxBegin s).ReaderSound where
  count_range := Nat.zero_le _
  awaitLength_count := fun _ => Nat.zero_lt_two
  awaitPayload_count := nofun
  end_iff_short := ⟨nofun, nofun⟩
  end_value := nofun
  done_means := nofun
  rejected_means := nofun
  unread_iff := ⟨fun _ => Nat.zero_lt_two, fun _ => rfl⟩
  classified := fun h => absurd h (by simp)

theorem ExecNext.readerSound {s t : State} {i : Instr} (h : ExecNext s i t) (hs : s.ReaderSound)
    (hwf : Memory.wf s.rxbuf) : t.ReaderSound := by
  cases h.reader with
  | arrival p bs hi ht => exact ht ▸ { hs with }
  | kept hview => exact hs.congr hview
  | opened hview => exact (rxBegin_readerSound s).congr hview
  | polled u hu hview => exact (rxPoll_sound s u hwf hs hu).congr hview

theorem Quiet.buffersSound {s t : State} (h : Quiet s t) (hs : s.BuffersSound) : t.BuffersSound := by
  obtain ⟨-, -, hbuf, -⟩ := (readerView_eq_iff s t).mp h.readerView
  exact
    { rxbuf_wf := hbuf ▸ hs.rxbuf_wf
      rxbuf_below := hbuf ▸ hs.rxbuf_below
      paybuf_wf := h.paybuf_wf hs.paybuf_wf
      paybuf_below := h.paybuf_below hs.paybuf_below
      fbuf_wf := h.fbuf_wf hs.fbuf_wf
      fbuf_below := h.fbuf_below hs.fbuf_below }

/-- A poll writes no buffer but `RXBUF`. -/
theorem rxPoll_buffersSound {s t : State} (h : rxPoll s = .next t) (hs : s.BuffersSound) : t.BuffersSound := by
  obtain ⟨hwf, hbelow⟩ := rxPoll_buffer s t h hs.rxbuf_wf hs.rxbuf_below
  obtain ⟨_, _, _, _, _, _, _, rfl⟩ := rxPoll_frame s t h
  exact { hs with rxbuf_wf := hwf, rxbuf_below := hbelow }

theorem ExecNext.buffersSound {s t : State} {i : Instr} (h : ExecNext s i t) (hs : s.BuffersSound) :
    t.BuffersSound := by
  cases h with
  | arrival | start | begin => exact { hs with }
  | call u st r hc hq hr => exact { hq.buffersSound hs with }
  | poll _ hc h => exact rxPoll_buffersSound h hs
  | finish u r hi hr =>
    have hu : u.BuffersSound := by
      obtain ⟨-, -, rfl⟩ | ⟨-, -, h⟩ := hi
      · exact hs
      · exact rxPoll_buffersSound h hs
    exact { (rxEnding_quiet u r hr).1.buffersSound hu with }
  | wait _ hc h hf => exact rxPoll_buffersSound h hs
  | ask u st r q hi hc hb hq hr => exact { hq.buffersSound hs with }
  | askWait _ q hi hc h hf => exact rxPoll_buffersSound h hs
  | askFinish p r u st q v hi hc h hr hq hd =>
    have hend := (rxEnding_quiet p r hr).1.buffersSound (rxPoll_buffersSound h hs)
    exact { hq.buffersSound { hend with } with }

/-! The link between `BUSY` and the reader (R15, R161, R256): between calls the reader is not active, and inside a call
that reads it is past `Idle`. -/

theorem RxState.active_ne_idle {x : RxState} (h : x.active = true) : x ≠ .idle := by
  rintro rfl
  cases h

theorem RxState.not_active_of_finished {x : RxState} (h : x.finished = true) : x.active = false := by
  cases x with
  | idle | awaitLength | awaitPayload => cases h
  | done | timedOut | rejected => rfl

theorem RxState.active_of_not_finished {x : RxState} (h : x.finished = false) (hidle : x ≠ .idle) :
    x.active = true := by
  cases x with
  | idle => exact absurd rfl hidle
  | awaitLength | awaitPayload => rfl
  | done | timedOut | rejected => cases h

theorem callSound_of_free {s : State} (hc : s.call = .none) (h : s.rxs.active = false) : s.CallSound := by
  constructor <;> simp [hc, h]

theorem callSound_of_stepwise {s : State} (hc : s.call = .stepwise) (h : s.rxs ≠ .idle) : s.CallSound := by
  constructor <;> simp [hc, h]

theorem callSound_of_active {s : State} (hc : s.call ≠ .none) (h : s.rxs.active = true) : s.CallSound where
  free := fun hfree => absurd hfree hc
  stepwise := fun _ => RxState.active_ne_idle h
  receive := fun _ => h
  awaiting := fun _ _ => h

theorem rxPoll_call {s t : State} (h : rxPoll s = .next t) : t.call = s.call := by
  obtain ⟨_, _, _, _, _, _, _, rfl⟩ := rxPoll_frame s t h
  rfl

/-- No poll goes back to `Idle`. -/
theorem rxPoll_ne_idle {s t : State} (h : rxPoll s = .next t) (hs : s.rxs ≠ .idle) : t.rxs ≠ .idle := by
  obtain hrxs | ⟨-, rfl⟩ | hrxs | hrxs | hrxs := rxPoll_rxs h
  · rwa [hrxs]
  · nofun
  all_goals rw [hrxs]; nofun

/-- The poll of a call that holds the reader, if it has not ended the read, leaves the reader active. -/
theorem rxPoll_active {s t : State} (h : rxPoll s = .next t) (hs : s.rxs.active = true)
    (hf : t.rxs.finished = false) : t.rxs.active = true :=
  RxState.active_of_not_finished hf (rxPoll_ne_idle h (RxState.active_ne_idle hs))

/-- A read that has ended is over: nothing it calls starts another. -/
theorem rxEnding_not_active {s : State} {r : RxEnd} (h : rxEnding s = .next r) : r.state.rxs.active = false := by
  obtain ⟨hq, -, hf⟩ := rxEnding_quiet s r h
  obtain ⟨hrxs, -⟩ := (readerView_eq_iff s r.state).mp hq.readerView
  rw [hrxs]
  exact RxState.not_active_of_finished hf

theorem ExecNext.callSound {s t : State} {i : Instr} (h : ExecNext s i t) (hs : s.CallSound) : t.CallSound := by
  cases h with
  | arrival => exact { hs with }
  | call u st r hc hq hr =>
    obtain ⟨hrxs, -⟩ := (readerView_eq_iff s u).mp hq.readerView
    exact callSound_of_free (hq.call.trans hc) ((congrArg RxState.active hrxs).trans (hs.free hc))
  | start => exact callSound_of_active nofun rfl
  | poll _ hc h =>
    obtain hfree | hstep := hc
    · cases (rxPoll_inactive s (hs.free hfree)).symm.trans h
      exact hs
    · exact callSound_of_stepwise ((rxPoll_call h).trans hstep) (rxPoll_ne_idle h (hs.stepwise hstep))
  | finish u r hi hr => exact callSound_of_free rfl (rxEnding_not_active hr)
  | begin => exact callSound_of_active nofun rfl
  | wait _ hc h hf =>
    exact callSound_of_active (by rw [rxPoll_call h, hc]; nofun) (rxPoll_active h (hs.receive hc) hf)
  | ask u st r q => exact callSound_of_active nofun rfl
  | askWait _ q hi hc h hf =>
    exact callSound_of_active (by rw [rxPoll_call h, hc]; nofun) (rxPoll_active h (hs.awaiting q hc) hf)
  | askFinish p r u st q v hi hc h hr hq hd =>
    obtain ⟨hrxs, -⟩ := (readerView_eq_iff _ u).mp hq.readerView
    exact callSound_of_free hq.call ((congrArg RxState.active hrxs).trans (rxEnding_not_active hr))

theorem ExecNext.inv {s t : State} {i : Instr} (h : ExecNext s i t) (hs : s.Inv) : t.Inv where
  buffers := h.buffersSound hs.buffers
  reader := h.readerSound hs.reader hs.buffers.rxbuf_wf
  call := h.callSound hs.call

/-- The environment writes no register of the invariant (R53). -/
theorem State.Inv.takeInput {s : State} (hs : s.Inv) : s.takeInput.Inv where
  buffers := { hs.buffers with }
  reader := hs.reader.takeInput
  call := { hs.call with }

theorem State.Inv.retire {s : State} (hs : s.Inv) (rest : List Byte) : (s.retire rest).Inv := by
  obtain ⟨p, heq⟩ := retire_frame s rest
  rw [heq]
  exact { buffers := { hs.buffers with }, reader := { hs.reader with }, call := { hs.call with } }

/-- Settles O9: a step is the environment's turn, an item in one of the ways it can answer, and the port moving on. -/
theorem everyStepKeepsTheInvariant : Obligations.EveryStepKeepsTheInvariant := by
  intro s t hs h
  obtain ⟨-, rfl⟩ | ⟨i, rest, u, -, hx, rfl⟩ := step_next s t h
  · exact hs.takeInput
  · exact ((exec_next i _ u hx).inv hs.takeInput).retire rest

/-! ### `RX_START` (R148) -/

/-- Settles O39: the three branches of the busy test and the binding test. -/
theorem rxStartOpensARead : Obligations.RxStartOpensARead := fun s =>
  ⟨fun hbusy => whenIdle_of_busy s _ hbusy,
    fun hidle hbound => ⟨_, (whenIdle_of_idle s _ hidle).trans (if_pos hbound), rfl, rfl⟩,
    fun hidle hunbound => ⟨_, (whenIdle_of_idle s _ hidle).trans (if_neg (by simp [hunbound])), rfl⟩⟩

/-! ### One poll (R149, R150) -/

theorem whenStepwise_of_call {s : State} (hc : s.call = .none ∨ s.call = .stepwise)
    (k : Host.Outcome State Fault Refusal) : whenStepwise s k = k := by
  obtain hc | hc := hc <;> rw [whenStepwise, hc]

theorem exec_rxStep {s : State} (hc : s.call = .none ∨ s.call = .stepwise) : exec .rxStep s = rxPoll s :=
  whenStepwise_of_call hc _

theorem exec_rxResult {s : State} (hc : s.call = .none ∨ s.call = .stepwise) : exec .rxResult s = rxReturn s :=
  whenStepwise_of_call hc _

theorem RxState.active_iff {x : RxState} : x.active = true ↔ x = .awaitLength ∨ x = .awaitPayload := by
  cases x <;> simp [RxState.active]

/-- Settles O40: the outcomes of a poll; of the bytes, the second behind a short marker, the second behind any other,
and every other byte. -/
theorem rxStepTransitions : Obligations.RxStepTransitions := by
  intro s hc hwf
  rw [exec_rxStep hc]
  simp only [← RxState.active_iff]
  refine ⟨fun hlength hpayload => ?_, rxPoll_timeout s, rxPoll_empty s, fun b queue hactive hlive hqueue hcap => ?_⟩
  · refine rxPoll_inactive s (Bool.eq_false_iff.mpr fun hactive => ?_)
    exact (RxState.active_iff.mp hactive).elim hlength hpayload
  · rw [rxPoll_byte s b queue hactive hlive hqueue hcap]
    have stored := Memory.read_write_self s.rxbuf hwf s.rxcnt b
    have others := fun a (ha : a ≠ s.rxcnt) => Memory.read_write_other s.rxbuf s.rxcnt a b ha
    refine ⟨_, rfl, ?_⟩
    by_cases hcount : s.rxcnt = 1
    · rw [hcount] at stored others
      by_cases hmarker : Memory.read s.rxbuf 0 = 0x02
      · rw [rxByte_short s b queue hwf hcount hmarker, hcount]
        refine ⟨rfl, stored, others, fun h => absurd rfl h, fun _ _ => ⟨rfl, rfl, rfl⟩, fun _ h => ?_,
          fun _ h => absurd hmarker h, ?_⟩
        · rw [hmarker] at h
          cases h
        · simp
      · rw [rxByte_flagged s b queue hwf hcount hmarker, hcount]
        refine ⟨rfl, stored, others, fun h => absurd rfl h, fun _ h => absurd h hmarker,
          fun _ h => ⟨if_pos h, rfl, rfl⟩, fun _ _ h => ⟨if_neg h, rfl, rfl⟩, rfl⟩
    · rw [rxByte_other s b queue hwf hcount]
      refine ⟨rfl, stored, others, fun _ => ⟨rfl, rfl, rfl⟩, fun h => absurd h hcount, fun h => absurd h hcount,
        fun h => absurd h hcount, ?_⟩
      rw [if_neg hcount]

/-- A poll behind the second byte classifies nothing (R149 step 5). -/
theorem rxPoll_classified {s t : State} (h : rxPoll s = .next t) (hcount : 2 ≤ s.rxcnt) :
    t.rxmk = s.rxmk ∧ t.rxend = s.rxend ∧ s.rxcnt ≤ t.rxcnt ∧
      (t.rxs = .done → s.rxs = .done ∨ s.rxend = some (s.rxcnt + 1)) := by
  obtain ⟨rfl, -⟩ | ⟨-, -, rfl⟩ | ⟨b, queue, -, -, -, -, rfl⟩ := rxPoll_cases s t h
  · exact ⟨rfl, rfl, le_rfl, .inl⟩
  · exact ⟨rfl, rfl, le_rfl, nofun⟩
  · rw [rxClassify_other _ (by simp; omega), rxSettle_eq]
    refine ⟨rfl, rfl, Nat.le_succ _, fun hdone => ?_⟩
    dsimp only at hdone ⊢
    split at hdone
    · rename_i hcomplete
      exact .inr ((rxComplete_iff _).mp hcomplete).1
    · split at hdone
      · cases hdone
      · exact .inl hdone

/-! ### Reads that cannot complete (R153, R154, R158) -/

/-- A read with a flagged marker has no end that it could reach (R167 (c), (d)). -/
theorem State.ReaderSound.of_not_short {s : State} (hs : s.ReaderSound) (h : s.rxmk ≠ .short) :
    s.rxend = none ∧ s.rxs ≠ .done :=
  ⟨Option.not_isSome_iff_eq_none.mp (mt hs.end_iff_short.mp h), fun hdone => h (hs.done_means hdone).1⟩

/-- The read has passed the end of its frame and is not `Done`. -/
structure State.PastEnd (s : State) (e : Nat) : Prop where
  not_done : s.rxs ≠ .done
  end_known : s.rxend = some e
  end_passed : e ≤ s.rxcnt
  classified : 2 ≤ s.rxcnt

theorem rxPoll_pastEnd {s t : State} {e : Nat} (hs : s.PastEnd e) (h : rxPoll s = .next t) : t.PastEnd e := by
  obtain ⟨hdone, hend, hpassed, htwo⟩ := hs
  obtain ⟨-, hend', hcount, hdone'⟩ := rxPoll_classified h htwo
  refine ⟨fun hd => ?_, hend'.trans hend, hpassed.trans hcount, htwo.trans hcount⟩
  obtain hd | hnext := hdone' hd
  · exact hdone hd
  · rw [hend, Option.some.injEq] at hnext
    omega

/-- What every poll keeps, any number of polls keep. -/
theorem polls_keep {P : State → Prop} (hP : ∀ u v, P u → rxPoll u = .next v → P v) {n : Nat} {s t : State} (hs : P s)
    (h : polls n s = .next t) : P t := by
  induction n generalizing s with
  | zero => cases h; exact hs
  | succ n ih =>
    rw [polls] at h
    split at h
    next u hu => exact ih (hP s u hs hu) h
    · cases h
    · cases h

/-- Settles O43: once past its end, a read stays past it. -/
theorem wrongTerminatorNeverCompletes : Obligations.WrongTerminatorNeverCompletes := by
  intro n s t e hs hstate hend hpassed h
  have hstart : s.PastEnd e := ⟨by rw [hstate]; nofun, hend, hpassed, (hs.reader.awaitPayload_count hstate).1⟩
  obtain ⟨hdone, hend', hpassed', -⟩ := polls_keep (P := (State.PastEnd · e)) (fun _ _ => rxPoll_pastEnd) hstart h
  exact ⟨hdone, hend', hpassed'⟩

/-! ### The end of a read (R160) -/

/-- The end of a read as the end of its call: `BUSY` cleared and the length returned (R160). -/
theorem rxReturn_of_ending {s : State} {r : RxEnd} (h : rxEnding s = .next r) :
    rxReturn s = .next (({ r.state with call := .none } : State).ret r.status (.count r.length)) := by
  rw [rxReturn, h]

theorem rxEnding_of_timedOut {s : State} (h : s.rxs = .timedOut) : rxEnding s = .next ⟨s, timeoutStatus s.rxmk, 0⟩ := by
  rw [rxEnding, h]

theorem rxEnding_of_rejected {s : State} (h : s.rxs = .rejected) : rxEnding s = .next ⟨s, .structuralReject, 0⟩ := by
  rw [rxEnding, h]

theorem rxReturn_not_ready {s : State} (h : s.rxs = .idle ∨ s.rxs = .awaitLength ∨ s.rxs = .awaitPayload) :
    rxReturn s = .refused .resultNotReady := by
  obtain h | h | h := h <;> rw [rxReturn, rxEnding, h]

theorem Marker.flagged_iff {mk : Marker} : mk.flagged = true ↔ mk = .longUnsupported ∨ mk = .invalid := by
  cases mk <;> simp [Marker.flagged]

/-- Settles O42: the marker and the end stay, and `Done` needs an end; a read with a flagged marker ends as a structural
reject, on either end. -/
theorem flaggedReadsNeverComplete : Obligations.FlaggedReadsNeverComplete := by
  intro s t hs hflag
  have hcount : 2 ≤ s.rxcnt := by
    by_contra hlt
    rw [hs.reader.unread_iff.mpr (by omega)] at hflag
    simp at hflag
  refine ⟨fun h => ?_, fun hc hended => ?_⟩
  · have hpoll := (whenStepwise_next s t _ h).2
    obtain ⟨hmk, -⟩ := rxPoll_classified hpoll hcount
    have hshort : t.rxmk ≠ .short := by
      rw [hmk]
      obtain hflag | hflag := hflag <;> rw [hflag] <;> nofun
    exact ⟨hmk, (rxPoll_sound s t hs.buffers.rxbuf_wf hs.reader hpoll).of_not_short hshort⟩
  · have hstatus : timeoutStatus s.rxmk = .structuralReject := if_pos (Marker.flagged_iff.mpr hflag)
    rw [exec_rxResult hc]
    obtain hend | hend := hended
    · exact ⟨_, rxReturn_of_ending (rxEnding_of_timedOut hend), hstatus, rfl, rfl, rfl⟩
    · exact ⟨_, rxReturn_of_ending (rxEnding_of_rejected hend), rfl, rfl, rfl, rfl⟩

/-- The payload that a read has buffered behind its two leading bytes. -/
def State.bufferedPayload (s : State) : List Byte := Memory.readBytes s.rxbuf 2 s.rxlen.toNat

/-- The CRC field behind the buffered payload (R61). -/
def State.bufferedCrc (s : State) : Nat := Memory.readNat s.rxbuf (s.rxlen.toNat + 2) 2

/-- The comparison of R177, on what a read has buffered. -/
abbrev State.CrcMatches (s : State) : Prop := (crc16 s.bufferedPayload).toNat = s.bufferedCrc

theorem State.bufferedCrc_eq (s : State) {a b : Nat} (ha : a = s.rxlen.toNat + 2) (hb : b = s.rxlen.toNat + 3) :
    s.bufferedCrc = (Memory.read s.rxbuf a).toNat * 256 + (Memory.read s.rxbuf b).toNat := by
  rw [State.bufferedCrc, readNat_two, ha, hb]

@[simp] theorem State.bufferedPayload_length (s : State) : s.bufferedPayload.length = s.rxlen.toNat :=
  Memory.readBytes_length _ _ _

/-- The state of a read that is `Done` after its payload has been copied (R175). -/
def State.payloadCopied (s : State) : State :=
  { s with
    paybuf := Memory.writeBytes s.paybuf 0 s.bufferedPayload
    paylen := s.rxlen
    crc := crc16 s.bufferedPayload }

/-- What stands in `PAYBUF` after the copy is the buffered payload. -/
theorem State.payloadCopied_payload (s : State) (hwf : Memory.wf s.paybuf) :
    s.payloadCopied.payload = s.bufferedPayload := by
  have back := Memory.readBytes_writeBytes s.paybuf hwf 0 s.bufferedPayload
  rwa [State.bufferedPayload_length] at back

/-- A known end is five bytes behind the payload's length (R152, R167 (c)). -/
theorem State.ReaderSound.end_eq {s : State} (hs : s.ReaderSound) {e : Nat} (h : s.rxend = some e) :
    e = s.rxlen.toNat + 5 := by
  obtain ⟨hend, hlen⟩ := hs.end_value (hs.end_iff_short.mp (by rw [h]; rfl))
  rw [hlen]
  exact Option.some.inj (h.symm.trans hend)

theorem State.ReaderSound.count_of_done {s : State} (hs : s.ReaderSound) (h : s.rxs = .done) :
    s.rxcnt = s.rxlen.toNat + 5 :=
  hs.end_eq (hs.done_means h).2.2.1

/-- A read that is `Done` has buffered a whole short frame, so the validator finds its structure sound, copies the
payload and compares the CRC (R175 to R177). -/
theorem unpackFrame_of_done {s : State} (hs : s.ReaderSound) (hwf : Memory.wf s.paybuf) (hdone : s.rxs = .done) :
    unpackFrame s s.rxBytes s.rxcnt =
      (s.payloadCopied, if s.CrcMatches then .ok else .integrityFailure) := by
  obtain ⟨hmk, hmarker, hend, -⟩ := hs.done_means hdone
  obtain ⟨-, hlen⟩ := hs.end_value hmk
  have hcap : s.rxcnt ≤ 256 := hs.count_range
  have hcount := hs.end_eq hend
  have payload : (s.rxBytes.drop 2).take s.rxlen.toNat = s.bufferedPayload := s.rxBytes_slice 2 _ (by omega) (by omega)
  have crc : beNat ((s.rxBytes.drop (s.rxcnt - 3)).take 2) = s.bufferedCrc := by
    rw [hcount, show s.rxlen.toNat + 5 - 3 = s.rxlen.toNat + 2 by omega, s.rxBytes_slice _ 2 (by omega) (by omega)]
    rfl
  have marker : s.rxBytes[0]? = some 0x02 := by rw [s.rxBytes_getElem? 0 (by omega) (by omega), hmarker]
  have length : s.rxBytes[1]? = some s.rxlen := by rw [s.rxBytes_getElem? 1 (by omega) (by omega), hlen]
  rw [unpackFrame_short s _ _ s.rxlen hwf marker length hcount (by rw [s.rxBytes_length]; exact hcap), payload, crc]
  rfl

/-- The end of a read that is `Done`: the verdict is the CRC's (R160, R177). -/
theorem rxEnding_done {s : State} (hs : s.ReaderSound) (hwf : Memory.wf s.paybuf) (hdone : s.rxs = .done) :
    rxEnding s = .next
      { state := s.payloadCopied
        status := if s.CrcMatches then .ok else .integrityFailure
        length := if s.CrcMatches then s.rxlen.toNat else 0 } := by
  obtain ⟨-, -, hend, -⟩ := hs.done_means hdone
  rw [rxEnding_of_done hdone hend, unpackFrame_of_done hs hwf hdone]
  by_cases hcrc : s.CrcMatches <;> simp [hcrc]

/-- The length and the status are told apart by the same test (R160). -/
theorem verdict_of_test (c : Prop) [Decidable c] (length : Nat) :
    if c then (if c then Status.ok else .integrityFailure) = .ok ∧
      Result.count (if c then length else 0) = .count length
    else (if c then Status.ok else .integrityFailure) = .integrityFailure ∧
      Result.count (if c then length else 0) = .count 0 := by
  by_cases hc : c <;> simp [hc]

/-- Settles O45: one clause for each state in which a read can stand. -/
theorem rxResultEndsTheCall : Obligations.RxResultEndsTheCall := by
  intro s hs hc
  rw [exec_rxResult hc]
  refine ⟨rxReturn_not_ready, fun h => ?_, fun h => ?_, fun h => ?_⟩
  · refine ⟨_, rxReturn_of_ending (rxEnding_of_timedOut h), ?_⟩
    simp only [timeoutStatus, Marker.flagged_iff]
    rfl
  · exact ⟨_, rxReturn_of_ending (rxEnding_of_rejected h), rfl⟩
  · have hwf := hs.buffers.paybuf_wf
    refine ⟨_, rxReturn_of_ending (rxEnding_done hs.reader hwf h), rfl, s.payloadCopied_payload hwf, fun a ha => ?_, ?_⟩
    · exact Memory.read_writeBytes_outside _ _ _ _ (.inr (by simpa using ha))
    · have hcount := hs.reader.count_of_done h
      rw [← s.bufferedCrc_eq (by omega) (by omega)]
      exact verdict_of_test _ _

/-! ### What a poll does not look at (R161, R165) -/

theorem rxClassify_outside (s : State) (c : Call) (now : Nat) (queue : List Byte) :
    rxClassify { s with call := c, now := now, rxq := queue } =
      { rxClassify s with call := c, now := now, rxq := queue } := by
  unfold rxClassify
  dsimp only
  split
  · split <;> rfl
  · rfl

/-- What a poll makes of a byte is the same in every call, at every time, and whatever is left in the queue. -/
theorem rxByte_uniform (s : State) (b : Byte) :
    ∃ st mk len fin, ∀ c now waiting queue,
      rxSettle (rxClassify (rxBuffer { s with call := c, now := now, rxq := waiting } b queue)) =
        { s with call := c, now := now, rxq := queue, rxcnt := s.rxcnt + 1, rxbuf := Memory.write s.rxbuf s.rxcnt b,
                 rxs := st, rxmk := mk, rxlen := len, rxend := fin } := by
  obtain ⟨st, mk, len, fin, heq⟩ := rxByte_frame s b []
  refine ⟨st, mk, len, fin, fun c now waiting queue => ?_⟩
  have classified := rxClassify_outside (rxBuffer s b []) c now queue
  calc rxSettle (rxClassify (rxBuffer { s with call := c, now := now, rxq := waiting } b queue))
      = rxSettle { rxClassify (rxBuffer s b []) with call := c, now := now, rxq := queue } :=
        congrArg rxSettle classified
    _ = { rxSettle (rxClassify (rxBuffer s b [])) with call := c, now := now, rxq := queue } := by
        rw [rxSettle_eq, rxSettle_eq]
        rfl
    _ = _ := by rw [heq]

/-- Settles O44: what becomes of the byte is the same at every time and whatever is left in the queue. -/
theorem deliveryGroupingDoesNotMatter : Obligations.DeliveryGroupingDoesNotMatter := by
  intro s t b now' more hlive hlive'
  refine ⟨fun h hactive => ?_, ?_⟩
  · obtain ⟨-, hempty⟩ | ⟨-, hlate, -⟩ | ⟨_, _, -, -, hqueue, hcap, rfl⟩ := rxPoll_cases _ t h
    · cases (hempty hactive).2
    · exact absurd hlate (Nat.not_le.mpr hlive)
    · cases hqueue
      obtain ⟨_, _, _, _, heq⟩ := rxByte_uniform s b
      rw [rxPoll_byte { s with now := now', rxq := b :: more } b more hactive hlive' rfl hcap,
        heq s.call now' (b :: more) more, heq s.call s.now [b] []]
  · cases hactive : s.rxs.active with
    | true => exact rxPoll_empty _ hactive hlive rfl
    | false => exact rxPoll_inactive _ hactive

/-- A poll does the same in whichever call it is made (R161). -/
theorem rxPoll_setCall {s t : State} (h : rxPoll s = .next t) (c : Call) :
    rxPoll { s with call := c } = .next { t with call := c } := by
  obtain ⟨rfl, hidle⟩ | ⟨hactive, hlate, rfl⟩ | ⟨b, queue, hactive, hlive, hqueue, hcap, rfl⟩ := rxPoll_cases s t h
  · cases hactive : t.rxs.active with
    | true => exact rxPoll_empty _ hactive (hidle hactive).1 (hidle hactive).2
    | false => exact rxPoll_inactive _ hactive
  · exact rxPoll_timeout _ hactive hlate
  · obtain ⟨_, _, _, _, heq⟩ := rxByte_uniform s b
    have here : rxSettle (rxClassify (rxBuffer s b queue)) = _ := heq s.call s.now s.rxq queue
    rw [rxPoll_byte { s with call := c } b queue hactive hlive hqueue hcap, heq c s.now s.rxq queue, here]

theorem unpackFrame_setCall (s : State) (c : Call) (frame : List Byte) (n : Nat) :
    unpackFrame { s with call := c } frame n =
      ({ (unpackFrame s frame n).1 with call := c }, (unpackFrame s frame n).2) := by
  unfold unpackFrame
  split <;> rfl

/-- The end of a read clears the call, so it does the same in whichever call it is made (R160). -/
theorem rxReturn_setCall (s : State) (c : Call) : rxReturn { s with call := c } = rxReturn s := by
  by_cases hdone : s.rxs = .done
  · obtain hend | ⟨e, hend⟩ := Option.eq_none_or_eq_some s.rxend
    · simp only [rxReturn, rxEnding, hdone, hend]
    · rw [rxReturn_of_ending (rxEnding_of_done (s := { s with call := c }) hdone hend), unpackFrame_setCall,
        rxReturn_of_ending (rxEnding_of_done hdone hend)]
      rfl
  · cases h : s.rxs with
    | done => exact absurd h hdone
    | idle | awaitLength | awaitPayload | timedOut | rejected => simp only [rxReturn, rxEnding, h]

/-! ### `RECEIVE` (R157, R160, R161) -/

theorem pollThen_of_poll {s u : State} (h : rxPoll s = .next u) (finish : State → Host.Outcome State Fault Refusal) :
    pollThen s finish = if u.rxs.finished then finish u else .next u := by
  rw [pollThen, h]

/-- A `RECEIVE` in progress polls, and with the read ended does what `RX_RESULT` does. -/
theorem exec_receive {s u : State} (hc : s.call = .receive) (h : rxPoll s = .next u) :
    exec .receive s = if u.rxs.finished then rxReturn u else .next u := by
  rw [← pollThen_of_poll h]
  change execReceive s = _
  rw [execReceive, hc]

/-- A read that took the terminator in its place (R157). -/
def State.terminatorTaken (s : State) (queue : List Byte) : State :=
  { s with
    rxq := queue
    rxcnt := s.rxcnt + 1
    rxbuf := Memory.write s.rxbuf s.rxcnt 0x03
    rxs := .done }

/-- A read that lacks only the terminator, which is the next byte waiting (R157). -/
structure State.AtTerminator (s : State) (queue : List Byte) : Prop where
  state : s.rxs = .awaitPayload
  live : s.now < s.rxdl
  queue_head : s.rxq = 0x03 :: queue
  end_next : s.rxend = some (s.rxcnt + 1)

section
variable {s : State} {queue : List Byte}

theorem rxPoll_atTerminator (hs : s.Inv) (h : s.AtTerminator queue) : rxPoll s = .next (s.terminatorTaken queue) := by
  obtain ⟨hstate, hlive, hnext, hlast⟩ := h
  obtain ⟨htwo, hcap⟩ := hs.reader.awaitPayload_count hstate
  rw [rxPoll_other (by rw [hstate]; rfl) hlive hs.buffers.rxbuf_wf hnext hcap (by omega), if_pos ⟨hlast, rfl⟩]
  rfl

/-- Taking the terminator moves no byte of the payload or of the CRC field. -/
theorem terminatorTaken_readBytes (hs : s.Inv) (h : s.AtTerminator queue) {a n : Nat}
    (hend : a + n ≤ s.rxlen.toNat + 4) :
    Memory.readBytes (s.terminatorTaken queue).rxbuf a n = Memory.readBytes s.rxbuf a n := by
  have hcount := hs.reader.end_eq h.end_next
  exact Memory.readBytes_congr _ _ _ _ fun i hi => Memory.read_write_other _ _ _ _ (by omega)

theorem terminatorTaken_payload (hs : s.Inv) (h : s.AtTerminator queue) :
    (s.terminatorTaken queue).bufferedPayload = s.bufferedPayload :=
  terminatorTaken_readBytes hs h (by simp only [State.terminatorTaken]; omega)

theorem terminatorTaken_crc (hs : s.Inv) (h : s.AtTerminator queue) :
    (s.terminatorTaken queue).bufferedCrc = s.bufferedCrc :=
  congrArg beNat (terminatorTaken_readBytes hs h (by simp only [State.terminatorTaken]; omega))

theorem State.AtTerminator.bufferedCrc_eq (hs : s.Inv) (h : s.AtTerminator queue) :
    s.bufferedCrc =
      (Memory.read s.rxbuf (s.rxcnt - 2)).toNat * 256 + (Memory.read s.rxbuf (s.rxcnt - 1)).toNat := by
  have hcount := hs.reader.end_eq h.end_next
  exact s.bufferedCrc_eq (by omega) (by omega)

/-- The end of a read that has just taken its terminator (R160). -/
theorem rxEnding_terminatorTaken (hs : s.Inv) (h : s.AtTerminator queue) :
    rxEnding (s.terminatorTaken queue) = .next
      { state := (s.terminatorTaken queue).payloadCopied
        status := if s.CrcMatches then .ok else .integrityFailure
        length := if s.CrcMatches then s.rxlen.toNat else 0 } := by
  have hsound := rxPoll_sound s _ hs.buffers.rxbuf_wf hs.reader (rxPoll_atTerminator hs h)
  simp only [rxEnding_done hsound hs.buffers.paybuf_wf rfl, State.CrcMatches, terminatorTaken_payload hs h,
    terminatorTaken_crc hs h]
  rfl

end

/-- Settles O46: what a step of `RECEIVE` does in each call, and the end of the read that its last poll completes. -/
theorem receiveIsStartPollsResult : Obligations.ReceiveIsStartPollsResult := by
  intro s
  refine ⟨fun hc hunbound => ?_, fun hc hbound => ?_, fun u hc hstep => ?_,
    fun queue hs hc hstate hlive hnext hlast => ?_⟩
  · refine ⟨s.ret .transportUnbound (.count 0), ?_, rfl⟩
    change execReceive s = _
    simp [execReceive, hc, hunbound]
  · refine ⟨{ rxBegin s with call := .receive }, ?_, rfl, rfl⟩
    change execReceive s = _
    simp [execReceive, hc, hbound]
  · have hpoll : rxPoll { s with call := .stepwise } = .next u := (exec_rxStep (.inr rfl)).symm.trans hstep
    have hpoll' := rxPoll_setCall hpoll .receive
    have hself : ({ s with call := .receive } : State) = s := by rw [← hc]
    rw [hself] at hpoll'
    rw [exec_receive hc hpoll']
    refine ⟨fun hf => if_neg (by simp [hf]), fun hf => (if_pos hf).trans ?_⟩
    rw [rxReturn_setCall, exec_rxResult (.inr (rxPoll_call hpoll))]
  · have h : s.AtTerminator queue := ⟨hstate, hlive, hnext, hlast⟩
    have hwf := hs.buffers.paybuf_wf
    rw [exec_receive hc (rxPoll_atTerminator hs h), ← h.bufferedCrc_eq hs]
    refine ⟨_, rxReturn_of_ending (rxEnding_terminatorTaken hs h), rfl, rfl, rfl, ?_, rfl, rfl, verdict_of_test _ _⟩
    exact ((s.terminatorTaken queue).payloadCopied_payload hwf).trans (terminatorTaken_payload hs h)

/-! ### Query wrappers (R157, R160, R201, R208) -/

/-- A read that ended with a payload and `Ok` is decoded, and the decode's status is the query's (R201). -/
theorem queryReturn_of_decode (q : Query) {s t : State} {r : RxEnd} {st : Status} (hr : rxEnding s = .next r)
    (hlen : r.length ≠ 0) (hok : r.status = .ok)
    (hdecode : decodePayload { r.state with call := .none } = .ok (t, st)) :
    queryReturn q s = .next (t.ret st (queryResult q (decide (st = .ok)) r.length)) := by
  simp only [queryReturn, hr]
  rw [if_pos ⟨hlen, hok⟩, hdecode]

/-- What the decode of a query's reply starts from: the terminator taken, the payload copied, `BUSY` cleared. -/
def State.replyCopied (s : State) (queue : List Byte) : State :=
  { (s.terminatorTaken queue).payloadCopied with call := .none }

section
variable {s : State} {queue : List Byte}

/-- A query whose read lacks only the terminator of a frame with a matching CRC goes on with the decode of the buffered
payload, unless that payload is empty. -/
theorem pollThen_query_atTerminator (q : Query) (hs : s.Inv) (h : s.AtTerminator queue)
    (hcrc : s.CrcMatches) (hlen : s.rxlen.toNat ≠ 0) {t : State}
    (hdecode : decodePayload (s.replyCopied queue) = .ok (t, .ok)) :
    pollThen s (queryReturn q) = .next (t.ret .ok (queryResult q true s.rxlen.toNat)) := by
  have hending := rxEnding_terminatorTaken hs h
  simp only [if_pos hcrc] at hending
  rw [pollThen_of_poll (rxPoll_atTerminator hs h)]
  exact (if_pos rfl).trans (queryReturn_of_decode q hending hlen rfl hdecode)

/-- The payload that the decode finds is the buffered one. -/
theorem replyCopied_payload (hs : s.Inv) (h : s.AtTerminator queue) :
    (s.replyCopied queue).payload = s.bufferedPayload :=
  ((s.terminatorTaken queue).payloadCopied_payload hs.buffers.paybuf_wf).trans (terminatorTaken_payload hs h)

end

/-- A buffered payload that is not empty opens with the byte at offset 2 of the frame (R61). -/
theorem State.bufferedPayload_cons (s : State) {n : Nat} (h : s.rxlen.toNat = n + 1) :
    s.bufferedPayload = Memory.read s.rxbuf 2 :: Memory.readBytes s.rxbuf 3 n := by
  rw [State.bufferedPayload, h, Memory.readBytes]

theorem exec_query {q : Query} {i : Instr} (hi : Instr.asks i q) {s : State} (hc : s.call = .awaiting q) :
    exec i s = pollThen s (queryReturn q) := by
  cases q with
  | fwVersion | values =>
    obtain ⟨fwd, rfl⟩ := hi
    change queryStep _ _ fwd s = _
    rw [queryStep, hc]
    exact if_pos rfl

/-- Settles O60: the decode finds the buffered payload in `PAYBUF`, and its identifier and length select the record. -/
theorem queryEndsWithItsReply : Obligations.QueryEndsWithItsReply := by
  intro s fwd queue hs hlegal hstate hlive hnext hlast hcrc
  have h : s.AtTerminator queue := ⟨hstate, hlive, hnext, hlast⟩
  rw [← h.bufferedCrc_eq hs] at hcrc
  have hpay := replyCopied_payload hs h
  refine ⟨fun hc hid hlen => ?_, fun hc hid hlen => ?_⟩
  · obtain ⟨n, hn⟩ := Nat.exists_eq_add_of_le' hlen
    rw [s.bufferedPayload_cons hn, hid, Memory.readBytes, Memory.readBytes] at hpay
    rw [exec_query (q := .fwVersion) ⟨fwd, rfl⟩ hc,
      pollThen_query_atTerminator .fwVersion hs h hcrc (by omega) (decodePayload_fills_fwv hpay)]
    exact ⟨_, rfl, rfl, rfl, rfl, rfl, rfl, rfl⟩
  · obtain ⟨n, hn⟩ := Nat.exists_eq_add_of_le' hlen
    rw [s.bufferedPayload_cons hn, hid] at hpay
    rw [exec_query (q := .values) ⟨fwd, rfl⟩ hc,
      pollThen_query_atTerminator .values hs h hcrc (by omega) (decodePayload_fills_snap hpay (by simp) hlegal)]
    refine ⟨_, rfl, rfl, rfl, rfl, rfl, congrArg some (telemAt_congr _ fun i hi => ?_), rfl⟩
    have hread := State.read_paybuf hpay (i := i + 1) (by simp; omega)
    simpa [Nat.add_comm] using hread

end Sys2Proof.Machine

/-! Proofs of the statements about the payload validator (spec/44_payload_validator.md). -/

namespace Sys2Proof.Machine

theorem exec_unpack {s : State} (hidle : s.busy = false) (src : FrameSrc) (n : Nat) :
    exec (.unpack src n) s = flagOutcome (unpackFrame s (s.frameOfSrc src) n) :=
  whenIdle_of_idle s _ hidle

/-- The CRC field of a frame, as a number, is its high byte times 256 plus its low byte (R41, R65). -/
theorem crcField_eq {frame : List Byte} {n : Nat} (hlow : 3 ≤ n) (hn : n ≤ frame.length) :
    (frame[n - 3]?.bind fun hi => frame[n - 2]?.map fun lo => hi.toNat * 256 + lo.toNat) =
      some (beNat ((frame.drop (n - 3)).take 2)) := by
  obtain ⟨k, rfl⟩ := Nat.exists_eq_add_of_le' hlow
  have hfirst : k < frame.length := by omega
  have hsecond : k + 1 < frame.length := by omega
  have field : (frame.drop k).take 2 = [frame[k], frame[k + 1]] := by
    rw [List.drop_eq_getElem_cons hfirst, List.drop_eq_getElem_cons hsecond]
    rfl
  simp [field, hfirst, hsecond, beNat]

/-- The flag that is returned and the status are told apart by the same test (R175, R177). -/
theorem flag_of_test (c : Prop) [Decidable c] :
    let status : Status := if c then .ok else .integrityFailure
    if c then status = .ok ∧ Result.flag (decide (status = .ok)) = .flag true
    else status = .integrityFailure ∧ Result.flag (decide (status = .ok)) = .flag false := by
  by_cases hc : c <;> simp [hc]

/-- Settles O48: the structure check either fails and leaves everything, or lets the copy and the comparison through. -/
theorem unpackChecksThenCopiesThenCompares : Obligations.UnpackChecksThenCopiesThenCompares := by
  intro s src n hidle hwf frame
  rw [exec_unpack hidle]
  refine ⟨fun hbad => ?_, fun len hmarker hlen hn hle => ?_⟩
  · have rejected : shortFrame frame n = false := Bool.eq_false_iff.mpr (mt (shortFrame_iff frame n).mp hbad)
    exact ⟨_, congrArg flagOutcome (unpackFrame_bad s frame n rejected), rfl⟩
  · have hpayload : ((frame.drop 2).take len.toNat).length = len.toNat := by simp; omega
    refine ⟨_, congrArg flagOutcome (unpackFrame_short s frame n len hwf hmarker hlen hn hle), rfl, ?_, fun a ha => ?_, ?_⟩
    · have copied := Memory.readBytes_writeBytes s.paybuf hwf 0 ((frame.drop 2).take len.toNat)
      rwa [hpayload] at copied
    · exact Memory.read_writeBytes_outside _ _ _ _ (.inr (by omega))
    · simp only [crcField_eq (by omega : 3 ≤ n) hle, Option.some.injEq]
      exact flag_of_test _

/-- What `BUILD` answers when its framed payload fits a short frame (R130, R132). -/
theorem exec_build_short {s t : State} {src : Src} {fwd : Byte} {q : List Byte} (hidle : s.busy = false)
    (hq : withHeader s fwd (s.bytesOf src) = q) (hlen : q.length ≤ 255) (h : exec (.build src fwd) s = .next t) :
    t = (buildFrame s q).ret .ok (.bytes (frameShort q)) := by
  have short : frameOf q = frameShort q := if_pos (by simp only [Config.shortMax]; omega)
  rw [exec_build hidle, hq, buildOutcome, if_pos (by simp only [Config.longMax]; omega), short] at h
  exact (Host.Outcome.next.inj h).symm

/-- `UNPACK` of a built short frame ends with `Ok`, leaves the payload in `PAYBUF` and keeps the records (R178 (a)). -/
theorem exec_unpack_frameShort {s : State} (hidle : s.busy = false) (hwf : Memory.wf s.paybuf) {q : List Byte}
    (hlen : q.length ≤ 255) :
    ∃ u, exec (.unpack (.given (.lit (frameShort q))) (q.length + 5)) s = .next u ∧ u.status = .ok ∧
      u.result = .flag true ∧ u.payload = q ∧ u.snap = s.snap ∧ u.fwv = s.fwv := by
  have accepted := congrArg flagOutcome (unpackFrame_frameShort s q hwf hlen)
  refine ⟨_, (exec_unpack hidle _ _).trans accepted, rfl, rfl, ?_, rfl, rfl⟩
  change Memory.readBytes (Memory.writeBytes s.paybuf 0 q) 0 (BitVec.ofNat 8 q.length).toNat = q
  rw [ofNat_length_toNat hlen, Memory.readBytes_writeBytes _ hwf]

/-- Settles O49: `BUILD` returns the short frame and leaves `PAYBUF` and the records, and `UNPACK` inverts that frame. -/
theorem unpackInvertsBuild : Obligations.UnpackInvertsBuild := by
  intro s t src fwd hidle hwf hlen hbuild
  generalize hq : withHeader s fwd (s.bytesOf src) = q at hlen ⊢
  obtain rfl := exec_build_short hidle hq hlen hbuild
  obtain ⟨u, inverted⟩ :=
    exec_unpack_frameShort (s := (buildFrame s q).ret .ok (.bytes (frameShort q))) hidle hwf hlen
  exact ⟨_, u, rfl, inverted⟩

end Sys2Proof.Machine

/-! Proofs of the statements about the command codec and the wrappers (spec/45_command_codec.md). -/

namespace Sys2Proof.Machine

/-! ### The two routines (R188 to R193) -/

theorem decodeFwver_short {s : State} (h : s.flen < 2) : decodeFwver s = (s, .codecOverrun) := if_pos h

theorem decodeTelem_short {s : State} (h : s.flen < 58) : decodeTelem s = .ok (s, .codecOverrun) := if_pos h

/-- Settles O52: the length test lets the whole layout through, or ends the call before any field is read. -/
theorem decFwverFillsTheRecord : Obligations.DecFwverFillsTheRecord := by
  intro s hidle hcur
  have run : exec .decFwver s = flagOutcome (decodeFwver s) := whenIdle_of_idle s _ hidle
  rw [run]
  exact ⟨fun hfit => ⟨_, congrArg flagOutcome (decodeFwver_fits s hcur hfit), rfl⟩,
    fun hshort => ⟨_, congrArg flagOutcome (decodeFwver_short hshort), rfl⟩⟩

/-- Settles O53: the length test lets the whole layout through, or ends the call before any field is read. -/
theorem decTelemFillsTheSnapshot : Obligations.DecTelemFillsTheSnapshot := by
  intro s hidle hcur hlegal
  obtain ⟨-, hscales⟩ := Params.legal_telemetry hlegal
  have run : exec .decTelem s = decodeOutcome (decodeTelem s) := whenIdle_of_idle s _ hidle
  rw [run]
  exact ⟨fun hfit => ⟨_, congrArg decodeOutcome (decodeTelem_fits s hcur hfit hscales), rfl⟩,
    fun hshort => ⟨_, congrArg decodeOutcome (decodeTelem_short hshort), rfl⟩⟩

/-! ### `DECODE` (R185 to R187, R191, R192) -/

theorem exec_decode {s : State} (hidle : s.busy = false) : exec .decode s = decodeOutcome (decodePayload s) :=
  whenIdle_of_idle s _ hidle

theorem decodePayload_empty {s : State} (h : s.payload = []) : decodePayload s = .ok (s, .unknownCommand) := by
  rw [decodePayload, h]

theorem decodePayload_unknown {s : State} {identifier : Byte} {fields : List Byte} (h : s.payload = identifier :: fields)
    (hfwver : identifier ≠ s.params.cmdFwVersion) (htelem : identifier ≠ Config.cmdTelemetry) :
    decodePayload s =
      .ok ({ s with fbuf := Memory.ofBytes fields, flen := fields.length, cur := 0 }, .unknownCommand) := by
  rw [decodePayload, h, ← bind_whole]
  exact (if_neg hfwver).trans (if_neg htelem)

/-- Settles O50: one equation of `decodePayload` for each row of the dispatch table, and one for the empty payload. -/
theorem decodeDispatchesOnTheIdentifier : Obligations.DecodeDispatchesOnTheIdentifier := by
  intro s hidle
  rw [exec_decode hidle]
  refine ⟨fun hempty => ?_, fun identifier fields hpay hfwver htelem => ?_, fun identifier fields hpay hid => ?_,
    fun identifier fields hpay hfwver hid => ?_⟩
  · exact ⟨_, congrArg decodeOutcome (decodePayload_empty hempty), rfl⟩
  · exact ⟨_, congrArg decodeOutcome (decodePayload_unknown hpay hfwver htelem), rfl, Memory.readBytes_ofBytes fields⟩
  · rw [decodePayload_fwver (hid ▸ hpay)]
    exact (whenIdle_of_idle _ _ hidle).symm
  · subst hid
    rw [decodePayload_telem hpay hfwver]
    exact (whenIdle_of_idle _ _ hidle).symm

/-- Settles O51: both records are filled from the payload's own bytes, which the binding copies. -/
theorem decodeFillsTheRecord : Obligations.DecodeFillsTheRecord := by
  intro s hidle hlegal
  rw [exec_decode hidle]
  exact ⟨fun major minor tail hpay => ⟨_, congrArg decodeOutcome (decodePayload_fills_fwv hpay), rfl⟩,
    fun fields hpay hfit => ⟨_, congrArg decodeOutcome (decodePayload_fills_snap hpay hfit hlegal), rfl⟩⟩

/-! ### Wrapper arguments (R118, R200, R202; assumption log 19) -/

theorem encodeArg_si16 (draw : Nat) {scale : Nat} (hscale : 0 < scale) (q : Rat) :
    encodeArg draw (.si16 scale) (.fin q) = .ok (halfBytes (quantise 16 q scale)) := if_pos hscale

theorem encodeArg_si32 (draw : Nat) {scale : Nat} (hscale : 0 < scale) (q : Rat) :
    encodeArg draw (.si32 scale) (.fin q) = .ok (wordBytes (quantise 32 q scale)) := if_pos hscale

theorem encodeArg_i32 (draw : Nat) (q : Rat) : encodeArg draw .i32 (.fin q) = .ok (wordBytes (int32Of draw q)) := rfl

theorem encodeArg_bool (draw : Nat) (q : Rat) : encodeArg draw .bool (.fin q) = .ok [boolByte (bitOf draw q)] := rfl

theorem encodeArg_not_finite (draw : Nat) (e : Enc) {v : Value} (h : ∀ q, v ≠ .fin q) :
    encodeArg draw e v = .error .valueDomain := by
  rw [encodeArg, finiteOf_eq_none h]

/-- No encoding form is wider than four bytes (R200). -/
theorem encodeArg_length {draw : Nat} {e : Enc} {v : Value} {bs : List Byte} (h : encodeArg draw e v = .ok bs) :
    bs.length ≤ 4 := by
  unfold encodeArg at h
  split at h
  · cases h
  · cases e with
    | si16 scale | si32 scale =>
      dsimp only at h
      split at h <;> cases h
      simp
    | i32 | bool =>
      cases h
      simp

theorem int32Of_toInt (draw : Nat) (v : Word) : int32Of draw (v.toInt : Rat) = v := by
  have hlow : -2147483648 ≤ v.toInt := BitVec.le_toInt v
  have hhigh : v.toInt ≤ 2147483647 := by
    have := BitVec.toInt_lt (x := v)
    omega
  rw [int32Of, if_pos ⟨Rat.den_intCast _, by simpa using hlow, by simpa using hhigh⟩, Rat.num_intCast,
    BitVec.ofInt_toInt]

theorem bitOf_flag (draw : Nat) (b : Bool) : bitOf draw (if b then 1 else 0) = b := by
  cases b
  · exact if_pos rfl
  · exact (if_neg one_ne_zero).trans (if_pos rfl)

/-- The argument's bytes, where the `PUT_*` of the same bytes laid them. -/
theorem encodeArg_laid {s t : State} {e : Enc} {v : Value} {bs : List Byte} (hwf : Memory.wf s.fbuf)
    (hfit : s.cur + bs.length ≤ s.flen) (harg : encodeArg s.draws e v = .ok bs) (hput : putOutcome s bs = .next t) :
    encodeArg s.draws e v = .ok (Memory.readBytes t.fbuf s.cur bs.length) := by
  rw [putOutcome, putField_fits s bs hfit] at hput
  cases hput
  exact harg.trans (congrArg Except.ok (Memory.readBytes_writeBytes s.fbuf hwf s.cur bs).symm)

theorem encodeArg_bool_cases (draw : Nat) (q : Rat) :
    encodeArg draw .bool (.fin q) = .ok [0x00] ∨ encodeArg draw .bool (.fin q) = .ok [0x01] := by
  rw [encodeArg_bool]
  cases bitOf draw q
  · exact .inl rfl
  · exact .inr rfl

/-- A wrapper whose argument has no bytes is refused for the argument's reason, and so is its request row (R118). -/
theorem refused_of_encodeArg {s : State} {e : Enc} {v : Value} {r : Refusal} (hidle : s.busy = false)
    (identifier fwd : Byte) (h : encodeArg s.draws e v = .error r) :
    whenIdle s (sendArg s identifier e v fwd) = .refused r ∧ whenIdle s (requestArg s identifier e v) = .refused r := by
  rw [whenIdle_of_idle s _ hidle, whenIdle_of_idle s _ hidle, sendArg, requestArg, h]
  exact ⟨rfl, rfl⟩

/-- Settles O58: in each form the argument's bytes are the field that the `PUT_*` lays. -/
theorem wrapperArgumentsFollowTheirForm : Obligations.WrapperArgumentsFollowTheirForm := by
  refine ⟨fun s t q scale hidle hwf hscale hfit => ⟨fun hput => ?_, fun hput => ?_, fun v hput => ?_, fun b hput => ?_⟩,
    fun draw q => ⟨⟨_, rfl, wordBytes_length _⟩, encodeArg_bool_cases draw q, rfl, rfl⟩,
    fun draw e v hv => encodeArg_not_finite draw e hv,
    fun s v fwd r hidle => ⟨refused_of_encodeArg hidle _ fwd, refused_of_encodeArg hidle _ fwd,
      refused_of_encodeArg hidle _ fwd, refused_of_encodeArg hidle _ fwd⟩⟩
  · rw [ScaledPair.si16.exec_put hscale hidle (quantise_rounds q scale)] at hput
    exact encodeArg_laid hwf (by rw [halfBytes_length]; omega) (encodeArg_si16 _ hscale q) hput
  · rw [ScaledPair.si32.exec_put hscale hidle (quantise_rounds q scale)] at hput
    exact encodeArg_laid hwf (by rwa [wordBytes_length]) (encodeArg_si32 _ hscale q) hput
  · have harg : encodeArg s.draws .i32 (.fin v.toInt) = .ok (wordBytes v) := by rw [encodeArg_i32, int32Of_toInt]
    exact encodeArg_laid hwf (by rwa [wordBytes_length]) harg ((whenIdle_of_idle s _ hidle).symm.trans hput)
  · have harg : encodeArg s.draws .bool (.fin (if b then 1 else 0)) = .ok [boolByte b] := by
      rw [encodeArg_bool, bitOf_flag]
    exact encodeArg_laid hwf (by rw [List.length_singleton]; omega) harg ((whenIdle_of_idle s _ hidle).symm.trans hput)

/-! ### The wrappers that await no reply (R200, R202 to R207; assumption log 25) -/

/-- A forwarding header is at most two bytes (R131). -/
theorem withHeader_length_le (s : State) (fwd : Byte) (payload : List Byte) :
    (withHeader s fwd payload).length ≤ payload.length + 2 := by
  unfold withHeader
  split
  · exact Nat.le_add_right _ _
  · exact Nat.le_refl _

/-- A bound `SEND` of the framed payload `q`: the frame in `TXBUF`, and on the link as much of it as the transport took
(R137). -/
def State.sent (s : State) (q : List Byte) : State :=
  { s with
    crc := crc16 q
    txbuf := frameBytes q
    txlog := s.txlog ++ (frameBytes q).take (min s.accept (frameBytes q).length) }

theorem sendFrame_sent {s : State} {payload q : List Byte} {fwd : Byte} (hbound : s.cfgBound = true)
    (hq : withHeader s fwd payload = q) (hlen : q.length ≤ 65535) :
    sendFrame s payload fwd = .ok (s.sent q, .ok, min s.accept (frameBytes q).length) := by
  rw [← framed_eq] at hq
  subst hq
  simp only [sendFrame_bound s payload fwd hbound hlen, State.sent, ← frameOf_eq]
  rfl

/-- A short payload, laid down and handed to `SEND`: the call ends with what `SEND` returns. -/
theorem sendFields_sent (s : State) {fields : List (List Byte)} {payload : List Byte} (fwd : Byte)
    (hpay : fields.flatten = payload) (hlen : payload.length ≤ 65533) :
    ∃ t, sendFields s fields fwd = .next t ∧ PayloadSent s t payload fwd := by
  obtain ⟨buf, hlaid, -, -, hread⟩ := layOut_eq s fields
  have hbuilt := layOut_built s fields
  rw [hpay] at hlaid hread hbuilt
  rw [sendFields, hbuilt, hlaid]
  by_cases hbound : s.cfgBound = true
  · generalize hq : withHeader s fwd payload = q
    have hfits : q.length ≤ 65535 := hq ▸ (withHeader_length_le s fwd payload).trans (by omega)
    refine ⟨_, sendOutcome_next (sendFrame_sent hbound hq hfits), rfl, hread, ?_⟩
    rw [if_pos hbound, hq]
    exact ⟨rfl, rfl, rfl, rfl⟩
  · have hunbound : s.cfgBound = false := Bool.eq_false_of_not_eq_true hbound
    refine ⟨_, sendOutcome_next (sendFrame_unbound _ payload fwd hunbound), rfl, hread, ?_⟩
    rw [if_neg hbound]
    exact ⟨rfl, rfl, rfl, rfl, rfl⟩

theorem sendArg_sent {s : State} {e : Enc} {v : Value} {bs : List Byte} (identifier fwd : Byte)
    (h : encodeArg s.draws e v = .ok bs) :
    ∃ t, sendArg s identifier e v fwd = .next t ∧ PayloadSent s t (identifier :: bs) fwd := by
  have hlen := encodeArg_length h
  rw [sendArg, h]
  exact sendFields_sent s fwd (by simp) (by rw [List.length_cons]; omega)

/-- Settles O57: each wrapper lays its own fields, and the flattened fields are the payload. -/
theorem wrappersSendTheirPayload : Obligations.WrappersSendTheirPayload := by
  intro s fwd hidle
  exact
    ⟨fun _ _ h => whenIdle_exists_next hidle (sendArg_sent _ fwd h),
      fun _ _ h => whenIdle_exists_next hidle (sendArg_sent _ fwd h),
      fun _ _ h => whenIdle_exists_next hidle (sendArg_sent _ fwd h),
      fun _ _ h => whenIdle_exists_next hidle (sendArg_sent _ fwd h),
      whenIdle_exists_next hidle (sendFields_sent s fwd rfl (by simp)),
      whenIdle_exists_next hidle (sendFields_sent s fwd rfl (by simp))⟩

/-! ### The first step of a query (R161, R201, R208; assumption log 20) -/

/-- A query's request is its identifier alone, laid down at offset 0. -/
theorem layOut_request (s : State) (identifier : Byte) :
    ∃ buf, layOut s [[identifier]] = { s with fbuf := buf, flen := 1, cur := 1 } ∧
      (layOut s [[identifier]]).built = [identifier] ∧ Memory.read buf 0 = identifier := by
  obtain ⟨buf, hlaid, -, -, hread⟩ := layOut_eq s [[identifier]]
  exact ⟨buf, hlaid, layOut_built s [[identifier]], List.head_eq_of_cons_eq hread⟩

theorem queryAsk_bound {s : State} (q : Query) (identifier fwd : Byte) (hbound : s.cfgBound = true) :
    ∃ t, queryAsk q identifier fwd s = .next t ∧
      t = { s with fbuf := t.fbuf, flen := 1, cur := 1, txbuf := frameBytes (withHeader s fwd [identifier]),
                   txlog := t.txlog, crc := t.crc, status := .ok, result := .count (min s.accept t.txbuf.length),
                   call := .awaiting q, rxcnt := 0, rxend := none, rxlen := 0, rxmk := .unread,
                   rxdl := s.now + s.cfgTimeoutMs, rxs := .awaitLength } ∧
      Memory.read t.fbuf 0 = identifier ∧
      t.txlog = s.txlog ++ t.txbuf.take (min s.accept t.txbuf.length) := by
  obtain ⟨buf, hlaid, hbuilt, hread⟩ := layOut_request s identifier
  have hshort := withHeader_length_le s fwd [identifier]
  generalize hframed : withHeader s fwd [identifier] = framed at hshort
  have hfits : framed.length ≤ 65535 := hshort.trans (by rw [List.length_singleton]; decide)
  have hsent := sendFrame_sent (s := { s with fbuf := buf, flen := 1, cur := 1 }) hbound hframed hfits
  rw [queryAsk, hbuilt, hlaid, hsent]
  exact ⟨_, if_pos hbound, rfl, hread, rfl⟩

theorem queryAsk_unbound {s : State} (q : Query) (identifier fwd : Byte) (hunbound : s.cfgBound = false) :
    ∃ t, queryAsk q identifier fwd s = .next t ∧
      t = { s with fbuf := t.fbuf, flen := 1, cur := 1, status := .transportUnbound, result := queryResult q false 0,
                   returns := t.returns } ∧
      Memory.read t.fbuf 0 = identifier := by
  obtain ⟨buf, hlaid, hbuilt, hread⟩ := layOut_request s identifier
  rw [queryAsk, hbuilt, hlaid, sendFrame_unbound { s with fbuf := buf, flen := 1, cur := 1 } _ _ hunbound]
  exact ⟨_, if_neg (by simp [hunbound]), rfl, hread⟩

/-! ### The last step of a query (R160, R161, R201; assumption logs 18 and 20)

The query goes on where `RX_RESULT` ends its call, so its decode starts from a state that differs from `DECODE`'s in the
latest return alone. -/

/-- The three ways in which a read can have ended (R160). -/
theorem rxEnding_cases {s : State} {r : RxEnd} (h : rxEnding s = .next r) :
    (s.rxs = .timedOut ∧ r = ⟨s, timeoutStatus s.rxmk, 0⟩) ∨ (s.rxs = .rejected ∧ r = ⟨s, .structuralReject, 0⟩) ∨
      ∃ n, s.rxs = .done ∧ s.rxend = some n ∧
        r = ⟨(unpackFrame s s.rxBytes n).1, (unpackFrame s s.rxBytes n).2,
          if (unpackFrame s s.rxBytes n).2 = .ok then s.rxlen.toNat else 0⟩ := by
  unfold rxEnding at h
  split at h
  next => cases h
  next => cases h
  next => cases h
  next hstate =>
    cases h
    exact .inl ⟨hstate, rfl⟩
  next hstate =>
    cases h
    exact .inr (.inl ⟨hstate, rfl⟩)
  next hstate =>
    split at h
    · cases h
    next n hend =>
      cases h
      exact .inr (.inr ⟨n, hstate, hend, rfl⟩)

/-- The end of a read comes to the same in whichever call it is reached (R160). -/
theorem rxEnding_setCall {s : State} {r : RxEnd} (h : rxEnding s = .next r) (c : Call) :
    rxEnding { s with call := c } = .next { r with state := { r.state with call := c } } := by
  obtain ⟨hstate, rfl⟩ | ⟨hstate, rfl⟩ | ⟨n, hstate, hend, rfl⟩ := rxEnding_cases h
  · exact rxEnding_of_timedOut (s := { s with call := c }) hstate
  · exact rxEnding_of_rejected (s := { s with call := c }) hstate
  · rw [rxEnding_of_done (s := { s with call := c }) hstate hend, unpackFrame_setCall]
    rfl

theorem decodeFwver_ret (s : State) (hcur : s.cur = 0) (st : Status) (r : Result) :
    decodeFwver (s.ret st r) = ((decodeFwver s).1.ret st r, (decodeFwver s).2) := by
  obtain hshort | hfit := Nat.lt_or_ge s.flen 2
  · rw [decodeFwver_short hshort, decodeFwver_short (s := s.ret st r) hshort]
  · rw [decodeFwver_fits s hcur hfit, decodeFwver_fits (s.ret st r) hcur hfit]
    rfl

theorem decodeTelem_illegal {s : State} (hfit : 58 ≤ s.flen) (hp : Params.scalesLegal s.params ≠ true) :
    decodeTelem s = .error .scaleDomain := by
  rw [decodeTelem, if_neg (Nat.not_lt.mpr hfit), if_neg hp]

theorem decodeTelem_ret (s : State) (hcur : s.cur = 0) (st : Status) (r : Result) :
    decodeTelem (s.ret st r) = (decodeTelem s).map fun p => (p.1.ret st r, p.2) := by
  obtain hshort | hfit := Nat.lt_or_ge s.flen 58
  · rw [decodeTelem_short hshort, decodeTelem_short (s := s.ret st r) hshort]
    rfl
  · by_cases hp : Params.scalesLegal s.params = true
    · rw [decodeTelem_fits s hcur hfit hp, decodeTelem_fits (s.ret st r) hcur hfit hp]
      rfl
    · rw [decodeTelem_illegal hfit hp, decodeTelem_illegal (s := s.ret st r) hfit hp]
      rfl

/-- A decode neither reads nor writes the latest return, so that return may as well be written after it. -/
theorem decodePayload_ret (s : State) (st : Status) (r : Result) :
    decodePayload (s.ret st r) = (decodePayload s).map fun p => (p.1.ret st r, p.2) := by
  cases hpay : s.payload with
  | nil =>
    rw [decodePayload_empty hpay, decodePayload_empty (s := s.ret st r) hpay]
    rfl
  | cons identifier fields =>
    by_cases hfwver : identifier = s.params.cmdFwVersion
    · subst hfwver
      rw [decodePayload_fwver hpay, decodePayload_fwver (s := s.ret st r) hpay, ← bind_whole, ← bind_whole]
      exact congrArg Except.ok (decodeFwver_ret (s.bind fields fields.length) rfl st r)
    · by_cases htelem : identifier = Config.cmdTelemetry
      · subst htelem
        rw [decodePayload_telem hpay hfwver, decodePayload_telem (s := s.ret st r) hpay hfwver, ← bind_whole,
          ← bind_whole]
        exact decodeTelem_ret (s.bind fields fields.length) rfl st r
      · rw [decodePayload_unknown hpay hfwver htelem, decodePayload_unknown (s := s.ret st r) hpay hfwver htelem]
        rfl

/-- A read that returned zero, or not with `Ok`, is the query's failure (R201). -/
theorem queryReturn_failed (q : Query) {s : State} {r : RxEnd} (hr : rxEnding s = .next r)
    (h : r.length = 0 ∨ r.status ≠ .ok) :
    queryReturn q s = .next ({ r.state with call := .none }.ret r.status (queryResult q false r.length)) := by
  simp only [queryReturn, hr]
  exact if_neg fun ⟨hlen, hok⟩ => h.elim hlen (· hok)

/-- What `DECODE` makes of a state that a call has just returned to, in terms of the decode without that return. -/
theorem exec_decode_ret {s w : State} {st : Status} {r : Result} (hidle : s.busy = false)
    (h : exec .decode (s.ret st r) = .next w) :
    ∃ t st', decodePayload s = .ok (t, st') ∧ w = (t.ret st r).ret st' (.flag (decide (st' = .ok))) := by
  rw [exec_decode (s := s.ret st r) hidle, decodePayload_ret] at h
  cases hd : decodePayload s with
  | error e =>
    rw [hd] at h
    cases h
  | ok p =>
    rw [hd] at h
    cases h
    exact ⟨p.1, p.2, rfl, rfl⟩

theorem queryStep_free {s : State} (hc : s.call = .none) (q : Query) (identifier fwd : Byte) :
    queryStep q identifier fwd s = queryAsk q identifier fwd s := by
  rw [queryStep, hc]

/-- A query's poll is the stepwise call's, and where it ends the read it ends the query (R201). -/
theorem pollThen_query {s u : State} {q : Query} (hc : s.call = .awaiting q)
    (hpoll : rxPoll { s with call := .stepwise } = .next u) :
    pollThen s (queryReturn q) =
      if u.rxs.finished then queryReturn q { u with call := .awaiting q } else .next { u with call := .awaiting q } := by
  have hself : ({ s with call := .awaiting q } : State) = s := by rw [← hc]
  have hquery := rxPoll_setCall hpoll (.awaiting q)
  rw [hself] at hquery
  exact pollThen_of_poll hquery _

/-- Settles O59: the first step by the binding, each later one by whether its poll ends the read, and the last one by what
the receive returned. -/
theorem queriesSendReceiveDecode : Obligations.QueriesSendReceiveDecode := by
  intro s q fwd i identifier
  have run : exec i s = queryStep q identifier fwd s := by cases q <;> rfl
  have hasks : Instr.asks i q := by cases q <;> exact ⟨fwd, rfl⟩
  refine ⟨fun hc hbound => ?_, fun hc hunbound => ?_, fun u hc hstep => ?_⟩
  · rw [run, queryStep_free hc]
    exact queryAsk_bound q identifier fwd hbound
  · rw [run, queryStep_free hc]
    exact queryAsk_unbound q identifier fwd hunbound
  · have hpoll : rxPoll { s with call := .stepwise } = .next u := (exec_rxStep (.inr rfl)).symm.trans hstep
    rw [exec_query hasks hc, pollThen_query hc hpoll]
    refine ⟨fun hf => if_neg (by simp [hf]), fun v n hf hresult hn => ?_⟩
    rw [if_pos hf]
    obtain ⟨r, hr, rfl⟩ := rxReturn_next u v ((exec_rxResult (.inr (rxPoll_call hpoll))).symm.trans hresult)
    cases hn
    have hend := rxEnding_setCall hr (.awaiting q)
    refine ⟨fun hfail => ⟨_, queryReturn_failed q hend hfail, rfl⟩, fun w ok hlen hok hdecode hflag => ?_⟩
    obtain ⟨t, st, hdecoded, rfl⟩ := exec_decode_ret rfl hdecode
    cases hflag
    exact ⟨_, queryReturn_of_decode q hend hlen hok hdecoded, rfl⟩

end Sys2Proof.Machine

/-! Proofs of the statement about the end of a call: what the clock, the link's log and the list of returns can do
(spec/60_exceptions.md). -/

namespace Sys2Proof.Machine

/-! ### The link's log (R50, R52) -/

theorem Quiet.txlog {s t : State} (h : Quiet s t) : s.txlog <+: t.txlog :=
  h.log.imp fun _ hsent => hsent.symm

theorem rxPoll_txlog {s t : State} (h : rxPoll s = .next t) : t.txlog = s.txlog := by
  obtain ⟨_, _, _, _, _, _, _, rfl⟩ := rxPoll_frame s t h
  rfl

theorem rxEnding_txlog {s : State} {r : RxEnd} (h : rxEnding s = .next r) : s.txlog <+: r.state.txlog :=
  (rxEnding_quiet s r h).1.txlog

/-- Every way an item can answer leaves what stands in the link's log: it is a poll, which writes nothing, a quiet
operation, which only adds, or some of them in a row. -/
theorem ExecNext.txlog {s t : State} {i : Instr} (h : ExecNext s i t) : s.txlog <+: t.txlog := by
  cases h with
  | arrival => exact List.prefix_refl _
  | call u st r hc hq hr => exact hq.txlog
  | start => exact List.prefix_refl _
  | poll _ hc h => rw [rxPoll_txlog h]
  | finish u r hi hr =>
    have hu : u.txlog = s.txlog := by
      obtain ⟨-, -, rfl⟩ | ⟨-, -, h⟩ := hi
      · rfl
      · exact rxPoll_txlog h
    exact hu ▸ rxEnding_txlog hr
  | begin => exact List.prefix_refl _
  | wait _ hc h hf => rw [rxPoll_txlog h]
  | ask u st r q hi hc hb hq hr => exact hq.txlog
  | askWait _ q hi hc h hf => rw [rxPoll_txlog h]
  | askFinish p r u st q v hi hc h hr hq hd =>
    have hend : s.txlog <+: r.state.txlog := rxPoll_txlog h ▸ rxEnding_txlog hr
    exact hend.trans hq.txlog

/-! ### The list of returns (R223, R272; assumption logs 9 and 10) -/

theorem Quiet.returns {s t : State} (h : Quiet s t) : t.returns = s.returns :=
  (congrArg State.returns h.frame).trans rfl

theorem rxPoll_returns {s t : State} (h : rxPoll s = .next t) : t.returns = s.returns := by
  obtain ⟨_, _, _, _, _, _, _, rfl⟩ := rxPoll_frame s t h
  rfl

theorem rxEnding_returns {s : State} {r : RxEnd} (h : rxEnding s = .next r) : r.state.returns = s.returns :=
  (rxEnding_quiet s r h).1.returns

/-- A call has ended between `s` and `t`: none is in progress, and its result and status are the newest entry of the
returns. -/
structure CallEnds (s t : State) : Prop where
  free : t.call = .none
  entry : t.returns = s.returns ++ [⟨t.result, t.status⟩]

theorem CallEnds.of_ret {s u : State} (hc : u.call = .none) (hu : u.returns = s.returns) (st : Status) (r : Result) :
    CallEnds s (u.ret st r) where
  free := hc
  entry := by rw [State.ret_returns, State.ret_result, State.ret_status, hu]

/-- The items that end no call of the host's: a poll, and a frame that arrives. -/
def Instr.endsNoCall (i : Instr) : Prop := i = .rxStep ∨ ∃ p, i = .frameS p ∨ i = .frameL p

/-- Every way an item can answer ends a call with its return, or leaves the returns alone. -/
theorem ExecNext.returns {s t : State} {i : Instr} (h : ExecNext s i t) :
    CallEnds s t ∨ (t.returns = s.returns ∧ (t.call ≠ .none ∨ Instr.endsNoCall i)) := by
  cases h with
  | arrival p bs hi => exact .inr ⟨rfl, .inr (.inr ⟨p, hi⟩)⟩
  | call u st r hc hq hr => exact .inl (.of_ret (hq.call.trans hc) hq.returns st r)
  | start => exact .inr ⟨rfl, .inl nofun⟩
  | poll _ hc h => exact .inr ⟨rxPoll_returns h, .inr (.inl rfl)⟩
  | finish u r hi hr =>
    have hu : u.returns = s.returns := by
      obtain ⟨-, -, rfl⟩ | ⟨-, -, h⟩ := hi
      · rfl
      · exact rxPoll_returns h
    have hend : r.state.returns = s.returns := (rxEnding_returns hr).trans hu
    exact .inl (.of_ret (u := { r.state with call := .none }) rfl hend r.status (.count r.length))
  | begin => exact .inr ⟨rfl, .inl nofun⟩
  | wait _ hc h hf => exact .inr ⟨rxPoll_returns h, .inl (by rw [rxPoll_call h, hc]; nofun)⟩
  | ask u st r q hi hc hb hq hr => exact .inr ⟨hq.returns, .inl nofun⟩
  | askWait _ q hi hc h hf => exact .inr ⟨rxPoll_returns h, .inl (by rw [rxPoll_call h, hc]; nofun)⟩
  | askFinish p r u st q v hi hc h hr hq hd =>
    have hu : u.returns = s.returns :=
      calc u.returns = r.state.returns := hq.returns
        _ = p.returns := rxEnding_returns hr
        _ = s.returns := rxPoll_returns h
    exact .inl (.of_ret hq.call hu st v)

theorem exec_returns_of_endsNoCall {i : Instr} {s t : State} (h : exec i s = .next t) (hi : Instr.endsNoCall i) :
    t.returns = s.returns := by
  obtain rfl | ⟨p, rfl | rfl⟩ := hi
  · exact rxPoll_returns (whenStepwise_next s t _ h).2
  · cases h
    rfl
  · cases h
    rfl

/-- The item adds its return exactly when it ends a call of the host's. -/
theorem exec_returns {i : Instr} {s t : State} (h : exec i s = .next t) :
    (t.busy = false → ¬ Instr.endsNoCall i → t.returns = s.returns ++ [⟨t.result, t.status⟩]) ∧
      (t.busy = true ∨ Instr.endsNoCall i → t.returns = s.returns) := by
  constructor
  · intro hidle hends
    obtain hend | ⟨-, hbusy | hi⟩ := (exec_next i s t h).returns
    · exact hend.entry
    · exact absurd ((busy_eq_false_iff t).mp hidle) hbusy
    · exact absurd hi hends
  · rintro (hbusy | hi)
    · obtain hend | ⟨hkept, -⟩ := (exec_next i s t h).returns
      · rw [(busy_eq_false_iff t).mpr hend.free] at hbusy
        cases hbusy
      · exact hkept
    · exact exec_returns_of_endsNoCall h hi

/-! ### A step (R50, R236, R272) -/

theorem takeInput_now_le (s : State) : s.now ≤ s.takeInput.now := Nat.le_add_right _ _

/-- What an item can do to the clock and the two lists. -/
theorem exec_grows {i : Instr} {s t : State} (h : exec i s = .next t) :
    t.now = s.now ∧ (∃ sent, t.txlog = s.txlog ++ sent) ∧
      (t.returns = s.returns ∨ ∃ r, t.returns = s.returns ++ [⟨r, t.status⟩] ∧ t.result = r) := by
  obtain ⟨-, -, -, -, hnow, -⟩ := itemsLeaveConfigurationAndInputsAlone i s t h
  refine ⟨hnow, (exec_next i s t h).txlog.imp fun _ hsent => hsent.symm, ?_⟩
  obtain hend | ⟨hkept, -⟩ := (exec_next i s t h).returns
  · exact .inr ⟨t.result, hend.entry, rfl⟩
  · exact .inl hkept

/-- Settles O13: of these the environment's turn moves only the clock, and the item behind it only the two lists, where
its call ends with its return or goes on. -/
theorem clockAndLogsOnlyGrow : Obligations.ClockAndLogsOnlyGrow := by
  refine ⟨fun s t h => ?_, fun i s t h => ?_⟩
  · obtain ⟨-, rfl⟩ | ⟨i, rest, u, -, hx, rfl⟩ := step_next s t h
    · exact ⟨takeInput_now_le s, ⟨[], (List.append_nil _).symm⟩, .inl rfl⟩
    · obtain ⟨hnow, hlog, hreturns⟩ := exec_grows hx
      obtain ⟨p, hretire⟩ := retire_frame u rest
      rw [hretire]
      exact ⟨hnow ▸ takeInput_now_le s, hlog, hreturns⟩
  · obtain ⟨hadds, hkeeps⟩ := exec_returns h
    refine ⟨fun hidle hstep hframe => hadds hidle ?_, hkeeps⟩
    rintro (hi | ⟨p, hi⟩)
    · exact hstep hi
    · exact hi.elim (hframe p).1 (hframe p).2

end Sys2Proof.Machine

/-! Proofs of the statements about reset and hazards: what construction leaves, how a step runs the item at the port, and
what a call in progress means for the port and for other items (spec/70_reset_and_hazards.md). -/

namespace Sys2Proof.Machine

/-! ### Construction (R33, R250) -/

/-- Settles O7: each value is the one that `State.construct` gives its field, and no call is in progress. -/
theorem constructionLeavesTheResetValues : Obligations.ConstructionLeavesTheResetValues := by
  intro params timeoutMs bound rc rxq txlog now
  have hidle : (State.construct params timeoutMs bound rc rxq txlog now).busy = false := (busy_eq_false_iff _).mpr rfl
  exact ⟨rfl, rfl, rfl, hidle, rfl, rfl, rfl, rfl, rfl, rfl, rfl, rfl, rfl, rfl, rfl, rfl, rfl, rfl, rfl, rfl⟩

/-! ### A step (R53, R161, R272; assumption logs 1 and 8) -/

theorem retire_of_free {s : State} (h : s.call.holdsPort = false) (rest : List Byte) :
    s.retire rest = { s with port := rest } := by
  rw [State.retire, h, if_neg Bool.false_ne_true]

theorem retire_of_holdsPort {s : State} (h : s.call.holdsPort = true) (rest : List Byte) : s.retire rest = s :=
  if_pos h

/-- With an item at the port a step is the item's outcome after the environment's turn, and then the port's move. -/
theorem step_of_decode {s : State} {i : Instr} {rest : List Byte} (h : decode s.port = .ok (i, rest)) :
    step s = retireOutcome rest (exec i s.takeInput) := by
  rw [step, State.takeInput_port]
  cases hport : s.port with
  | nil =>
    rw [hport] at h
    cases h
  | cons b bs =>
    rw [hport] at h
    simp only [h]

/-- Settles O5: the four outcomes of the item, of which a next state moves the port on or keeps it. -/
theorem stepRunsTheDecodedItem : Obligations.StepRunsTheDecodedItem := by
  intro s i rest h
  rw [step_of_decode h]
  refine ⟨fun t hx hfree => ?_, fun t hx hholds => ?_, fun f hx => ?_, fun r hx => ?_⟩ <;> rw [hx, retireOutcome]
  · rw [retire_of_free hfree]
  · rw [retire_of_holdsPort hholds]

/-! ### The items of a call in progress (R161, R201, R256; assumption log 20) -/

/-- The items that go on with a call in progress: `RX_STEP` and `RX_RESULT` of a stepwise read, and a composite call's own
item. -/
def Call.owns : Call → Instr → Prop
  | .none, _ => False
  | .stepwise, i => i = .rxStep ∨ i = .rxResult
  | .receive, i => i = .receive
  | .awaiting q, i => Instr.asks i q

/-- `State.PortSound` through the decoded item: it is the call's own when the call holds the port. -/
theorem portSound_iff_of_decode {s : State} {i : Instr} {rest : List Byte} (h : decode s.port = .ok (i, rest)) :
    s.PortSound ↔ (s.call.holdsPort = true → s.call.owns i) := by
  rcases hc : s.call with _ | _ | _ | _ | _ <;> simp [State.PortSound, Call.holdsPort, Call.owns, Instr.asks, hc, h]

theorem portSound_of_free {s : State} (h : s.call.holdsPort = false) : s.PortSound := by
  rcases hc : s.call with _ | _ | _ | q
  case none | stepwise => simp [State.PortSound, hc]
  case receive | awaiting => rw [hc] at h; cases h

/-- However an item answers, a call that then holds the port is the item's own, if the call before was: the item began it,
or it is the call that was in progress. -/
theorem ExecNext.owns {s t : State} {i : Instr} (h : ExecNext s i t) (hs : s.call.holdsPort = true → s.call.owns i)
    (ht : t.call.holdsPort = true) : t.call.owns i := by
  cases h with
  | arrival => exact hs ht
  | call u st r hc hq hr =>
    rw [State.ret_call, hq.call, hc] at ht
    cases ht
  | start => cases ht
  | poll _ hc h | wait _ hc h hf | askWait _ q hi hc h hf =>
    rw [rxPoll_call h] at ht ⊢
    exact hs ht
  | finish u r hi hr => cases ht
  | begin => rfl
  | ask u st r q hi hc hb hq hr => exact hi
  | askFinish p r u st q v hi hc h hr hq hd =>
    rw [State.ret_call, hq.call] at ht
    cases ht

/-- Settles O10: the port moves on only behind a call that does not hold it; a call that holds it is the item's own, and
the item still stands there. -/
theorem callsKeepTheirPort : Obligations.CallsKeepTheirPort := by
  intro s t hs h
  obtain ⟨-, rfl⟩ | ⟨i, rest, u, hd, hx, rfl⟩ := step_next s t h
  · exact hs
  cases hholds : u.call.holdsPort with
  | false =>
    rw [retire_of_free hholds]
    exact portSound_of_free hholds
  | true =>
    rw [retire_of_holdsPort hholds]
    obtain ⟨-, -, -, -, -, -, -, -, hport⟩ := itemsLeaveConfigurationAndInputsAlone i s.takeInput u hx
    have hdu : decode u.port = .ok (i, rest) := by rw [hport, State.takeInput_port, hd]
    exact (portSound_iff_of_decode hdu).mpr ((exec_next i _ u hx).owns ((portSound_iff_of_decode hd).mp hs))

/-! ### Every other item is refused (R256, U1; assumption logs 2 and 20) -/

section
variable {s : State}

theorem call_ne_none_of_busy (hbusy : s.busy = true) : s.call ≠ .none := fun hc => by
  rw [(busy_eq_false_iff s).mpr hc] at hbusy
  cases hbusy

theorem whenStepwise_of_other (hbusy : s.busy = true) (h : s.call ≠ .stepwise)
    (k : Host.Outcome State Fault Refusal) : whenStepwise s k = .refused .busy := by
  unfold whenStepwise
  split
  · exact absurd ‹_› (call_ne_none_of_busy hbusy)
  · exact absurd ‹_› h
  · rfl
  · rfl

theorem execReceive_of_other (hbusy : s.busy = true) (h : s.call ≠ .receive) : execReceive s = .refused .busy := by
  unfold execReceive
  split
  · exact absurd ‹_› (call_ne_none_of_busy hbusy)
  · exact absurd ‹_› h
  · rfl
  · rfl

theorem queryStep_of_other (hbusy : s.busy = true) {q : Query} (h : s.call ≠ .awaiting q) (identifier fwd : Byte) :
    queryStep q identifier fwd s = .refused .busy := by
  unfold queryStep
  split
  · exact absurd ‹_› (call_ne_none_of_busy hbusy)
  · rename_i q' hc
    exact if_neg fun hq : q' = q => h (hq ▸ hc)
  · rfl
  · rfl

/-- While a call is in progress an item that is neither of it nor an arriving frame is refused. -/
theorem exec_of_other {i : Instr} (hbusy : s.busy = true) (hframe : ∀ p, i ≠ .frameS p ∧ i ≠ .frameL p)
    (hother : ¬ s.call.owns i) : exec i s = .refused .busy := by
  cases i with
  | frameS p => exact absurd rfl (hframe p).1
  | frameL p => exact absurd rfl (hframe p).2
  | rxStep => exact whenStepwise_of_other hbusy (fun hc => hother (hc ▸ .inl rfl)) _
  | rxResult => exact whenStepwise_of_other hbusy (fun hc => hother (hc ▸ .inr rfl)) _
  | receive => exact execReceive_of_other hbusy fun hc => hother (hc ▸ rfl)
  | getFwVersion fwd => exact queryStep_of_other hbusy (q := .fwVersion) (fun hc => hother (hc ▸ ⟨fwd, rfl⟩)) _ fwd
  | getValues fwd => exact queryStep_of_other hbusy (q := .values) (fun hc => hother (hc ▸ ⟨fwd, rfl⟩)) _ fwd
  | crc16 | curReset | putSi16 | putSi32 | putI32 | putBool | putU8 | getSi16 | getSi32 | getI32 | getBool | getU8
  | skip | build | send | rxStart | unpack | decode | decFwver | decTelem | cmdFwVersion | cmdTelemetry | cmdSetCurrent
  | cmdSetBrake | cmdSetRpm | cmdSetDuty | cmdSetRc | cmdKeepalive | cmdForward | fieldSi16 | fieldSi32 | fieldI32
  | fieldBool | fieldU8 | setCurrent | setBrakeCurrent | setRpm | setDuty | setRcState | keepalive =>
    exact whenIdle_of_busy s _ hbusy

end

/-- Settles O16: the exceptions it names are the arriving frames and the items of the call in progress. -/
theorem busyRefusesEveryOtherCall : Obligations.BusyRefusesEveryOtherCall := by
  intro i s hbusy hframe hstepwise hreceive hversion hvalues
  refine exec_of_other hbusy hframe ?_
  cases hc : s.call with
  | none => exact id
  | stepwise => exact not_or.mpr (hstepwise hc)
  | receive => exact hreceive hc
  | awaiting q =>
    cases q with
    | fwVersion => exact not_exists.mpr (hversion hc)
    | values => exact not_exists.mpr (hvalues hc)

end Sys2Proof.Machine
